-- ==== Sys2Proof/Word.lean ====
section
/-! DEFINITION. The word types of the block (00_scope.md R8, R10 to R12): the 32-bit register and
command word, the byte, and the bitstring of R12 as a list whose head is the first bit. -/

namespace Sys2Proof

/-- A register or command word: REG_W = 32 bits (R8). -/
abbrev Word := BitVec 32

/-- A data or payload byte. -/
abbrev Byte := BitVec 8

/-- A bitstring (R12): element 0 is the first bit produced or consumed. -/
abbrev Bits := List Bool

end Sys2Proof
end

