-- ==== Sys2Proof/Syntax.lean ====
section
/-! DEFINITION. The command set: one constructor per row of spec/opcode_table.json (30_encoding.md
R125), each with the operand fields of its format at their encoded widths (R122, R123). -/

namespace Sys2Proof

/-- The 18 commands of R125. Operand widths are those of R122: BYTE 8, F 1, SYM 9, K 3, FSEL 2,
IDX 10 bits. -/
inductive Instr where
  /-- NOP, format N, OPC 0x00 (R166). -/
  | nop
  /-- SOFT_RESET, format N, OPC 0x01 (R167). -/
  | softReset
  /-- FREQ_CLEAR, format N, OPC 0x10 (R191). -/
  | freqClear
  /-- ANA_BYTE, format B, OPC 0x11 (R192). -/
  | anaByte (byte : Byte)
  /-- ANA_END, format F, OPC 0x12 (R193); `appendEof` is F. -/
  | anaEnd (appendEof : Bool)
  /-- FREQ_WRITE, format S, OPC 0x13 (R194). -/
  | freqWrite (sym : BitVec 9)
  /-- FREQ_READ, format S, OPC 0x14 (R195). -/
  | freqRead (sym : BitVec 9)
  /-- BUILD_TREE, format N, OPC 0x20 (R224). -/
  | buildTree
  /-- NODE_READ, format NI, OPC 0x21 (R226). -/
  | nodeRead (idx : BitVec 10) (fsel : BitVec 2)
  /-- GEN_CODES, format N, OPC 0x30 (R251). -/
  | genCodes
  /-- CODE_LEN, format S, OPC 0x31 (R253). -/
  | codeLen (sym : BitVec 9)
  /-- CODE_BITS, format SK, OPC 0x32 (R254). -/
  | codeBits (sym : BitVec 9) (k : BitVec 3)
  /-- ENC_BEGIN, format N, OPC 0x40 (R281). -/
  | encBegin
  /-- ENC_BYTE, format B, OPC 0x41 (R282). -/
  | encByte (byte : Byte)
  /-- ENC_FINISH, format N, OPC 0x42 (R283). -/
  | encFinish
  /-- DEC_BEGIN, format N, OPC 0x50 (R311). -/
  | decBegin
  /-- DEC_BYTE, format B, OPC 0x51 (R312). -/
  | decByte (byte : Byte)
  /-- DEC_END, format N, OPC 0x52 (R315). -/
  | decEnd
deriving DecidableEq, Repr

end Sys2Proof
end

