-- ==== Sys2Proof/WellFormed.lean ====
section
/-! DEFINITION. Which commands are well formed: the operand range checks of 30_encoding.md R129.
K, FSEL, BYTE and F have no illegal values. -/

namespace Sys2Proof

/-- R129: a table symbol is 0 to 256. -/
def symLegal (sym : BitVec 9) : Bool := decide (sym.toNat ≤ 256)

/-- R129: an arena index is 0 to 512. -/
def idxLegal (idx : BitVec 10) : Bool := decide (idx.toNat ≤ 512)

/-- A command is well formed when its index operand is in range (R129). -/
def Instr.wellFormed : Instr → Bool
  | .nop => true
  | .softReset => true
  | .freqClear => true
  | .anaByte _ => true
  | .anaEnd _ => true
  | .freqWrite sym => symLegal sym
  | .freqRead sym => symLegal sym
  | .buildTree => true
  | .nodeRead idx _ => idxLegal idx
  | .genCodes => true
  | .codeLen sym => symLegal sym
  | .codeBits sym _ => symLegal sym
  | .encBegin => true
  | .encByte _ => true
  | .encFinish => true
  | .decBegin => true
  | .decByte _ => true
  | .decEnd => true

end Sys2Proof
end

