-- ==== Sys2Proof/Decode.lean ====
section
/-! DEFINITION. The command decoder and encoder, from the formats, operand assembly, opcode map and
checks of 30_encoding.md (R120 to R129, R134) and the byte lanes of 20_memory.md R82. -/

namespace Sys2Proof

/-- Why a word is illegal (R128, R129). -/
inductive DecodeError where
  /-- R126, R128: no row of R125 has this opcode. -/
  | unassignedOpcode
  /-- R122, R128: an assigned opcode with a 1 in an MBZ bit of its format. -/
  | mbzBitSet
  /-- R129: formats S and SK, SYM > 256. -/
  | symOutOfRange
  /-- R129: format NI, IDX > 512. -/
  | idxOutOfRange
  /-- Fewer than the four bytes of a command word (R120); only `decodeBytes` answers this. -/
  | tooFewBytes
deriving DecidableEq, Repr

/-- The opcode field OPC, bits [31:24] (R121). -/
def opcodeOf (w : Word) : BitVec 8 := w.extractLsb' 24 8

/-- Format N (R122): bits [23:0] must be zero. -/
def decodeN (w : Word) (i : Instr) : Except DecodeError Instr :=
  if w.extractLsb' 0 24 = 0 then .ok i else .error .mbzBitSet

/-- Format B (R122): bits [23:8] must be zero, BYTE is [7:0]. -/
def decodeB (w : Word) (mk : Byte → Instr) : Except DecodeError Instr :=
  if w.extractLsb' 8 16 = 0 then .ok (mk (w.extractLsb' 0 8)) else .error .mbzBitSet

/-- Format F (R122): bits [23:1] must be zero, F is [0]. -/
def decodeF (w : Word) (mk : Bool → Instr) : Except DecodeError Instr :=
  if w.extractLsb' 1 23 = 0 then .ok (mk (w.getLsbD 0)) else .error .mbzBitSet

/-- Format S (R122, R129): bits [23:9] must be zero, SYM is [8:0] and at most 256. -/
def decodeS (w : Word) (mk : BitVec 9 → Instr) : Except DecodeError Instr :=
  if w.extractLsb' 9 15 = 0 then
    if symLegal (w.extractLsb' 0 9) then .ok (mk (w.extractLsb' 0 9)) else .error .symOutOfRange
  else .error .mbzBitSet

/-- Format SK (R122, R129): bits [23:15] and [11:9] must be zero, K is [14:12], SYM is [8:0] and at
most 256. -/
def decodeSK (w : Word) (mk : BitVec 9 → BitVec 3 → Instr) : Except DecodeError Instr :=
  if w.extractLsb' 15 9 = 0 ∧ w.extractLsb' 9 3 = 0 then
    if symLegal (w.extractLsb' 0 9) then .ok (mk (w.extractLsb' 0 9) (w.extractLsb' 12 3))
    else .error .symOutOfRange
  else .error .mbzBitSet

/-- Format NI (R122, R129): bits [23:14] and [11:10] must be zero, FSEL is [13:12], IDX is [9:0] and
at most 512. -/
def decodeNI (w : Word) (mk : BitVec 10 → BitVec 2 → Instr) : Except DecodeError Instr :=
  if w.extractLsb' 14 10 = 0 ∧ w.extractLsb' 10 2 = 0 then
    if idxLegal (w.extractLsb' 0 10) then .ok (mk (w.extractLsb' 0 10) (w.extractLsb' 12 2))
    else .error .idxOutOfRange
  else .error .mbzBitSet

/-- The first checks of R127, total on every word: the row of R125 by opcode, its MBZ bits, then the
operand range. The phase check of R127 belongs to the meanings. -/
def decode (w : Word) : Except DecodeError Instr :=
  if opcodeOf w = 0x00 then decodeN w .nop
  else if opcodeOf w = 0x01 then decodeN w .softReset
  else if opcodeOf w = 0x10 then decodeN w .freqClear
  else if opcodeOf w = 0x11 then decodeB w .anaByte
  else if opcodeOf w = 0x12 then decodeF w .anaEnd
  else if opcodeOf w = 0x13 then decodeS w .freqWrite
  else if opcodeOf w = 0x14 then decodeS w .freqRead
  else if opcodeOf w = 0x20 then decodeN w .buildTree
  else if opcodeOf w = 0x21 then decodeNI w .nodeRead
  else if opcodeOf w = 0x30 then decodeN w .genCodes
  else if opcodeOf w = 0x31 then decodeS w .codeLen
  else if opcodeOf w = 0x32 then decodeSK w .codeBits
  else if opcodeOf w = 0x40 then decodeN w .encBegin
  else if opcodeOf w = 0x41 then decodeB w .encByte
  else if opcodeOf w = 0x42 then decodeN w .encFinish
  else if opcodeOf w = 0x50 then decodeN w .decBegin
  else if opcodeOf w = 0x51 then decodeB w .decByte
  else if opcodeOf w = 0x52 then decodeN w .decEnd
  else .error .unassignedOpcode

/-- The word of format N. -/
def encodeN (opc : BitVec 8) : Word := opc ++ 0#24

/-- The word of format B. -/
def encodeB (opc : BitVec 8) (byte : Byte) : Word := opc ++ 0#16 ++ byte

/-- The word of format F. -/
def encodeF (opc : BitVec 8) (f : Bool) : Word := opc ++ 0#23 ++ BitVec.ofBool f

/-- The word of format S. -/
def encodeS (opc : BitVec 8) (sym : BitVec 9) : Word := opc ++ 0#15 ++ sym

/-- The word of format SK. -/
def encodeSK (opc : BitVec 8) (sym : BitVec 9) (k : BitVec 3) : Word :=
  opc ++ 0#9 ++ k ++ 0#3 ++ sym

/-- The word of format NI. -/
def encodeNI (opc : BitVec 8) (idx : BitVec 10) (fsel : BitVec 2) : Word :=
  opc ++ 0#10 ++ fsel ++ 0#2 ++ idx

/-- The command word of a command (R122, R125): there is one length only (R120). -/
def encode : Instr → Word
  | .nop => encodeN 0x00
  | .softReset => encodeN 0x01
  | .freqClear => encodeN 0x10
  | .anaByte byte => encodeB 0x11 byte
  | .anaEnd f => encodeF 0x12 f
  | .freqWrite sym => encodeS 0x13 sym
  | .freqRead sym => encodeS 0x14 sym
  | .buildTree => encodeN 0x20
  | .nodeRead idx fsel => encodeNI 0x21 idx fsel
  | .genCodes => encodeN 0x30
  | .codeLen sym => encodeS 0x31 sym
  | .codeBits sym k => encodeSK 0x32 sym k
  | .encBegin => encodeN 0x40
  | .encByte byte => encodeB 0x41 byte
  | .encFinish => encodeN 0x42
  | .decBegin => encodeN 0x50
  | .decByte byte => encodeB 0x51 byte
  | .decEnd => encodeN 0x52

/-- The six command formats (R122). -/
inductive Format where
  /-- OPC alone. -/
  | n
  /-- OPC and BYTE. -/
  | b
  /-- OPC and F. -/
  | f
  /-- OPC and SYM. -/
  | s
  /-- OPC, K and SYM. -/
  | sk
  /-- OPC, FSEL and IDX. -/
  | ni
deriving DecidableEq, Repr

/-- One row of the opcode map (R125). -/
structure OpRow where
  /-- The row's mnemonic. -/
  mnemonic : String
  /-- The row's format. -/
  format : Format
  /-- The row's match word. -/
  value : Word
  /-- The row's mask of fixed bits. -/
  mask : Word
deriving DecidableEq, Repr

/-- The opcode map (R125), as the spec and spec/opcode_table.json write it. -/
def opcodeMap : List OpRow :=
  [⟨"NOP", .n, 0x00000000, 0xFFFFFFFF⟩, ⟨"SOFT_RESET", .n, 0x01000000, 0xFFFFFFFF⟩,
   ⟨"FREQ_CLEAR", .n, 0x10000000, 0xFFFFFFFF⟩, ⟨"ANA_BYTE", .b, 0x11000000, 0xFFFFFF00⟩,
   ⟨"ANA_END", .f, 0x12000000, 0xFFFFFFFE⟩, ⟨"FREQ_WRITE", .s, 0x13000000, 0xFFFFFE00⟩,
   ⟨"FREQ_READ", .s, 0x14000000, 0xFFFFFE00⟩, ⟨"BUILD_TREE", .n, 0x20000000, 0xFFFFFFFF⟩,
   ⟨"NODE_READ", .ni, 0x21000000, 0xFFFFCC00⟩, ⟨"GEN_CODES", .n, 0x30000000, 0xFFFFFFFF⟩,
   ⟨"CODE_LEN", .s, 0x31000000, 0xFFFFFE00⟩, ⟨"CODE_BITS", .sk, 0x32000000, 0xFFFF8E00⟩,
   ⟨"ENC_BEGIN", .n, 0x40000000, 0xFFFFFFFF⟩, ⟨"ENC_BYTE", .b, 0x41000000, 0xFFFFFF00⟩,
   ⟨"ENC_FINISH", .n, 0x42000000, 0xFFFFFFFF⟩, ⟨"DEC_BEGIN", .n, 0x50000000, 0xFFFFFFFF⟩,
   ⟨"DEC_BYTE", .b, 0x51000000, 0xFFFFFF00⟩, ⟨"DEC_END", .n, 0x52000000, 0xFFFFFFFF⟩]

/-- A word selects a row when (w & mask) = match (R125). -/
def OpRow.selects (r : OpRow) (w : Word) : Bool := decide (w &&& r.mask = r.value)

/-- The index operand of a word that selects a row is in range (R129): SYM of formats S and SK at
most 256, IDX of format NI at most 512. The other formats have no illegal operand. -/
def OpRow.inRange (r : OpRow) (w : Word) : Bool :=
  match r.format with
  | .n => true
  | .b => true
  | .f => true
  | .s => decide ((w.extractLsb' 0 9).toNat ≤ 256)
  | .sk => decide ((w.extractLsb' 0 9).toNat ≤ 256)
  | .ni => decide ((w.extractLsb' 0 10).toNat ≤ 512)

/-- The mnemonic of a command, letter for letter as the opcode map has it. -/
def mnemonicOf : Instr → String
  | .nop => "NOP"
  | .softReset => "SOFT_RESET"
  | .freqClear => "FREQ_CLEAR"
  | .anaByte _ => "ANA_BYTE"
  | .anaEnd _ => "ANA_END"
  | .freqWrite _ => "FREQ_WRITE"
  | .freqRead _ => "FREQ_READ"
  | .buildTree => "BUILD_TREE"
  | .nodeRead _ _ => "NODE_READ"
  | .genCodes => "GEN_CODES"
  | .codeLen _ => "CODE_LEN"
  | .codeBits _ _ => "CODE_BITS"
  | .encBegin => "ENC_BEGIN"
  | .encByte _ => "ENC_BYTE"
  | .encFinish => "ENC_FINISH"
  | .decBegin => "DEC_BEGIN"
  | .decByte _ => "DEC_BYTE"
  | .decEnd => "DEC_END"

/-- Byte lane k of a word, bits [8k+7 : 8k] (R82). -/
def byteLane (w : Word) (k : Nat) : Byte := w.extractLsb' (8 * k) 8

/-- The four byte lanes of a word, lane 0 first: the register bus is little-endian (R82). -/
def byteLanes (w : Word) : List Byte := [byteLane w 0, byteLane w 1, byteLane w 2, byteLane w 3]

/-- The word that four byte lanes carry (R82). -/
def wordOfLanes (b0 b1 b2 b3 : Byte) : Word := b3 ++ b2 ++ b1 ++ b0

/-- Decode a command word carried as byte lanes, and the bytes after it. -/
def decodeBytes : List Byte → Except DecodeError (Instr × List Byte)
  | b0 :: b1 :: b2 :: b3 :: rest =>
    match decode (wordOfLanes b0 b1 b2 b3) with
    | .ok i => .ok (i, rest)
    | .error e => .error e
  | _ => .error .tooFewBytes

/-- The command word whose low nbits bits are w and whose other bits are 0. -/
def tableWord (nbits w : Nat) : Word := BitVec.ofNat 32 (w % 2 ^ nbits)

/-- The command the decoder reads from the table's numbering of its bits: the word is laid out as
its byte lanes (R82) and decoded from them. -/
def decodeTableWord (nbits w : Nat) : Option Instr :=
  match decodeBytes (byteLanes (tableWord nbits w)) with
  | .ok (i, _) => some i
  | .error _ => none

end Sys2Proof
end

