-- ==== Sys2Proof/Config.lean ====
section
/-! DEFINITION. What one implementation of the block fixes (00_scope.md R8, R9; 10_state.md R64):
the one open parameter OFIFO_DEPTH. State carries a Config as plain data and no step writes it. -/

namespace Sys2Proof

/-- The open parameter of the block. R9: a model takes OFIFO_DEPTH as an argument; here the argument
rides in State, at the width in which PARAM[15:0] reports it (R42). -/
structure Config where
  /-- OFIFO_DEPTH, the number of bytes the output FIFO holds. -/
  ofifoDepth : BitVec 16
deriving DecidableEq, Repr

/-- R8: 33 ≤ OFIFO_DEPTH ≤ 65535; the upper bound is the field's width. -/
def Config.legal (c : Config) : Bool := decide (33 ≤ c.ofifoDepth.toNat)

/-- DESIGN CHOICE (log 1): the value State.reset carries, the least legal depth and the one
95_test_vectors.md uses. Statements hold for every depth. -/
def Config.least : Config := { ofifoDepth := 33 }

end Sys2Proof
end

