-- ==== Sys2Proof/Machine/State.lean ====
section
/-! DEFINITION. The state of the block (10_state.md R30 to R61), the host's pending operations, the
reasons a step can stop, and reset. -/

namespace Sys2Proof.Machine

/-- STATUS.DEC_STATE (R39). Its value 3 is never produced, so it has no constructor (I17; DEDUCED, log 12). -/
inductive DecState where
  /-- 0: no decode is open. -/
  | idle
  /-- 1: a decode is open and the EOF leaf was not reached. -/
  | run
  /-- 2: the EOF leaf was reached. -/
  | eos
deriving DecidableEq, Repr

/-- STATUS.ERR (60_exceptions.md R341). Codes 0x0A to 0xFF are never produced (I17; DEDUCED, log 12). -/
inductive ErrCode where
  /-- 0x00 NONE. -/
  | noFault
  /-- 0x01 INVALID_INPUT. -/
  | invalidInput
  /-- 0x02 PROTOCOL. -/
  | protocol
  /-- 0x03 TRUNCATED_STREAM. -/
  | truncatedStream
  /-- 0x04 CORRUPT_HEADER, reserved for the host: never raised by the block (R342). -/
  | corruptHeader
  /-- 0x05 ILLEGAL_CMD. -/
  | illegalCmd
  /-- 0x06 SEQUENCE. -/
  | sequence
  /-- 0x07 COUNT_OVERFLOW. -/
  | countOverflow
  /-- 0x08 BAD_PATH. -/
  | badPath
  /-- 0x09 CMD_OVERRUN. -/
  | cmdOverrun
deriving DecidableEq, Repr

/-- One entry of the node arena (R54). -/
structure Node where
  /-- LEAF: 1 for a leaf entry. -/
  leaf : Bool
  /-- SYM: the symbol of a leaf, 257 (internal-marker) for an internal entry. -/
  sym : BitVec 9
  /-- WEIGHT, 41 bits. -/
  weight : BitVec 41
  /-- ZERO: the arena index of the zero-child, or NIL. -/
  zero : BitVec 10
  /-- ONE: the arena index of the one-child, or NIL. -/
  one : BitVec 10
deriving DecidableEq, Repr

/-- An unused arena entry: every field 0 (R54). -/
def Node.unused : Node := { leaf := false, sym := 0, weight := 0, zero := 0, one := 0 }

/-- The width of a bus access (20_memory.md R81). -/
inductive AccessSize where
  /-- 8 bits. -/
  | bits8
  /-- 16 bits. -/
  | bits16
  /-- 32 bits, the only width with a meaning. -/
  | bits32
deriving DecidableEq, Repr

/-- What the host and the platform can do to the block (20_memory.md R80, R100; 30_encoding.md R132,
R133; 70_reset_and_hazards.md R380, R386). -/
inductive HostOp where
  /-- BusRead: read at a byte offset from the window base (R80). -/
  | read (size : AccessSize) (off : Nat)
  /-- BusWrite: write a word at a byte offset from the window base (R80). -/
  | write (size : AccessSize) (off : Nat) (data : Word)
  /-- WAIT (R132): read STATUS until BUSY reads 0. -/
  | wait
  /-- DRAIN (R133): read OUT_DATA until a read returns bit [8] = 0. -/
  | drain
  /-- The safe wait of R386: pop while OUT_VALID, until BUSY reads 0. OUT_VALID and BUSY are bits of one
  read of STATUS (DESIGN CHOICE, log 15). -/
  | safeWait
  /-- The platform asserts the reset input (R380); power-up is the same (R368). -/
  | assertReset
  /-- The platform releases the reset input. -/
  | releaseReset
deriving DecidableEq, Repr

/-- Whose turn the next step is (R94: one interleaving of host operations and core steps). -/
inductive Turn where
  /-- The host performs an operation. -/
  | host (op : HostOp)
  /-- The core may step. -/
  | core
deriving DecidableEq, Repr

/-- What one bus read gave the host. -/
structure BusReply where
  /-- The offset read. -/
  off : Nat
  /-- The word returned. -/
  data : Word
deriving DecidableEq, Repr

/-- The state of the block and, last, what the model adds to run it. -/
structure State where
  /-- The implementation's parameter (R9, R64). No step writes it. -/
  config : Config
  /-- STATUS.BUSY (R35). -/
  busy : Bool
  /-- STATUS.TREE_VALID (R36). -/
  treeValid : Bool
  /-- STATUS.CODES_VALID (R37). -/
  codesValid : Bool
  /-- STATUS.ENC_ACTIVE (R38). -/
  encActive : Bool
  /-- STATUS.DEC_STATE (R39). -/
  decState : DecState
  /-- STATUS.ERR (R40). STATUS.FAULT is computed from it. -/
  err : ErrCode
  /-- ARG (R44). -/
  arg : Word
  /-- RESULT (R45). -/
  result : Word
  /-- BITCNT (R47). -/
  bitcnt : BitVec 64
  /-- ERR_CMD (R48). -/
  errCmd : Word
  /-- ERR_INFO (R49). -/
  errInfo : Word
  /-- INT_EN.ERR_IE (R50). -/
  errIe : Bool
  /-- INT_EN.EOS_IE (R50). -/
  eosIe : Bool
  /-- TREE_INFO.NODE_COUNT (R51). -/
  nodeCount : BitVec 10
  /-- TREE_INFO.ROOT (R51). -/
  root : BitVec 10
  /-- FREQ[0..256] (R53). -/
  freq : Vector Word 257
  /-- NODE[0..512] (R54). -/
  node : Vector Node 513
  /-- CODE_LEN[0..256] (R56). -/
  codeLen : Vector (BitVec 9) 257
  /-- CODE[0..256] (R56): bits past the length are 0. That code bit i stands in bit 255 − i is DESIGN
  CHOICE (log 6). -/
  code : Vector (BitVec 256) 257
  /-- ENC_NPEND (R57): how many bits are pending. -/
  encNpend : BitVec 3
  /-- ENC_ACC (R57): pending bit i stands in bit 6 − i. -/
  encAcc : BitVec 7
  /-- DEC_CUR (R58). -/
  decCur : BitVec 10
  /-- The output FIFO (R55), head first. -/
  outFifo : List Byte
  /-- PEND_CMD (R59). -/
  pendCmd : Word
  /-- PEND_ARG (R59). -/
  pendArg : Word
  /-- The reset input of R380: true while the platform asserts it (DEDUCED, log 8). -/
  resetIn : Bool
  /-- The model's own (log 2): the turns to come, first one first. When none is left the host is
  silent and the core may step. -/
  schedule : List Turn
  /-- The model's own (log 3): every word a bus read returned, oldest first (R394). -/
  readLog : List BusReply
deriving DecidableEq, Repr

/-- The state after hardware reset (R61, R380), every register as the table of R61 gives it, on an
implementation with the given parameter. -/
def State.resetWith (c : Config) : State where
  config := c
  busy := false
  treeValid := false
  codesValid := false
  encActive := false
  decState := .idle
  err := .noFault
  arg := 0
  result := 0
  bitcnt := 0
  errCmd := 0
  errInfo := 0
  errIe := false
  eosIe := false
  nodeCount := 0
  root := 0
  freq := Vector.replicate 257 0
  node := Vector.replicate 513 Node.unused
  codeLen := Vector.replicate 257 0
  code := Vector.replicate 257 0
  encNpend := 0
  encAcc := 0
  decCur := 0
  outFifo := []
  pendCmd := 0
  pendArg := 0
  resetIn := false
  schedule := []
  readLog := []

/-- The block right after reset (R61). The parameter it carries is DESIGN CHOICE (log 1). -/
def State.reset : State := State.resetWith Config.least

/-- Why the model stops where the spec says nothing exists to go on with. Every one is safe, and none
is reached from a state that meets Safety.lean's invariant. -/
inductive Fault where
  /-- Raised by GEN_CODES and DEC_BYTE when an arena index 513 to 1022 is followed: R54 has no such
  entry and R86 says no command reaches one. Safe: the model stops (log 4). -/
  | noSuchNode
  /-- Raised by GEN_CODES at a leaf whose SYM is above 256: R56 has no such entry. Safe (log 4). -/
  | noSuchSymbol
  /-- Raised by GEN_CODES below depth 256: R56 and R228 give no code longer than 256 bits. Safe
  (log 4). -/
  | codeTooLong
deriving DecidableEq, Repr

/-- What the model refuses, each because the spec says so (the order of the checks: log 7). -/
inductive Refusal where
  /-- Raised by exec for a command that has no meaning yet. Safe: the model stops. -/
  | notModelled (mnemonic : String)
  /-- Raised by a bus access that is not 32 bits wide: R81, "A model refuses such an access". Safe. -/
  | subWordAccess
  /-- Raised by a bus access at an offset that is no multiple of 4: R81. Safe. -/
  | misalignedAccess
  /-- Raised by a bus access at offset 0x40 or above: R83, "not part of the block" (I11). Safe. -/
  | outsideWindow
  /-- Raised by a bus access while the reset input is asserted: R380, "the block does not answer bus
  accesses" (I21). Safe. -/
  | accessDuringReset
deriving DecidableEq, Repr

end Sys2Proof.Machine
end

