-- ==== Sys2Proof/Machine/Operands.lean ====
section
/-! DEFINITION. Operand forms (30_encoding.md R123, R124, R129), the indexes they give into the
internal memories (20_memory.md R86), and the bit order of codes and payload bytes (R89, R92). -/

namespace Sys2Proof.Machine

/-- NIL, the null arena index (00_scope.md R8). -/
def nilIdx : BitVec 10 := 0x3FF

/-- EOF's symbol number (R124). -/
def eofSym : BitVec 9 := 256

/-- The internal-marker (R124). -/
def internalMarker : BitVec 9 := 257

/-- The entry a SYM operand selects, none when it is out of range (R129). -/
def symIndex (sym : BitVec 9) : Option (Fin 257) :=
  if h : sym.toNat < 257 then some ⟨sym.toNat, h⟩ else none

/-- The entry a BYTE operand selects: byte value b is symbol b (R123, R124). -/
def byteIndex (byte : Byte) : Fin 257 := ⟨byte.toNat, by have := byte.isLt; omega⟩

/-- The entry of EOF (R124). -/
def eofIndex : Fin 257 := 256

/-- The entry an arena index selects, none outside 0 to 512 (R54, R129). -/
def nodeIndex (idx : BitVec 10) : Option (Fin 513) :=
  if h : idx.toNat < 513 then some ⟨idx.toNat, h⟩ else none

/-- The arena entry at an index, none outside 0 to 512. -/
def nodeAt (arena : Vector Node 513) (idx : BitVec 10) : Option Node :=
  match nodeIndex idx with
  | some i => some arena[i]
  | none => none

/-- The number a bitstring writes, its first bit the most significant. -/
def natOfBits (p : Bits) : Nat := p.foldl (fun n b => 2 * n + b.toNat) 0

/-- A bitstring at the top of a w-bit vector, the first bit in bit w − 1, zeros after its end. With
w = 8 it is a payload byte and its padding (R89, R280); with w = 256 an entry of CODE (R56); with
w = 7 ENC_ACC (R57). -/
def packMsb (w : Nat) (p : Bits) : BitVec w := BitVec.ofNat w (natOfBits p * 2 ^ (w - p.length))

/-- The first n bits of a vector, from its top bit down. -/
def unpackMsb {w : Nat} (v : BitVec w) (n : Nat) : Bits := (List.range n).map v.getMsbD

/-- The bits of a DEC_BYTE operand, each with its position, in the order they are taken: bit 7 first
(R89, R312). -/
def operandBits (y : Byte) : List (BitVec 3 × Bool) :=
  [(7, y.getLsbD 7), (6, y.getLsbD 6), (5, y.getLsbD 5), (4, y.getLsbD 4),
   (3, y.getLsbD 3), (2, y.getLsbD 2), (1, y.getLsbD 1), (0, y.getLsbD 0)]

/-- The field group FSEL of an arena entry (42_tree.md R226). -/
def nodeField (e : Node) (fsel : BitVec 2) : Word :=
  if fsel = 0 then BitVec.ofBool e.leaf ++ 0#22 ++ e.sym
  else if fsel = 1 then e.weight.extractLsb' 0 32
  else if fsel = 2 then 0#23 ++ e.weight.extractLsb' 32 9
  else 0#6 ++ e.one ++ 0#6 ++ e.zero

/-- The code of a symbol as a bitstring (R56). -/
def codeOf (s : State) (i : Fin 257) : Bits := unpackMsb s.code[i] s.codeLen[i].toNat

/-- Code bits 32k to 32k+31, bit 32k first and zeros past the code's length (43_codes.md R254). -/
def codeChunk (code : Bits) (k : BitVec 3) : Word :=
  packMsb 32 ((code.drop (32 * k.toNat)).take 32)

/-- ENC_PEND as a bitstring (R57). -/
def encPend (s : State) : Bits := unpackMsb s.encAcc s.encNpend.toNat

/-- ENC_PEND written (R57, R280): the length in ENC_NPEND, the bits from ENC_ACC[6] down, zeros in the
other bits of ENC_ACC. -/
def setEncPend (p : Bits) (s : State) : State :=
  { s with encNpend := BitVec.ofNat 3 p.length, encAcc := packMsb 7 p }

end Sys2Proof.Machine
end

