-- ==== Sys2Proof/Machine/Flags.lean ====
section
/-! DEFINITION. The phase flags and every computation over them: the phase checks (30_encoding.md
R130), the flag writes several commands share (41_frequency.md R190), the STATUS word (10_state.md
R34) and the interrupt line (60_exceptions.md R360). -/

namespace Sys2Proof.Machine

/-- The number of a fault code in STATUS.ERR (R341). -/
def errNumber : ErrCode → BitVec 8
  | .noFault => 0x00
  | .invalidInput => 0x01
  | .protocol => 0x02
  | .truncatedStream => 0x03
  | .corruptHeader => 0x04
  | .illegalCmd => 0x05
  | .sequence => 0x06
  | .countOverflow => 0x07
  | .badPath => 0x08
  | .cmdOverrun => 0x09

/-- The number of a decoder state in STATUS.DEC_STATE (R34, R39). -/
def decNumber : DecState → BitVec 2
  | .idle => 0
  | .run => 1
  | .eos => 2

/-- STATUS.FAULT reads 1 exactly when ERR ≠ 0 (R40). -/
def inFault (s : State) : Bool := decide (s.err ≠ .noFault)

/-- STATUS.OUT_VALID reads 1 exactly when OUT_LEVEL > 0 (R41). -/
def outValid (s : State) : Bool := decide (0 < s.outFifo.length)

/-- STATUS.OUT_LEVEL, the number of bytes in the output FIFO (R41; in states no run reaches: log 13). -/
def outLevel (s : State) : BitVec 16 := BitVec.ofNat 16 s.outFifo.length

/-- The STATUS register (R34), high field first. -/
def statusWord (s : State) : Word :=
  outLevel s ++ errNumber s.err ++ BitVec.ofBool (outValid s) ++ BitVec.ofBool (inFault s)
    ++ decNumber s.decState ++ BitVec.ofBool s.encActive ++ BitVec.ofBool s.codesValid
    ++ BitVec.ofBool s.treeValid ++ BitVec.ofBool s.busy

/-- Neither an encode nor a decode is open. -/
def noneOpen (s : State) : Bool := !s.encActive && decide (s.decState = .idle)

/-- phase_ok (R130). -/
def phaseOk : Instr → State → Bool
  | .nop, _ => true
  | .softReset, _ => true
  | .freqRead _, _ => true
  | .freqClear, s => noneOpen s
  | .anaByte _, s => noneOpen s
  | .anaEnd _, s => noneOpen s
  | .freqWrite _, s => noneOpen s
  | .buildTree, s => noneOpen s
  | .nodeRead _ _, s => s.treeValid
  | .genCodes, s => s.treeValid && noneOpen s
  | .codeLen _, s => s.codesValid
  | .codeBits _ _, s => s.codesValid
  | .encBegin, s => s.codesValid && noneOpen s
  | .encByte _, s => s.encActive
  | .encFinish, s => s.encActive
  | .decBegin, s => s.treeValid && noneOpen s
  | .decByte _, s => decide (s.decState ≠ .idle)
  | .decEnd, s => decide (s.decState ≠ .idle)

/-- Every command that writes FREQ also clears TREE_VALID and CODES_VALID (R190). -/
def clearTreeAndCodes (s : State) : State := { s with treeValid := false, codesValid := false }

/-- The interrupt line, a level function of the state (R360). -/
def irq (s : State) : Bool :=
  (s.errIe && inFault s) || (s.eosIe && decide (s.decState = .eos))

end Sys2Proof.Machine
end

