-- ==== Sys2Proof/Machine/Ops.lean ====
section
/-! DEFINITION. The operations every command shares: taking a fault (60_exceptions.md R345), leaving
the FAULT state (40_control.md R167), the core step's commit, hold and fault (R161 to R163), and reads
and writes of the internal memories. -/

namespace Sys2Proof.Machine

/-- How a command's pseudocode ends early. -/
inductive Abort where
  /-- `raise Fault(code, info)` (00_scope.md R13): the block takes the fault. -/
  | raise (code : ErrCode) (info : Word)
  /-- The model stops (log 4): the pseudocode follows an index the spec says no command reaches. -/
  | stop (f : Fault)
deriving DecidableEq, Repr

/-- What a command's pseudocode gives: the new state and the bytes of push_out in order, or an early
end (R14, R161). -/
abbrev Effect := Except Abort (State × List Byte)

/-- take_fault (R345): the first fault is recorded, the FIFO is emptied, the command is dropped.
Nothing else changes, and control goes nowhere. -/
def takeFault (code : ErrCode) (info w : Word) (s : State) : State :=
  if s.err = .noFault then
    { s with err := code, errCmd := w, errInfo := info, outFifo := [], busy := false }
  else { s with outFifo := [], busy := false }

/-- A fault raised by the pending command: ERR_CMD takes PEND_CMD (R342, R345). -/
def commandFault (code : ErrCode) (info : Word) (s : State) : State :=
  takeFault code info s.pendCmd s

/-- The pending word is illegal (R127, R128, R129): ILLEGAL_CMD with ERR_INFO 0 (R342). -/
def illegalCommand (s : State) : State := commandFault .illegalCmd 0 s

/-- Everything SOFT_RESET resets, the only way out of the FAULT state short of hardware reset (R61,
R167, R349): the column "after SOFT_RESET" of R61, which keeps INT_EN and, other than R167's pseudocode,
names PEND_CMD and PEND_ARG (DEDUCED, log 5). What stands outside the block
(the reset input, the turns to come, what the host has read) is not its concern. -/
def softResetState (s : State) : State :=
  { State.resetWith s.config with
    errIe := s.errIe, eosIe := s.eosIe
    resetIn := s.resetIn, schedule := s.schedule, readLog := s.readLog }

/-- Hardware reset (R61, R380): acts at once and as a whole; the input stays asserted until released
(DEDUCED, log 8). The turns to come and what the host has read stand outside the block. -/
def hardResetState (s : State) : State :=
  { State.resetWith s.config with schedule := s.schedule, readLog := s.readLog, resetIn := true }

/-- Room in the output FIFO (R163): OFIFO_DEPTH − OUT_LEVEL (in states no run reaches: log 13). -/
def room (s : State) : Nat := s.config.ofifoDepth.toNat - s.outFifo.length

/-- The end of a core step (R161): a fault is taken on the original state; a command whose bytes do
not fit is held, and takes no step (R163; DESIGN CHOICE, log 11: its turn answers the same state); any other command commits its writes, pushes its bytes and
clears BUSY. -/
def finish (s : State) : Effect → Host.Outcome State Fault Refusal
  | .error (.raise code info) => .next (commandFault code info s)
  | .error (.stop f) => .fault f
  | .ok (s', pushed) =>
    if pushed.length ≤ room s then
      .next { s' with outFifo := s'.outFifo ++ pushed, busy := false }
    else .next s

/-- A core step of a command (R127, R161): its phase check, then its pseudocode. Whether the core has a
step at all is coreTurn's concern (DESIGN CHOICE, log 10). -/
def runCommand (i : Instr) (effect : State → Effect) (s : State) :
    Host.Outcome State Fault Refusal :=
  if phaseOk i s then finish s (effect s) else .next (commandFault .sequence 0 s)

/-- A core step of a command with a SYM operand: its range is checked first (R129, R344). -/
def runSymCommand (i : Instr) (sym : BitVec 9) (effect : Fin 257 → State → Effect) (s : State) :
    Host.Outcome State Fault Refusal :=
  match symIndex sym with
  | some e => runCommand i (effect e) s
  | none => .next (illegalCommand s)

/-- A core step of a command with an IDX operand: its range is checked first (R129, R344). -/
def runIdxCommand (i : Instr) (idx : BitVec 10) (effect : Fin 513 → State → Effect) (s : State) :
    Host.Outcome State Fault Refusal :=
  match nodeIndex idx with
  | some e => runCommand i (effect e) s
  | none => .next (illegalCommand s)

/-- FREQ[i] <- v, with the flag writes of every FREQ write (R190). -/
def writeFreq (i : Fin 257) (v : Word) (s : State) : State :=
  clearTreeAndCodes { s with freq := s.freq.set i.val v }

/-- RESULT <- v, the one write of a read-type command (R45). -/
def writeResult (v : Word) (s : State) : State := { s with result := v }

end Sys2Proof.Machine
end

