-- ==== Sys2Proof/Machine/Bus.lean ====
section
/-! DEFINITION. The register window and what the host and the platform do to the block (10_state.md
R31 to R52; 20_memory.md R80 to R85; 30_encoding.md R132, R133; 40_control.md R160;
70_reset_and_hazards.md R380, R386). -/

namespace Sys2Proof.Machine

/-- The registers of the window (R33). -/
inductive Reg where
  /-- 0x00. -/
  | id
  /-- 0x04. -/
  | status
  /-- 0x08. -/
  | cmd
  /-- 0x0C. -/
  | arg
  /-- 0x10. -/
  | result
  /-- 0x14. -/
  | outData
  /-- 0x18. -/
  | bitcntLo
  /-- 0x1C. -/
  | bitcntHi
  /-- 0x20. -/
  | errCmd
  /-- 0x24. -/
  | errInfo
  /-- 0x28. -/
  | intEn
  /-- 0x2C. -/
  | treeInfo
  /-- 0x30. -/
  | param
  /-- 0x34, 0x38 and 0x3C (R52). -/
  | reserved
deriving DecidableEq, Repr

/-- The register at a byte offset (R33). -/
def regAt : Nat → Option Reg
  | 0x00 => some .id
  | 0x04 => some .status
  | 0x08 => some .cmd
  | 0x0C => some .arg
  | 0x10 => some .result
  | 0x14 => some .outData
  | 0x18 => some .bitcntLo
  | 0x1C => some .bitcntHi
  | 0x20 => some .errCmd
  | 0x24 => some .errInfo
  | 0x28 => some .intEn
  | 0x2C => some .treeInfo
  | 0x30 => some .param
  | 0x34 => some .reserved
  | 0x38 => some .reserved
  | 0x3C => some .reserved
  | _ => none

/-- The word OUT_DATA reads (R46): VALID in bit [8] and the head byte, or 0 when the FIFO is empty. -/
def outDataWord : List Byte → Word
  | [] => 0
  | b :: _ => 0#23 ++ 1#1 ++ b

/-- The value a register reads (R31 to R52). CMD reads 0 (R43), as the reserved offsets do (R52). -/
def regValue (s : State) : Reg → Word
  | .id => 0x48554646
  | .status => statusWord s
  | .cmd => 0
  | .arg => s.arg
  | .result => s.result
  | .outData => outDataWord s.outFifo
  | .bitcntLo => s.bitcnt.extractLsb' 0 32
  | .bitcntHi => s.bitcnt.extractLsb' 32 32
  | .errCmd => s.errCmd
  | .errInfo => s.errInfo
  | .intEn => 0#30 ++ BitVec.ofBool s.eosIe ++ BitVec.ofBool s.errIe
  | .treeInfo => 0#6 ++ s.root ++ 0#6 ++ s.nodeCount
  | .param => 0#7 ++ 256#9 ++ s.config.ofifoDepth
  | .reserved => 0

/-- The side effect of reading a register (R85): only OUT_DATA has one, it removes the head byte of
the FIFO (R46). -/
def readEffect (r : Reg) (s : State) : State :=
  match r with
  | .outData => { s with outFifo := s.outFifo.tail }
  | _ => s

/-- Latch a command (R160): PEND_CMD, PEND_ARG and BUSY. -/
def latchCommand (w : Word) (s : State) : State :=
  { s with pendCmd := w, pendArg := s.arg, busy := true }

/-- The word the FAULT state accepts: SOFT_RESET, exact (R160, R347). -/
def softResetWord : Word := 0x01000000

/-- A write of CMD (R160): an overrun while BUSY (R350), discarded in the FAULT state unless it is
SOFT_RESET (R347), else latched. -/
def issue (w : Word) (s : State) : State :=
  if s.busy then takeFault .cmdOverrun 0 w s
  else if inFault s then if w = softResetWord then latchCommand w s else s
  else latchCommand w s

/-- A write of a register (R33, R85): CMD issues, ARG and INT_EN are set, any other write has no
effect. -/
def writeReg (r : Reg) (w : Word) (s : State) : State :=
  match r with
  | .cmd => issue w s
  | .arg => { s with arg := w }
  | .intEn => { s with errIe := w.getLsbD 0, eosIe := w.getLsbD 1 }
  | _ => s

/-- The register a bus access reaches, or why the model refuses it: an offset outside the window is
not the block's (R83), an access must be 32 bits wide and aligned (R81), and no access is answered
while the reset input is asserted (R380). The order of the checks is DESIGN CHOICE (log 7). -/
def busTarget (size : AccessSize) (off : Nat) (s : State) : Except Refusal Reg :=
  if 0x40 ≤ off then .error .outsideWindow
  else if size ≠ .bits32 then .error .subWordAccess
  else
    match regAt off with
    | none => .error .misalignedAccess
    | some r => if s.resetIn then .error .accessDuringReset else .ok r

/-- Note in the model's log what a read returned (log 3). -/
def logRead (off : Nat) (data : Word) (s : State) : State :=
  { s with readLog := s.readLog ++ [{ off := off, data := data }] }

/-- BusRead(off) (R80): the word is returned and the read's side effect happens, as one. -/
def busRead (size : AccessSize) (off : Nat) (s : State) : Except Refusal (Word × State) :=
  match busTarget size off s with
  | .error r => .error r
  | .ok r => .ok (regValue s r, logRead off (regValue s r) (readEffect r s))

/-- BusWrite(off, w) (R80). -/
def busWrite (size : AccessSize) (off : Nat) (w : Word) (s : State) : Except Refusal State :=
  match busTarget size off s with
  | .error r => .error r
  | .ok r => .ok (writeReg r w s)

/-- Read a register and let the host's loop decide from the word read what it does next: those turns
come before the ones already there. -/
def readThen (off : Nat) (next : Word → List Turn) (s : State) : Host.Outcome State Fault Refusal :=
  match busRead .bits32 off s with
  | .error r => .refused r
  | .ok (w, s') => .next { s' with schedule := next w ++ s'.schedule }

/-- After WAIT reads STATUS (R132): while BUSY it polls again, and the core has a turn in between. -/
def waitTurns (status : Word) : List Turn :=
  if status.getLsbD 0 then [.core, .host .wait] else []

/-- After DRAIN reads OUT_DATA (R133): it reads again while VALID. -/
def drainTurns (word : Word) : List Turn := if word.getLsbD 8 then [.host .drain] else []

/-- After the safe wait reads STATUS (R386, program P7): pop when OUT_VALID, and go round again while
BUSY; the core has a turn in between. Both bits are taken from the one word read, as P7's listing does;
R386's loop and P7's narration can be read as a fresh read of STATUS after the pop (DESIGN CHOICE,
log 15). -/
def safeWaitTurns (status : Word) : List Turn :=
  (if status.getLsbD 7 then [.host (.read .bits32 0x14)] else [])
    ++ (if status.getLsbD 0 then [.core, .host .safeWait] else [])

/-- One host operation, or one event at the reset input (R94, R100, R380). -/
def hostTurn (op : HostOp) (s : State) : Host.Outcome State Fault Refusal :=
  match op with
  | .read size off =>
    match busRead size off s with
    | .error r => .refused r
    | .ok (_, s') => .next s'
  | .write size off w =>
    match busWrite size off w s with
    | .error r => .refused r
    | .ok s' => .next s'
  | .wait => readThen 0x04 waitTurns s
  | .drain => readThen 0x14 drainTurns s
  | .safeWait => readThen 0x04 safeWaitTurns s
  | .assertReset => .next (hardResetState s)
  | .releaseReset => .next { s with resetIn := false }

end Sys2Proof.Machine
end

