-- ==== Sys2Proof/Machine/Codes.lean ====
section
/-! DEFINITION. The code table generator (43_codes.md R250 to R254). -/

namespace Sys2Proof.Machine

/-- The code table (R56): CODE_LEN and CODE. -/
structure CodeTable where
  /-- CODE_LEN[0..256]. -/
  len : Vector (BitVec 9) 257
  /-- CODE[0..256]. -/
  code : Vector (BitVec 256) 257
deriving DecidableEq, Repr

/-- No symbol has a code (R250). -/
def emptyCodes : CodeTable :=
  { len := Vector.replicate 257 0, code := Vector.replicate 257 0 }

/-- Record a path as the code of a symbol (R250). -/
def recordCode (i : Fin 257) (path : Bits) (t : CodeTable) : CodeTable :=
  { len := t.len.set i.val (BitVec.ofNat 9 path.length)
    code := t.code.set i.val (packMsb 256 path) }

/-- walk (R250), the zero-child before the one-child. The first argument bounds the depth: a path of
more than 256 bits has no code (R56), and the model stops there (log 4). -/
def walk (arena : Vector Node 513) : Nat → BitVec 10 → Bits → CodeTable → Except Abort CodeTable
  | 0, _, _, _ => .error (.stop .codeTooLong)
  | depth + 1, i, path, t =>
    if i = nilIdx then .ok t
    else
      match nodeAt arena i with
      | none => .error (.stop .noSuchNode)
      | some e =>
        if e.leaf then
          match symIndex e.sym with
          | some sym => .ok (recordCode sym path t)
          | none => .error (.stop .noSuchSymbol)
        else
          match walk arena depth e.zero (path ++ [false]) t with
          | .error a => .error a
          | .ok t' => walk arena depth e.one (path ++ [true]) t'

/-- generate (R250): every entry cleared, then the walk from the root. Paths of 0 to 256 bits are 257
depths. -/
def codesOf (arena : Vector Node 513) (root : BitVec 10) : Except Abort CodeTable :=
  walk arena 257 root [] emptyCodes

/-- The pseudocode of GEN_CODES (R250, R251). -/
def genCodes (s : State) : Effect :=
  match codesOf s.node s.root with
  | .error a => .error a
  | .ok t => .ok ({ s with codeLen := t.len, code := t.code, codesValid := true }, [])

/-- GEN_CODES (R251). -/
def execGenCodes (s : State) : Host.Outcome State Fault Refusal :=
  runCommand .genCodes genCodes s

/-- CODE_LEN (R253). -/
def execCodeLen (sym : BitVec 9) (s : State) : Host.Outcome State Fault Refusal :=
  runSymCommand (.codeLen sym) sym
    (fun i s => .ok (writeResult (s.codeLen[i].zeroExtend 32) s, [])) s

/-- CODE_BITS (R254). -/
def execCodeBits (sym : BitVec 9) (k : BitVec 3) (s : State) : Host.Outcome State Fault Refusal :=
  runSymCommand (.codeBits sym k) sym
    (fun i s => .ok (writeResult (codeChunk (codeOf s i) k) s, [])) s

end Sys2Proof.Machine
end

