-- ==== Sys2Proof/Machine/Decoder.lean ====
section
/-! DEFINITION. The decoder (45_decoder.md R310 to R315). -/

namespace Sys2Proof.Machine

/-- The tree walk of one DEC_BYTE: the state it writes and the bytes it pushes (R310). -/
structure TreeWalk where
  /-- DEC_CUR. -/
  cur : BitVec 10
  /-- BITCNT. -/
  bitcnt : BitVec 64
  /-- STATUS.DEC_STATE. -/
  state : DecState
  /-- The bytes of push_out, oldest first. -/
  out : List Byte
deriving DecidableEq, Repr

/-- The child a bit chooses (R310). -/
def childOf (e : Node) (x : Bool) : BitVec 10 := if x then e.one else e.zero

/-- ERR_INFO of BAD_PATH (R310, R342). -/
def badPathInfo (bitno : BitVec 3) (cur : BitVec 10) : Word := 0#13 ++ bitno ++ 0#6 ++ cur

/-- The cursor arrives at a node (R310): a leaf ends a symbol and sends the cursor back to the root. -/
def arrive (root nxt : BitVec 10) (e : Node) (w : TreeWalk) : TreeWalk :=
  if e.leaf then
    if e.sym = eofSym then { w with bitcnt := w.bitcnt + 1, state := .eos, cur := root }
    else { w with bitcnt := w.bitcnt + 1, out := w.out ++ [e.sym.extractLsb' 0 8], cur := root }
  else { w with bitcnt := w.bitcnt + 1, cur := nxt }

/-- take_bit (R310). -/
def takeBit (arena : Vector Node 513) (root : BitVec 10) (bitno : BitVec 3) (x : Bool)
    (w : TreeWalk) : Except Abort TreeWalk :=
  match nodeAt arena w.cur with
  | none => .error (.stop .noSuchNode)
  | some here =>
    if childOf here x = nilIdx then .error (.raise .badPath (badPathInfo bitno w.cur))
    else
      match nodeAt arena (childOf here x) with
      | none => .error (.stop .noSuchNode)
      | some e => .ok (arrive root (childOf here x) e w)

/-- The loop of DEC_BYTE (R312): bits in order, none taken once DEC_STATE is EOS (R313). -/
def takeBits (arena : Vector Node 513) (root : BitVec 10) :
    List (BitVec 3 × Bool) → TreeWalk → Except Abort TreeWalk
  | [], w => .ok w
  | (bitno, x) :: rest, w =>
    if w.state = .eos then .ok w
    else
      match takeBit arena root bitno x w with
      | .error a => .error a
      | .ok w' => takeBits arena root rest w'

/-- DEC_BEGIN (R311): the FIFO is not emptied. -/
def execDecBegin (s : State) : Host.Outcome State Fault Refusal :=
  runCommand .decBegin
    (fun s => .ok ({ s with decCur := s.root, bitcnt := 0, decState := .run }, [])) s

/-- The walk of a DEC_BYTE, begun in a state. -/
def walkStart (s : State) : TreeWalk :=
  { cur := s.decCur, bitcnt := s.bitcnt, state := s.decState, out := [] }

/-- The pseudocode of DEC_BYTE (R312). -/
def decodeByte (byte : Byte) (s : State) : Effect :=
  match takeBits s.node s.root (operandBits byte) (walkStart s) with
  | .error a => .error a
  | .ok w => .ok ({ s with decCur := w.cur, bitcnt := w.bitcnt, decState := w.state }, w.out)

/-- DEC_BYTE (R312). -/
def execDecByte (byte : Byte) (s : State) : Host.Outcome State Fault Refusal :=
  runCommand (.decByte byte) (decodeByte byte) s

/-- The pseudocode of DEC_END (R315): TRUNCATED_STREAM when the EOF leaf was not reached. -/
def endDecode (s : State) : Effect :=
  if s.decState = .run then .error (.raise .truncatedStream (s.decCur.zeroExtend 32))
  else .ok ({ s with decState := .idle }, [])

/-- DEC_END (R315). -/
def execDecEnd (s : State) : Host.Outcome State Fault Refusal :=
  runCommand .decEnd endDecode s

end Sys2Proof.Machine
end

