-- ==== Sys2Proof/Machine/Encoder.lean ====
section
/-! DEFINITION. The encoder (44_encoder.md R280 to R283). -/

namespace Sys2Proof.Machine

/-- The bit packer at work (R280): the bits pending and the bytes pushed so far. -/
structure Packer where
  /-- ENC_PEND. -/
  pend : Bits
  /-- The bytes of push_out, oldest first. -/
  out : List Byte
deriving DecidableEq, Repr

/-- Append one bit (R280): a byte is pushed whenever 8 bits are pending. -/
def putBit (k : Packer) (b : Bool) : Packer :=
  if k.pend.length + 1 = 8 then { pend := [], out := k.out ++ [packMsb 8 (k.pend ++ [b])] }
  else { k with pend := k.pend ++ [b] }

/-- put_bits (R280), but for BITCNT. -/
def putBits (k : Packer) (p : Bits) : Packer := p.foldl putBit k

/-- flush (R280): pending bits are padded with zeros and pushed. -/
def flush (k : Packer) : Packer :=
  if 0 < k.pend.length then { pend := [], out := k.out ++ [packMsb 8 k.pend] } else k

/-- Append a code to the open encode (R280): the new state and the packer's bytes. BITCNT counts the
code's bits modulo 2^64. -/
def appendCode (code : Bits) (s : State) : State × Packer :=
  ({ s with bitcnt := s.bitcnt + BitVec.ofNat 64 code.length },
   putBits { pend := encPend s, out := [] } code)

/-- ENC_BEGIN (R281): the FIFO is not emptied. -/
def execEncBegin (s : State) : Host.Outcome State Fault Refusal :=
  runCommand .encBegin
    (fun s => .ok (setEncPend [] { s with bitcnt := 0, encActive := true }, [])) s

/-- The pseudocode of ENC_BYTE (R282): PROTOCOL when the byte has no code. -/
def encodeByte (byte : Byte) (s : State) : Effect :=
  if s.codeLen[byteIndex byte] = 0 then .error (.raise .protocol (byte.zeroExtend 32))
  else
    match appendCode (codeOf s (byteIndex byte)) s with
    | (s', k) => .ok (setEncPend k.pend s', k.out)

/-- ENC_BYTE (R282). -/
def execEncByte (byte : Byte) (s : State) : Host.Outcome State Fault Refusal :=
  runCommand (.encByte byte) (encodeByte byte) s

/-- The pseudocode of ENC_FINISH (R283): EOF's code, the padding, and the encode is closed; PROTOCOL
when EOF has no code. -/
def finishEncode (s : State) : Effect :=
  if s.codeLen[eofIndex] = 0 then .error (.raise .protocol 0x00000100)
  else
    match appendCode (codeOf s eofIndex) s with
    | (s', k) =>
      .ok (setEncPend (flush k).pend { s' with encActive := false }, (flush k).out)

/-- ENC_FINISH (R283). -/
def execEncFinish (s : State) : Host.Outcome State Fault Refusal :=
  runCommand .encFinish finishEncode s

end Sys2Proof.Machine
end

