-- ==== Sys2Proof/Machine/Frequency.lean ====
section
/-! DEFINITION. The frequency analyzer's commands (41_frequency.md R190 to R195). -/

namespace Sys2Proof.Machine

/-- FREQ_CLEAR (R191): every count 0. -/
def execFreqClear (s : State) : Host.Outcome State Fault Refusal :=
  runCommand .freqClear
    (fun s => .ok (clearTreeAndCodes { s with freq := Vector.replicate 257 0 }, [])) s

/-- The pseudocode of ANA_BYTE (R192): count one byte, COUNT_OVERFLOW on a full count. -/
def countByte (byte : Byte) (s : State) : Effect :=
  if s.freq[byteIndex byte] = 0xFFFFFFFF then
    .error (.raise .countOverflow (byte.zeroExtend 32))
  else .ok (writeFreq (byteIndex byte) (s.freq[byteIndex byte] + 1) s, [])

/-- ANA_BYTE (R192). -/
def execAnaByte (byte : Byte) (s : State) : Host.Outcome State Fault Refusal :=
  runCommand (.anaByte byte) (countByte byte) s

/-- ANA_END (R193): with F = 1 the EOF count becomes 1; the flags are cleared either way. -/
def execAnaEnd (appendEof : Bool) (s : State) : Host.Outcome State Fault Refusal :=
  runCommand (.anaEnd appendEof)
    (fun s => .ok (if appendEof then writeFreq eofIndex 1 s else clearTreeAndCodes s, [])) s

/-- FREQ_WRITE (R194): the count is the ARG value sampled at issue. -/
def execFreqWrite (sym : BitVec 9) (s : State) : Host.Outcome State Fault Refusal :=
  runSymCommand (.freqWrite sym) sym (fun i s => .ok (writeFreq i s.pendArg s, [])) s

/-- FREQ_READ (R195). -/
def execFreqRead (sym : BitVec 9) (s : State) : Host.Outcome State Fault Refusal :=
  runSymCommand (.freqRead sym) sym (fun i s => .ok (writeResult s.freq[i] s, [])) s

end Sys2Proof.Machine
end

