-- ==== Sys2Proof/Machine/Sequencer.lean ====
section
/-! DEFINITION. The sequencer commands NOP and SOFT_RESET (40_control.md R166, R167). -/

namespace Sys2Proof.Machine

/-- NOP (R166): no effect but the end of the command. -/
def execNop (s : State) : Host.Outcome State Fault Refusal :=
  runCommand .nop (fun s => .ok (s, [])) s

/-- SOFT_RESET (R167, R61). -/
def execSoftReset (s : State) : Host.Outcome State Fault Refusal :=
  runCommand .softReset (fun s => .ok (softResetState s, [])) s

end Sys2Proof.Machine
end

