-- ==== Sys2Proof/Machine/Tree.lean ====
section
/-! DEFINITION. The tree builder (42_tree.md R220 to R226): the leaves in symbol order, the repeated
combination of the two lowest nodes, the single-symbol wrapper, and the commands BUILD_TREE and
NODE_READ. The nodes made so far are a list, so a node's arena index is its place in the list, which is
its order of creation (R222). -/

namespace Sys2Proof.Machine

/-- The leaf of a symbol and its count (R221). -/
def leafNode (sym : Nat) (count : Word) : Node :=
  { leaf := true, sym := BitVec.ofNat 9 sym, weight := count.zeroExtend 41, zero := nilIdx, one := nilIdx }

/-- The leaves of the symbols from `sym` on whose counts are given, in ascending symbol order (R222);
a count of 0 is an absent symbol (R53). -/
def leavesFrom : Nat → List Word → List Node
  | _, [] => []
  | sym, count :: counts =>
    if count = 0 then leavesFrom (sym + 1) counts
    else leafNode sym count :: leavesFrom (sym + 1) counts

/-- The leaves of a frequency table (R221, R222). -/
def leaves (freq : Vector Word 257) : List Node := leavesFrom 0 freq.toList

/-- The weight of the node at an index. -/
def weightAt (nodes : List Node) (i : Nat) : BitVec 41 := (nodes.getD i Node.unused).weight

/-- Node i is lower than node j (R220): the smaller weight first, then the smaller index. -/
def lower (nodes : List Node) (i j : Nat) : Bool :=
  decide (weightAt nodes i < weightAt nodes j ∨ (weightAt nodes i = weightAt nodes j ∧ i < j))

/-- The lowest of `best` and the indices of the list (R220). -/
def lowest (nodes : List Node) : Nat → List Nat → Nat
  | best, [] => best
  | best, i :: rest => lowest nodes (if lower nodes i best then i else best) rest

/-- An internal node over two others (R221): weight the sum, the first removed the zero-child. -/
def internalNode (nodes : List Node) (first second : Nat) : Node :=
  { leaf := false, sym := internalMarker,
    weight := weightAt nodes first + weightAt nodes second,
    zero := BitVec.ofNat 10 first, one := BitVec.ofNat 10 second }

/-- One turn of the while loop of R221: remove the two lowest nodes of the pool, add the node over
them. None when the pool holds fewer than two. -/
def combine (nodes : List Node) : List Nat → Option (List Node × List Nat)
  | [] => none
  | p :: pool =>
    let first := lowest nodes p pool
    match (p :: pool).erase first with
    | [] => none
    | q :: rest =>
      let second := lowest nodes q rest
      some (nodes ++ [internalNode nodes first second],
            (q :: rest).erase second ++ [nodes.length])

/-- The while loop of R221. Each turn makes the pool smaller by one, so as many turns as the pool has
nodes are enough. -/
def combineAll : Nat → List Node → List Nat → List Node
  | 0, nodes, _ => nodes
  | turns + 1, nodes, pool =>
    match combine nodes pool with
    | none => nodes
    | some (nodes', pool') => combineAll turns nodes' pool'

/-- The wrapper of a single-symbol alphabet (R223): the leaf as zero-child, no one-child. -/
def wrapperNode (leaf : Node) : Node :=
  { leaf := false, sym := internalMarker, weight := leaf.weight, zero := 0, one := nilIdx }

/-- Every node of the tree of a table's leaves, in arena order (R221). -/
def treeNodes : List Node → List Node
  | [] => []
  | [leaf] => [leaf, wrapperNode leaf]
  | l0 :: l1 :: rest =>
    combineAll (rest.length + 2) (l0 :: l1 :: rest) (List.range (rest.length + 2))

/-- The arena that holds these nodes from index 0 on, every other entry unused (R221). -/
def arenaOf (nodes : List Node) : Vector Node 513 :=
  Vector.ofFn fun i => nodes.getD i.val Node.unused

/-- What BUILD_TREE writes: NODE and TREE_INFO. -/
structure BuiltTree where
  /-- NODE[0..512]. -/
  node : Vector Node 513
  /-- TREE_INFO.NODE_COUNT. -/
  nodeCount : BitVec 10
  /-- TREE_INFO.ROOT. -/
  root : BitVec 10
deriving DecidableEq, Repr

/-- The tree of a frequency table, none when every count is 0 (R221). It is a function of FREQ alone
(R229). -/
def treeOf (freq : Vector Word 257) : Option BuiltTree :=
  let nodes := treeNodes (leaves freq)
  if nodes = [] then none
  else some { node := arenaOf nodes, nodeCount := BitVec.ofNat 10 nodes.length,
              root := BitVec.ofNat 10 (nodes.length - 1) }

/-- The pseudocode of BUILD_TREE (R221, R224). -/
def buildTree (s : State) : Effect :=
  match treeOf s.freq with
  | none => .error (.raise .invalidInput 0)
  | some t =>
    .ok ({ s with node := t.node, nodeCount := t.nodeCount, root := t.root,
                  treeValid := true, codesValid := false }, [])

/-- BUILD_TREE (R224). -/
def execBuildTree (s : State) : Host.Outcome State Fault Refusal :=
  runCommand .buildTree buildTree s

/-- NODE_READ (R226). -/
def execNodeRead (idx : BitVec 10) (fsel : BitVec 2) (s : State) :
    Host.Outcome State Fault Refusal :=
  runIdxCommand (.nodeRead idx fsel) idx
    (fun i s => .ok (writeResult (nodeField s.node[i] fsel) s, [])) s

end Sys2Proof.Machine
end

