-- ==== Sys2Proof/Machine/Dispatch.lean ====
section
/-! DEFINITION. The core step of each command: one arm per constructor of Instr. -/

namespace Sys2Proof.Machine

def exec (i : Instr) (s : State) : Host.Outcome State Fault Refusal :=
  match i with
  | .nop => Sys2Proof.Machine.execNop s
  | .softReset => Sys2Proof.Machine.execSoftReset s
  | .freqClear => Sys2Proof.Machine.execFreqClear s
  | .anaByte byte => Sys2Proof.Machine.execAnaByte byte s
  | .anaEnd appendEof => Sys2Proof.Machine.execAnaEnd appendEof s
  | .freqWrite sym => Sys2Proof.Machine.execFreqWrite sym s
  | .freqRead sym => Sys2Proof.Machine.execFreqRead sym s
  | .buildTree => Sys2Proof.Machine.execBuildTree s
  | .nodeRead idx fsel => Sys2Proof.Machine.execNodeRead idx fsel s
  | .genCodes => Sys2Proof.Machine.execGenCodes s
  | .codeLen sym => Sys2Proof.Machine.execCodeLen sym s
  | .codeBits sym k => Sys2Proof.Machine.execCodeBits sym k s
  | .encBegin => Sys2Proof.Machine.execEncBegin s
  | .encByte byte => Sys2Proof.Machine.execEncByte byte s
  | .encFinish => Sys2Proof.Machine.execEncFinish s
  | .decBegin => Sys2Proof.Machine.execDecBegin s
  | .decByte byte => Sys2Proof.Machine.execDecByte byte s
  | .decEnd => Sys2Proof.Machine.execDecEnd s

end Sys2Proof.Machine
end

