-- ==== Sys2Proof/Machine/Step.lean ====
section
/-! DEFINITION. One step of the machine (20_memory.md R94; 40_control.md R161; 70_reset_and_hazards.md
R392): the next turn of the schedule, or the core's when the schedule is empty. -/

namespace Sys2Proof.Machine

/-- The core's turn (R127, R161): with a command pending, decode and run it; without one, nothing
(R368). -/
def coreTurn (s : State) : Host.Outcome State Fault Refusal :=
  if s.busy then
    match decode s.pendCmd with
    | .ok i => exec i s
    | .error _ => .next (illegalCommand s)
  else .next s

/-- One step (R94): one host operation or one turn of the core. Which of the two comes next is in
`schedule` (DESIGN CHOICE, log 2); with no turn left the core steps (R392; DESIGN CHOICE, log 14). -/
def step (s : State) : Host.Outcome State Fault Refusal :=
  match s.schedule with
  | [] => coreTurn s
  | .core :: rest => coreTurn { s with schedule := rest }
  | .host op :: rest => hostTurn op { s with schedule := rest }

/-- The next turn given to the core, and the turns to come kept. -/
def coreFirst : List Turn → List Turn
  | [] => []
  | turn :: rest => .core :: turn :: rest

/-- The state in which the very next step runs the command word whose low nbits bits are w: it is
latched as a CMD write latches it (R160), and the core has the next turn. It stands for the host's write
of CMD (DESIGN CHOICE, log 9). -/
def State.withFetchWord (s : State) (nbits w : Nat) : State :=
  { latchCommand (tableWord nbits w) s with resetIn := false, schedule := coreFirst s.schedule }

end Sys2Proof.Machine
end

