-- ==== Sys2Proof/Safety.lean ====
section
/-! DEFINITION. What the claims speak of: the block's invariant (10_state.md R63 with the widths and
meanings of R36, R37, R55 to R57), the states a run reaches, the state after a fault, and the states in
which the block waits (70_reset_and_hazards.md R394). -/

namespace Sys2Proof.Machine

/-- DEC_CUR stands on an internal entry of the tree (45_decoder.md R310: "DEC_CUR is always an internal
node"). -/
def CursorOnInternal (s : State) : Prop :=
  ∃ e, nodeAt s.node s.decCur = some e ∧ e.leaf = false ∧ s.decCur.toNat < s.nodeCount.toNat

/-- The invariant of the block. Its tree clauses say that TREE_VALID and CODES_VALID mean what R36 and
R37 say; the shape of the tree (R63 items 1 to 3) then follows from what BUILD_TREE builds. -/
structure State.Inv (s : State) : Prop where
  /-- OFIFO_DEPTH is at least 33 (R8). -/
  depth_legal : s.config.legal = true
  /-- The FIFO holds at most OFIFO_DEPTH bytes (R55). -/
  fifo_fits : s.outFifo.length ≤ s.config.ofifoDepth.toNat
  /-- CORRUPT_HEADER is never raised (R341). -/
  err_raised : s.err ≠ .corruptHeader
  /-- CODES_VALID implies TREE_VALID (R63 item 4). -/
  codes_need_tree : s.codesValid = true → s.treeValid = true
  /-- ENC_ACTIVE implies CODES_VALID and DEC_STATE = IDLE (R63 item 5). -/
  enc_needs_codes : s.encActive = true → s.codesValid = true ∧ s.decState = .idle
  /-- DEC_STATE ≠ IDLE implies TREE_VALID and not ENC_ACTIVE (R63 item 6). -/
  dec_needs_tree : s.decState ≠ .idle → s.treeValid = true ∧ s.encActive = false
  /-- TREE_VALID: NODE and TREE_INFO hold the tree of the present FREQ (R36). -/
  tree_is_built : s.treeValid = true →
    treeOf s.freq = some { node := s.node, nodeCount := s.nodeCount, root := s.root }
  /-- CODES_VALID: CODE_LEN and CODE hold the code table of the present tree (R37). -/
  codes_are_generated : s.codesValid = true →
    codesOf s.node s.root = .ok { len := s.codeLen, code := s.code }
  /-- An open decode's cursor stands on an internal entry (R310). -/
  cursor_on_internal : s.decState ≠ .idle → CursorOnInternal s
  /-- NODE and TREE_INFO, stale or not, hold a tree some BUILD_TREE built, or are as reset leaves them
  (R51, R54, R230). -/
  arena_built :
    (s.nodeCount = 0 ∧ s.root = 0 ∧ ∀ i : Fin 513, s.node[i] = Node.unused) ∨
    ∃ freq, treeOf freq = some { node := s.node, nodeCount := s.nodeCount, root := s.root }
  /-- A code has at most 256 bits (R56). -/
  code_len_bound : ∀ i : Fin 257, s.codeLen[i].toNat ≤ 256
  /-- The bits of CODE past the length are 0 (R56). -/
  code_padded : ∀ i : Fin 257, s.code[i] = packMsb 256 (codeOf s i)
  /-- The bits of ENC_ACC past the length are 0 (R280). -/
  acc_padded : s.encAcc = packMsb 7 (encPend s)
  /-- In the FAULT state only SOFT_RESET can be pending (R347, R351). -/
  fault_pending : s.err ≠ .noFault → s.busy = true → s.pendCmd = 0x01000000
  /-- While the reset input is asserted no command is pending (R380). -/
  reset_idle : s.resetIn = true → s.busy = false

/-- The states a run reaches (R94): from hardware reset of an implementation with a legal parameter,
by steps, whatever the host plans to do next. -/
inductive Reachable : State → Prop where
  /-- After hardware reset (R380). -/
  | reset (c : Config) (legal : c.legal = true) : Reachable (State.resetWith c)
  /-- The host may plan any operations (R100). -/
  | plan (s : State) (turns : List Turn) (h : Reachable s) : Reachable { s with schedule := turns }
  /-- One step. -/
  | step (s t : State) (h : Reachable s) (hs : step s = .next t) : Reachable t

/-- The state after the first fault, raised by the pending command (R345): only ERR, ERR_CMD, ERR_INFO,
the FIFO and BUSY change. -/
def faulted (code : ErrCode) (info : Word) (s : State) : State :=
  { s with err := code, errCmd := s.pendCmd, errInfo := info, outFifo := [], busy := false }

/-- Core steps of commands one after another; the host's issues between them are left out. -/
def runCommands : List Instr → State → Host.Outcome State Fault Refusal
  | [], s => .next s
  | i :: rest, s =>
    match exec i s with
    | .next t => runCommands rest t
    | .fault f => .fault f
    | .refused r => .refused r

/-- The same for a host that drains the FIFO after every command (R386 item 3): the last state, its FIFO
empty, and every byte the host popped, in order. -/
def runDrained : List Instr → State → List Byte → Host.Outcome (State × List Byte) Fault Refusal
  | [], s, popped => .next (s, popped)
  | i :: rest, s, popped =>
    match exec i s with
    | .next t => runDrained rest { t with outFifo := [] } (popped ++ t.outFifo)
    | .fault f => .fault f
    | .refused r => .refused r

/-- The block is quiescent when BUSY = 0 (R394). -/
def Quiescent (s : State) : Prop := s.busy = false

/-- The pending command is held: its bytes do not fit (R163, R394). -/
def Held (s : State) : Prop := s.busy = true ∧ coreTurn s = .next s

end Sys2Proof.Machine
end

