-- ==== Sys2Proof/Certificates/Slice0/Obligations.lean ====
section
/-! DEFINITION. The claims about the block, each with the rule of the spec it formalises. -/

open Sys2Proof Sys2Proof.Machine

/-! ## Encoding (30_encoding.md) -/

/-- Decoding an encoded well-formed command gives it back, with every operand (R122, R123, R125). -/
def Obligations.DecodeInvertsEncode : Prop :=
  ∀ i : Instr, i.wellFormed = true → decode (encode i) = .ok i

/-- Every word the decoder accepts is the encoding of the well-formed command it gives: no bit of the
word is dropped (R122, R128, R129). -/
def Obligations.EncodeInvertsDecode : Prop :=
  ∀ (w : Word) (i : Instr), decode w = .ok i → i.wellFormed = true ∧ encode i = w

/-- R125: a word selects a row when (w & mask) = match, and no two rows select the same word. A word
that selects a row, with its index operand in range, decodes to a command of that row. -/
def Obligations.WordsSelectRows : Prop :=
  (∀ w : Word, ∀ r ∈ opcodeMap, ∀ q ∈ opcodeMap,
    r.selects w = true → q.selects w = true → r = q) ∧
  (∀ w : Word, ∀ r ∈ opcodeMap, r.selects w = true → r.inRange w = true →
    ∃ i, decode w = .ok i ∧ mnemonicOf i = r.mnemonic)

/-- R128, R129: a word is illegal when it selects no row of the opcode map, or selects a row whose index
operand is out of range. -/
def IllegalWord (w : Word) : Prop :=
  (∀ r ∈ opcodeMap, r.selects w = false) ∨
  ∃ r ∈ opcodeMap, r.selects w = true ∧ r.inRange w = false

/-- R128, R129: an illegal word raises ILLEGAL_CMD when the core runs it, and no other state changes but
by the fault. The core runs it when no host operation is left, and when the schedule gives it a turn (the
schedule is the model's own, log 2). -/
def Obligations.IllegalWordsRaiseIllegalCmd : Prop :=
  (∀ s : State, s.schedule = [] → s.busy = true → s.err = .noFault → IllegalWord s.pendCmd →
    step s = .next (faulted .illegalCmd 0 s)) ∧
  (∀ (s : State) (rest : List Turn), s.schedule = .core :: rest → s.busy = true →
    s.err = .noFault → IllegalWord s.pendCmd →
    step s = .next (faulted .illegalCmd 0 { s with schedule := rest }))

/-- R134: the words of its table, legal and illegal. -/
def Obligations.TableWordsDecode : Prop :=
  decode 0x20000000 = .ok .buildTree ∧
  decode 0x11000061 = .ok (.anaByte 0x61) ∧
  decode 0x12000001 = .ok (.anaEnd true) ∧
  decode 0x13000100 = .ok (.freqWrite 256) ∧
  decode 0x32001061 = .ok (.codeBits 0x61 1) ∧
  decode 0x21003004 = .ok (.nodeRead 4 3) ∧
  decode 0x11000161 = .error .mbzBitSet ∧
  decode 0x13000101 = .error .symOutOfRange ∧
  decode 0x21000201 = .error .idxOutOfRange ∧
  decode 0x60000000 = .error .unassignedOpcode

/-! ## The command cycle (40_control.md) and the fault rule (60_exceptions.md) -/

/-- R161, R94: when it is the core's turn, whether no host operation is left or the schedule gives the
core a turn, and the pending word decodes to i, the step is the core step of i. -/
def Obligations.StepRunsPendingCommand : Prop :=
  (∀ (s : State) (i : Instr), s.schedule = [] → s.busy = true → decode s.pendCmd = .ok i →
    step s = exec i s) ∧
  (∀ (s : State) (i : Instr) (rest : List Turn), s.schedule = .core :: rest → s.busy = true →
    decode s.pendCmd = .ok i → step s = exec i { s with schedule := rest })

/-- R368, R394: a quiescent block does nothing in the core's turn. -/
def Obligations.QuiescentBlockIdles : Prop :=
  (∀ s : State, Quiescent s → s.schedule = [] → step s = .next s) ∧
  (∀ (s : State) (rest : List Turn), Quiescent s → s.schedule = .core :: rest →
    step s = .next { s with schedule := rest })

/-- R160, R347, R350: what a write of word w to CMD does. While BUSY it is an overrun: the first fault
is recorded with the word written, an earlier one is kept, the FIFO is emptied and the pending command
dropped. In the FAULT state the word is discarded unless it is SOFT_RESET. Otherwise it is latched with
the ARG value of the moment. -/
def Obligations.CmdWriteIssues : Prop :=
  ∀ (s : State) (w : Word) (rest : List Turn), s.resetIn = false →
    s.schedule = .host (.write .bits32 0x08 w) :: rest →
    (s.busy = true → s.err = .noFault →
      step s = .next { s with err := .cmdOverrun, errCmd := w, errInfo := 0, outFifo := [],
                              busy := false, schedule := rest }) ∧
    (s.busy = true → s.err ≠ .noFault →
      step s = .next { s with outFifo := [], busy := false, schedule := rest }) ∧
    (s.busy = false → s.err ≠ .noFault → w ≠ 0x01000000 →
      step s = .next { s with schedule := rest }) ∧
    (s.busy = false → (s.err = .noFault ∨ w = 0x01000000) →
      step s = .next { s with pendCmd := w, pendArg := s.arg, busy := true, schedule := rest })

/-- R346, R345: faults are precise. When a core step takes the first fault, the state after it is the
state before the command with only ERR, ERR_CMD, ERR_INFO, the FIFO and BUSY changed. -/
def Obligations.FaultsArePrecise : Prop :=
  ∀ (i : Instr) (s t : State), s.err = .noFault → exec i s = .next t → t.err ≠ .noFault →
    t = { s with err := t.err, errCmd := s.pendCmd, errInfo := t.errInfo, outFifo := [],
                 busy := false }

/-- R40, R351: the first fault is kept. A step from the FAULT state leaves ERR, ERR_CMD and ERR_INFO as
they are, or clears all three, and only SOFT_RESET and hardware reset do that. -/
def Obligations.FirstFaultIsKept : Prop :=
  ∀ s t : State, s.err ≠ .noFault → step s = .next t →
    (t.err = s.err ∧ t.errCmd = s.errCmd ∧ t.errInfo = s.errInfo) ∨
    (t.err = .noFault ∧ t.errCmd = 0 ∧ t.errInfo = 0 ∧
      ((s.busy = true ∧ s.pendCmd = 0x01000000) ∨ s.schedule.head? = some (.host .assertReset)))

/-- R343: which faults a well-formed command can raise, besides SEQUENCE, which R130 gives. -/
def Obligations.CommandsRaiseOnlyTheirFaults : Prop :=
  ∀ (i : Instr) (s t : State), i.wellFormed = true → s.err = .noFault → exec i s = .next t →
    t.err = .noFault ∨ (t.err = .sequence ∧ i ≠ .nop ∧ i ≠ .softReset ∧ ∀ a, i ≠ .freqRead a) ∨
    (t.err = .countOverflow ∧ ∃ b, i = .anaByte b) ∨ (t.err = .invalidInput ∧ i = .buildTree) ∨
    (t.err = .protocol ∧ (i = .encFinish ∨ ∃ b, i = .encByte b)) ∨
    (t.err = .badPath ∧ ∃ b, i = .decByte b) ∨ (t.err = .truncatedStream ∧ i = .decEnd)

/-- The condition of R130 under which a command may run. -/
def phaseCondition (s : State) : Instr → Prop
  | .nop => True
  | .softReset => True
  | .freqRead _ => True
  | .freqClear => s.encActive = false ∧ s.decState = .idle
  | .anaByte _ => s.encActive = false ∧ s.decState = .idle
  | .anaEnd _ => s.encActive = false ∧ s.decState = .idle
  | .freqWrite _ => s.encActive = false ∧ s.decState = .idle
  | .buildTree => s.encActive = false ∧ s.decState = .idle
  | .nodeRead _ _ => s.treeValid = true
  | .genCodes => s.treeValid = true ∧ s.encActive = false ∧ s.decState = .idle
  | .codeLen _ => s.codesValid = true
  | .codeBits _ _ => s.codesValid = true
  | .encBegin => s.codesValid = true ∧ s.encActive = false ∧ s.decState = .idle
  | .encByte _ => s.encActive = true
  | .encFinish => s.encActive = true
  | .decBegin => s.treeValid = true ∧ s.encActive = false ∧ s.decState = .idle
  | .decByte _ => s.decState = .run ∨ s.decState = .eos
  | .decEnd => s.decState = .run ∨ s.decState = .eos

/-- R130: phase_ok is true exactly when the condition of its table holds; otherwise the command raises
SEQUENCE. -/
def Obligations.PhaseChecksRaiseSequence : Prop :=
  (∀ (i : Instr) (s : State), i.wellFormed = true → s.err = .noFault → ¬ phaseCondition s i →
    exec i s = .next (faulted .sequence 0 s)) ∧
  (∀ (i : Instr) (s t : State), s.err = .noFault → phaseCondition s i → exec i s = .next t →
    t.err ≠ .sequence)

/-! ## Sequencer commands -/

/-- R166: NOP has no effect but the end of the command. -/
def Obligations.NopOnlyCompletes : Prop :=
  encode .nop = 0x00000000 ∧ ∀ s : State, exec .nop s = .next { s with busy := false }

/-- R381, R167: SOFT_RESET leaves the column "after SOFT_RESET" of R61: every field at its reset value,
INT_EN kept, and so the interrupt line low. It completes in every state. R167's pseudocode does not name
PEND_CMD and PEND_ARG: that they are cleared rests on R61's table (DEDUCED, log 5). The schedule, the read
log and the reset input are the model's own (logs 2, 3, 8). -/
def Obligations.SoftResetResets : Prop :=
  encode .softReset = 0x01000000 ∧
  ∀ s : State, ∃ t, exec .softReset s = .next t ∧
    (t.busy = false ∧ t.treeValid = false ∧ t.codesValid = false ∧ t.encActive = false ∧
      t.decState = .idle ∧ t.err = .noFault ∧ t.arg = 0 ∧ t.result = 0 ∧ t.bitcnt = 0 ∧
      t.errCmd = 0 ∧ t.errInfo = 0 ∧ t.nodeCount = 0 ∧ t.root = 0 ∧ t.decCur = 0 ∧
      t.outFifo = [] ∧ t.pendCmd = 0 ∧ t.pendArg = 0 ∧ encPend t = [] ∧ t.encAcc = 0 ∧
      irq t = false) ∧
    (∀ j : Fin 257, t.freq[j] = 0 ∧ t.codeLen[j] = 0 ∧ t.code[j] = 0 ∧ codeOf t j = []) ∧
    (∀ j : Fin 513, t.node[j] =
      { leaf := false, sym := 0, weight := 0, zero := 0, one := 0 }) ∧
    (t.errIe = s.errIe ∧ t.eosIe = s.eosIe ∧ t.config = s.config ∧ t.resetIn = s.resetIn ∧
      t.schedule = s.schedule ∧ t.readLog = s.readLog)

/-! ## Frequency analyzer (41_frequency.md) -/

/-- R191: FREQ_CLEAR. -/
def Obligations.FreqClearEmptiesTable : Prop :=
  encode .freqClear = 0x10000000 ∧
  (∀ s : State, s.encActive = false → s.decState = .idle →
    ∃ t, exec .freqClear s = .next t ∧ (∀ j : Fin 257, t.freq[j] = 0) ∧
      t = { s with freq := t.freq, treeValid := false, codesValid := false, busy := false }) ∧
  (∀ s : State, s.err = .noFault → (s.encActive = true ∨ s.decState ≠ .idle) →
    exec .freqClear s = .next (faulted .sequence 0 s))

/-- R192: ANA_BYTE counts one byte, and raises COUNT_OVERFLOW on a full count. -/
def Obligations.AnaByteCountsByte : Prop :=
  (∀ b : Byte, encode (.anaByte b) = 0x11#8 ++ 0#16 ++ b) ∧
  (∀ (b : Byte) (s : State), s.encActive = false → s.decState = .idle →
    s.freq[byteIndex b] ≠ 0xFFFFFFFF →
    ∃ t, exec (.anaByte b) s = .next t ∧
      t.freq[byteIndex b].toNat = s.freq[byteIndex b].toNat + 1 ∧
      (∀ j : Fin 257, j ≠ byteIndex b → t.freq[j] = s.freq[j]) ∧
      t = { s with freq := t.freq, treeValid := false, codesValid := false, busy := false }) ∧
  (∀ (b : Byte) (s : State), s.encActive = false → s.decState = .idle → s.err = .noFault →
    s.freq[byteIndex b] = 0xFFFFFFFF →
    exec (.anaByte b) s = .next (faulted .countOverflow (0#24 ++ b) s)) ∧
  (∀ (b : Byte) (s : State), s.err = .noFault → (s.encActive = true ∨ s.decState ≠ .idle) →
    exec (.anaByte b) s = .next (faulted .sequence 0 s))

/-- R193: ANA_END sets the EOF count to 1 when F = 1, whatever it was, and leaves FREQ when F = 0. -/
def Obligations.AnaEndSetsEofCount : Prop :=
  (∀ f : Bool, encode (.anaEnd f) = 0x12#8 ++ 0#23 ++ BitVec.ofBool f) ∧
  (∀ s : State, s.encActive = false → s.decState = .idle →
    ∃ t, exec (.anaEnd true) s = .next t ∧ t.freq[eofIndex] = 1 ∧
      (∀ j : Fin 257, j ≠ eofIndex → t.freq[j] = s.freq[j]) ∧
      t = { s with freq := t.freq, treeValid := false, codesValid := false, busy := false }) ∧
  (∀ s : State, s.encActive = false → s.decState = .idle →
    exec (.anaEnd false) s =
      .next { s with treeValid := false, codesValid := false, busy := false }) ∧
  (∀ (f : Bool) (s : State), s.err = .noFault → (s.encActive = true ∨ s.decState ≠ .idle) →
    exec (.anaEnd f) s = .next (faulted .sequence 0 s))

/-- R194: FREQ_WRITE sets one entry to the ARG value sampled at issue. -/
def Obligations.FreqWriteSetsEntry : Prop :=
  (∀ a : BitVec 9, encode (.freqWrite a) = 0x13#8 ++ 0#15 ++ a) ∧
  (∀ (a : BitVec 9) (e : Fin 257) (s : State), a.toNat = e.val → s.encActive = false →
    s.decState = .idle →
    ∃ t, exec (.freqWrite a) s = .next t ∧ t.freq[e] = s.pendArg ∧
      (∀ j : Fin 257, j ≠ e → t.freq[j] = s.freq[j]) ∧
      t = { s with freq := t.freq, treeValid := false, codesValid := false, busy := false }) ∧
  (∀ (a : BitVec 9) (s : State), 256 < a.toNat → s.err = .noFault →
    exec (.freqWrite a) s = .next (faulted .illegalCmd 0 s)) ∧
  (∀ (a : BitVec 9) (s : State), a.toNat ≤ 256 → s.err = .noFault →
    (s.encActive = true ∨ s.decState ≠ .idle) →
    exec (.freqWrite a) s = .next (faulted .sequence 0 s))

/-- R195: FREQ_READ, in every phase. -/
def Obligations.FreqReadGivesCount : Prop :=
  (∀ a : BitVec 9, encode (.freqRead a) = 0x14#8 ++ 0#15 ++ a) ∧
  (∀ (a : BitVec 9) (e : Fin 257) (s : State), a.toNat = e.val →
    exec (.freqRead a) s = .next { s with result := s.freq[e], busy := false }) ∧
  (∀ (a : BitVec 9) (s : State), 256 < a.toNat → s.err = .noFault →
    exec (.freqRead a) s = .next (faulted .illegalCmd 0 s))

/-- R196: the document's analyze over a byte sequence. When no byte value occurs more than 2^32 − 1
times, FREQ_CLEAR, ANA_BYTE for each byte and ANA_END leave in FREQ[v] the number of times the byte
value v occurs and in FREQ[256] the count 1 or 0; nothing changes but FREQ and the three flags. -/
def Obligations.AnalyzeCountsOccurrences : Prop :=
  ∀ (bytes : List Byte) (f : Bool) (s : State), s.encActive = false → s.decState = .idle →
    (∀ v : Byte, bytes.count v < 2 ^ 32) →
    ∃ t, runCommands (.freqClear :: bytes.map .anaByte ++ [.anaEnd f]) s = .next t ∧
      (∀ v : Byte, t.freq[byteIndex v].toNat = bytes.count v) ∧
      t.freq[eofIndex] = (if f then 1 else 0) ∧
      t = { s with freq := t.freq, treeValid := false, codesValid := false, busy := false }

/-! ## Tree builder (42_tree.md) -/

/-- The number of symbols in the table (R221: n). -/
def symbolCount (freq : Vector Word 257) : Nat := freq.toList.countP fun c => decide (c ≠ 0)

/-- R224: BUILD_TREE completes on every table that is not empty and writes NODE and TREE_INFO of that
table (R228 item 5: NODE_COUNT), the tree that BuiltTreeShape and TreeJoinsTwoLowest describe; on the empty
table it raises INVALID_INPUT. -/
def Obligations.BuildTreeCompletes : Prop :=
  encode .buildTree = 0x20000000 ∧
  (∀ s : State, s.encActive = false → s.decState = .idle → (∃ j : Fin 257, s.freq[j] ≠ 0) →
    ∃ t, exec .buildTree s = .next t ∧
      treeOf s.freq = some { node := t.node, nodeCount := t.nodeCount, root := t.root } ∧
      t.nodeCount.toNat =
        (if symbolCount s.freq = 1 then 2 else 2 * symbolCount s.freq - 1) ∧
      t.root.toNat = t.nodeCount.toNat - 1 ∧
      t = { s with node := t.node, nodeCount := t.nodeCount, root := t.root, treeValid := true,
                   codesValid := false, busy := false }) ∧
  (∀ s : State, s.encActive = false → s.decState = .idle → s.err = .noFault →
    (∀ j : Fin 257, s.freq[j] = 0) → exec .buildTree s = .next (faulted .invalidInput 0 s)) ∧
  (∀ s : State, s.err = .noFault → (s.encActive = true ∨ s.decState ≠ .idle) →
    exec .buildTree s = .next (faulted .sequence 0 s))

/-- R220, R221: the two nodes one combination removes are the lowest of the pool and the lowest of what
is left, by weight and then by index; the new node, at the next index, has the first as zero-child, the
second as one-child and the sum of their weights. -/
def Obligations.CombineTakesTwoLowest : Prop :=
  ∀ (nodes nodes' : List Node) (pool pool' : List Nat), pool.Nodup →
    combine nodes pool = some (nodes', pool') →
    ∃ first second, first ∈ pool ∧ second ∈ pool ∧ first ≠ second ∧
      (∀ i ∈ pool, i ≠ first → weightAt nodes first < weightAt nodes i ∨
        (weightAt nodes first = weightAt nodes i ∧ first < i)) ∧
      (∀ i ∈ pool, i ≠ first → i ≠ second → weightAt nodes second < weightAt nodes i ∨
        (weightAt nodes second = weightAt nodes i ∧ second < i)) ∧
      nodes' = nodes ++ [
        { leaf := false, sym := 257, weight := weightAt nodes first + weightAt nodes second,
          zero := BitVec.ofNat 10 first, one := BitVec.ofNat 10 second }] ∧
      (∀ i, i ∈ pool' ↔ i = nodes.length ∨ (i ∈ pool ∧ i ≠ first ∧ i ≠ second))

/-- R222, R223, R228, R63 items 1 to 3: the shape of every tree BUILD_TREE builds, on a table of n
symbols. Entries 0 to n − 1 are the leaves, in ascending symbol order, one for each symbol with a
count, weight its count. Entries n to NODE_COUNT − 1 are internal, each over entries created before it,
weight the sum of its children's (an absent child counts 0); only the one-symbol wrapper lacks its
one-child. The root is the last, its weight the sum of FREQ, and the entries above are unused. -/
def Obligations.BuiltTreeShape : Prop :=
  ∀ (freq : Vector Word 257) (t : BuiltTree), treeOf freq = some t →
    let n := symbolCount freq
    (1 ≤ n ∧ t.nodeCount.toNat = (if n = 1 then 2 else 2 * n - 1) ∧
      t.root.toNat = t.nodeCount.toNat - 1) ∧
    (∀ i : Fin 513, i.val < n → t.node[i].leaf = true ∧ t.node[i].zero = 0x3FF ∧
      t.node[i].one = 0x3FF ∧
      ∃ e : Fin 257, t.node[i].sym.toNat = e.val ∧ freq[e] ≠ 0 ∧
        t.node[i].weight.toNat = freq[e].toNat) ∧
    (∀ i j : Fin 513, i.val < j.val → j.val < n → t.node[i].sym.toNat < t.node[j].sym.toNat) ∧
    (∀ e : Fin 257, freq[e] ≠ 0 → ∃ i : Fin 513, i.val < n ∧ t.node[i].sym.toNat = e.val) ∧
    (∀ i : Fin 513, n ≤ i.val → i.val < t.nodeCount.toNat →
      t.node[i].leaf = false ∧ t.node[i].sym = 257 ∧
      ∃ a : Fin 513, t.node[i].zero.toNat = a.val ∧ a.val < i.val ∧
        ((n = 1 ∧ t.node[i].one = 0x3FF ∧ t.node[i].weight = t.node[a].weight) ∨
         (2 ≤ n ∧ ∃ b : Fin 513, t.node[i].one.toNat = b.val ∧ b.val < i.val ∧ b ≠ a ∧
            t.node[i].weight.toNat = t.node[a].weight.toNat + t.node[b].weight.toNat))) ∧
    (∀ r : Fin 513, r.val = t.root.toNat →
      t.node[r].weight.toNat = (freq.toList.map BitVec.toNat).sum) ∧
    (∀ i : Fin 513, t.nodeCount.toNat ≤ i.val →
      t.node[i] = { leaf := false, sym := 0, weight := 0, zero := 0, one := 0 })

/-- Entry j is lower than entry k (R220): the smaller weight first, then the smaller index. -/
def LowerEntry (arena : Vector Node 513) (j k : Fin 513) : Prop :=
  arena[j].weight.toNat < arena[k].weight.toNat ∨
  (arena[j].weight.toNat = arena[k].weight.toNat ∧ j.val < k.val)

/-- Entry j is in the collection P of R221 when entry i is made: created before it, and not yet the child
of an entry created before it. -/
def InPool (arena : Vector Node 513) (i j : Fin 513) : Prop :=
  j.val < i.val ∧
  ∀ k : Fin 513, k.val < i.val → arena[k].zero.toNat ≠ j.val ∧ arena[k].one.toNat ≠ j.val

/-- R220, R221: BUILD_TREE's loop on a table of two or more symbols. Every internal entry has as its
zero-child the lowest of the entries that were in the collection when it was made, and as its one-child the
lowest of the others. With BuiltTreeShape this fixes the whole arena (R229). -/
def Obligations.TreeJoinsTwoLowest : Prop :=
  ∀ (freq : Vector Word 257) (t : BuiltTree), treeOf freq = some t → 2 ≤ symbolCount freq →
    ∀ i : Fin 513, i.val < t.nodeCount.toNat → t.node[i].leaf = false →
    ∃ z o : Fin 513, t.node[i].zero.toNat = z.val ∧ t.node[i].one.toNat = o.val ∧
      InPool t.node i z ∧ InPool t.node i o ∧ o ≠ z ∧
      (∀ j : Fin 513, InPool t.node i j → j ≠ z → LowerEntry t.node z j) ∧
      (∀ j : Fin 513, InPool t.node i j → j ≠ z → j ≠ o → LowerEntry t.node o j)

/-- R226: NODE_READ gives the field group FSEL of an arena entry. -/
def Obligations.NodeReadGivesField : Prop :=
  (∀ (x : BitVec 10) (f : BitVec 2), encode (.nodeRead x f) = 0x21#8 ++ 0#10 ++ f ++ 0#2 ++ x) ∧
  (∀ (x : BitVec 10) (e : Fin 513) (s : State), x.toNat = e.val → s.treeValid = true →
    exec (.nodeRead x 0) s = .next { s with
      result := BitVec.ofBool s.node[e].leaf ++ 0#22 ++ s.node[e].sym, busy := false } ∧
    exec (.nodeRead x 1) s = .next { s with
      result := BitVec.ofNat 32 s.node[e].weight.toNat, busy := false } ∧
    exec (.nodeRead x 2) s = .next { s with
      result := BitVec.ofNat 32 (s.node[e].weight.toNat / 2 ^ 32), busy := false } ∧
    exec (.nodeRead x 3) s = .next { s with
      result := 0#6 ++ s.node[e].one ++ 0#6 ++ s.node[e].zero, busy := false }) ∧
  (∀ (x : BitVec 10) (f : BitVec 2) (s : State), 512 < x.toNat → s.err = .noFault →
    exec (.nodeRead x f) s = .next (faulted .illegalCmd 0 s)) ∧
  (∀ (x : BitVec 10) (f : BitVec 2) (s : State), x.toNat ≤ 512 → s.err = .noFault →
    s.treeValid = false → exec (.nodeRead x f) s = .next (faulted .sequence 0 s))

/-! ## Code table generator (43_codes.md) -/

/-- R251: GEN_CODES completes on every tree BUILD_TREE built and rewrites CODE_LEN and CODE. -/
def Obligations.GenCodesCompletes : Prop :=
  encode .genCodes = 0x30000000 ∧
  (∀ s : State, s.Inv → s.treeValid = true → s.encActive = false → s.decState = .idle →
    ∃ t, exec .genCodes s = .next t ∧
      codesOf s.node s.root = .ok { len := t.codeLen, code := t.code } ∧
      t = { s with codeLen := t.codeLen, code := t.code, codesValid := true, busy := false }) ∧
  (∀ s : State, s.err = .noFault →
    (s.treeValid = false ∨ s.encActive = true ∨ s.decState ≠ .idle) →
    exec .genCodes s = .next (faulted .sequence 0 s))

/-- Where the path p leads from an arena index: 0 to the zero-child, 1 to the one-child, nowhere
through a leaf or an absent child (43_codes.md R250, 45_decoder.md R310). -/
def followPath (arena : Vector Node 513) : BitVec 10 → Bits → Option (BitVec 10)
  | i, [] => some i
  | i, x :: p =>
    match nodeAt arena i with
    | none => none
    | some e =>
      if e.leaf || decide ((if x then e.one else e.zero) = 0x3FF) then none
      else followPath arena (if x then e.one else e.zero) p

/-- R250, R252 items 1 to 3, R255: the codes of a built tree are its root-to-leaf paths and nothing
else. Exactly the symbols of the table have a code, none is empty or longer than 256 bits, each code
leads from the root to the leaf of its symbol, and none is a prefix of another. -/
def Obligations.CodesAreLeafPaths : Prop :=
  ∀ (freq : Vector Word 257) (t : BuiltTree), treeOf freq = some t →
    ∃ c, codesOf t.node t.root = .ok c ∧
      (∀ e : Fin 257, (c.len[e] ≠ 0 ↔ freq[e] ≠ 0) ∧ c.len[e].toNat ≤ 256) ∧
      (∀ e : Fin 257, c.len[e] ≠ 0 →
        ∃ (x : BitVec 10) (l : Node),
          followPath t.node t.root (unpackMsb c.code[e] c.len[e].toNat) = some x ∧
          nodeAt t.node x = some l ∧ l.leaf = true ∧ l.sym.toNat = e.val) ∧
      (∀ e f : Fin 257, e ≠ f → c.len[e] ≠ 0 → c.len[f] ≠ 0 →
        ¬ unpackMsb c.code[e] c.len[e].toNat <+: unpackMsb c.code[f] c.len[f].toNat)

/-- R252 item 4: over the symbols with a code, the sum of 2^(−length) is 1 when the table has two or more
symbols, and 1/2 when it has one; both sides are scaled by 2^256. -/
def Obligations.CodeLengthsFillTree : Prop :=
  ∀ (freq : Vector Word 257) (t : BuiltTree) (c : CodeTable), treeOf freq = some t →
    codesOf t.node t.root = .ok c →
    (c.len.toList.map fun l => if l = 0 then 0 else 2 ^ (256 - l.toNat)).sum =
      (if symbolCount freq = 1 then 2 ^ 255 else 2 ^ 256)

/-- R253: CODE_LEN gives the length of one code. -/
def Obligations.CodeLenGivesLength : Prop :=
  (∀ a : BitVec 9, encode (.codeLen a) = 0x31#8 ++ 0#15 ++ a) ∧
  (∀ (a : BitVec 9) (e : Fin 257) (s : State), a.toNat = e.val → s.codesValid = true →
    exec (.codeLen a) s = .next { s with result := 0#23 ++ s.codeLen[e], busy := false }) ∧
  (∀ (a : BitVec 9) (s : State), 256 < a.toNat → s.err = .noFault →
    exec (.codeLen a) s = .next (faulted .illegalCmd 0 s)) ∧
  (∀ (a : BitVec 9) (s : State), a.toNat ≤ 256 → s.err = .noFault → s.codesValid = false →
    exec (.codeLen a) s = .next (faulted .sequence 0 s))

/-- R254, R92: CODE_BITS gives code bits 32k to 32k+31 with bit 32k in RESULT[31], and 0 past the
code's length. -/
def Obligations.CodeBitsGivesChunk : Prop :=
  (∀ (a : BitVec 9) (k : BitVec 3),
    encode (.codeBits a k) = 0x32#8 ++ 0#9 ++ k ++ 0#3 ++ a) ∧
  (∀ (a : BitVec 9) (k : BitVec 3) (e : Fin 257) (s : State), a.toNat = e.val →
    s.codesValid = true →
    ∃ t, exec (.codeBits a k) s = .next t ∧
      (∀ j < 32, t.result.getLsbD (31 - j) = (codeOf s e).getD (32 * k.toNat + j) false) ∧
      t = { s with result := t.result, busy := false }) ∧
  (∀ (a : BitVec 9) (k : BitVec 3) (s : State), 256 < a.toNat → s.err = .noFault →
    exec (.codeBits a k) s = .next (faulted .illegalCmd 0 s)) ∧
  (∀ (a : BitVec 9) (k : BitVec 3) (s : State), a.toNat ≤ 256 → s.err = .noFault →
    s.codesValid = false → exec (.codeBits a k) s = .next (faulted .sequence 0 s))

/-! ## Encoder (44_encoder.md) -/

/-- R281: ENC_BEGIN opens an encode; the FIFO is not emptied. -/
def Obligations.EncBeginOpensEncode : Prop :=
  encode .encBegin = 0x40000000 ∧
  (∀ s : State, s.codesValid = true → s.encActive = false → s.decState = .idle →
    ∃ t, exec .encBegin s = .next t ∧ encPend t = [] ∧
      t = { s with encNpend := t.encNpend, encAcc := t.encAcc, bitcnt := 0, encActive := true,
                   busy := false }) ∧
  (∀ s : State, s.err = .noFault →
    (s.codesValid = false ∨ s.encActive = true ∨ s.decState ≠ .idle) →
    exec .encBegin s = .next (faulted .sequence 0 s))

/-- The byte sequence out packs the bitstring p from its first bit on, MSB-first, zeros after p's end
(R89). -/
def Packs (out : List Byte) (p : Bits) : Prop :=
  ∀ i < 8 * out.length, (out.getD (i / 8) 0).getMsbD (i % 8) = p.getD i false

/-- R280, R282: ENC_BYTE appends the byte's code to the pending bits. With p the pending bits and the
code, floor(len p / 8) whole bytes are pushed, MSB-first, the rest stays pending, and BITCNT grows by
the code's length. A byte without a code raises PROTOCOL. It is held while the FIFO lacks room for the
bytes (R163): that its turn then answers the same state is the model's choice (log 11). -/
def Obligations.EncByteAppendsCode : Prop :=
  (∀ b : Byte, encode (.encByte b) = 0x41#8 ++ 0#16 ++ b) ∧
  (∀ (b : Byte) (s : State), s.encActive = true → s.codeLen[byteIndex b] ≠ 0 →
    let p := encPend s ++ codeOf s (byteIndex b)
    p.length / 8 ≤ s.config.ofifoDepth.toNat - s.outFifo.length →
    ∃ t out, exec (.encByte b) s = .next t ∧ out.length = p.length / 8 ∧ Packs out p ∧
      (s.codeLen[byteIndex b].toNat ≤ 256 → out.length ≤ 32) ∧
      encPend t = p.drop (8 * (p.length / 8)) ∧
      t = { s with encNpend := t.encNpend, encAcc := t.encAcc,
                   bitcnt := s.bitcnt + BitVec.ofNat 64 s.codeLen[byteIndex b].toNat,
                   outFifo := s.outFifo ++ out, busy := false }) ∧
  (∀ (b : Byte) (s : State), s.encActive = true → s.codeLen[byteIndex b] ≠ 0 →
    s.config.ofifoDepth.toNat - s.outFifo.length <
      ((encPend s).length + s.codeLen[byteIndex b].toNat) / 8 →
    exec (.encByte b) s = .next s) ∧
  (∀ (b : Byte) (s : State), s.encActive = true → s.err = .noFault →
    s.codeLen[byteIndex b] = 0 → exec (.encByte b) s = .next (faulted .protocol (0#24 ++ b) s)) ∧
  (∀ (b : Byte) (s : State), s.err = .noFault → s.encActive = false →
    exec (.encByte b) s = .next (faulted .sequence 0 s))

/-- R283: ENC_FINISH appends EOF's code, pads the last byte with zeros, pushes ceil(len p / 8) bytes in
all and closes the encode; BITCNT does not count the padding. Without a code for EOF it raises PROTOCOL.
It is held while the FIFO lacks room for the bytes (R163): that its turn then answers the same state is the
model's choice (log 11). -/
def Obligations.EncFinishPadsAndCloses : Prop :=
  encode .encFinish = 0x42000000 ∧
  (∀ s : State, s.encActive = true → s.codeLen[eofIndex] ≠ 0 →
    let p := encPend s ++ codeOf s eofIndex
    (p.length + 7) / 8 ≤ s.config.ofifoDepth.toNat - s.outFifo.length →
    ∃ t out, exec .encFinish s = .next t ∧ out.length = (p.length + 7) / 8 ∧ Packs out p ∧
      (s.codeLen[eofIndex].toNat ≤ 256 → out.length ≤ 33) ∧
      encPend t = [] ∧
      t = { s with encNpend := t.encNpend, encAcc := t.encAcc, encActive := false,
                   bitcnt := s.bitcnt + BitVec.ofNat 64 s.codeLen[eofIndex].toNat,
                   outFifo := s.outFifo ++ out, busy := false }) ∧
  (∀ s : State, s.encActive = true → s.codeLen[eofIndex] ≠ 0 →
    s.config.ofifoDepth.toNat - s.outFifo.length <
      ((encPend s).length + s.codeLen[eofIndex].toNat + 7) / 8 →
    exec .encFinish s = .next s) ∧
  (∀ s : State, s.encActive = true → s.err = .noFault → s.codeLen[eofIndex] = 0 →
    exec .encFinish s = .next (faulted .protocol 0x00000100 s)) ∧
  (∀ s : State, s.err = .noFault → s.encActive = false →
    exec .encFinish s = .next (faulted .sequence 0 s))

/-- The payload bitstring of a byte sequence (R284): its codes in source order, then EOF's. -/
def payloadBits (s : State) (bytes : List Byte) : Bits :=
  bytes.flatMap (fun b => codeOf s (byteIndex b)) ++ codeOf s eofIndex

/-- R284: ENC_BEGIN, ENC_BYTE for each byte and ENC_FINISH push the codes of the bytes and EOF's code,
packed MSB-first and padded with 0 bits to a whole byte, and BITCNT is the sum of the code lengths. The
host drains after every command, so none is held; bytes left in the FIFO come out first. -/
def Obligations.EncodeSequencePacksCodes : Prop :=
  ∀ (bytes : List Byte) (s : State), s.Inv → s.codesValid = true → s.encActive = false →
    s.decState = .idle → (∀ b ∈ bytes, s.codeLen[byteIndex b] ≠ 0) → s.codeLen[eofIndex] ≠ 0 →
    ∃ t out, runDrained (.encBegin :: bytes.map .encByte ++ [.encFinish]) s [] =
        .next (t, s.outFifo ++ out) ∧
      out.length = ((payloadBits s bytes).length + 7) / 8 ∧ Packs out (payloadBits s bytes) ∧
      encPend t = [] ∧
      t = { s with encNpend := t.encNpend, encAcc := t.encAcc,
                   bitcnt := BitVec.ofNat 64 (payloadBits s bytes).length,
                   outFifo := [], busy := false }

/-! ## Decoder (45_decoder.md) -/

/-- R311: DEC_BEGIN opens a decode at the root; the FIFO is not emptied, CODES_VALID is not needed. -/
def Obligations.DecBeginOpensDecode : Prop :=
  encode .decBegin = 0x50000000 ∧
  (∀ s : State, s.treeValid = true → s.encActive = false → s.decState = .idle →
    exec .decBegin s =
      .next { s with decCur := s.root, bitcnt := 0, decState := .run, busy := false }) ∧
  (∀ s : State, s.err = .noFault →
    (s.treeValid = false ∨ s.encActive = true ∨ s.decState ≠ .idle) →
    exec .decBegin s = .next (faulted .sequence 0 s))

/-- R310: what one decoded bit does, from a cursor that stands on the entry `here`: an absent child is
BAD_PATH with the bit's position and the cursor; a leaf ends a symbol, EOF's sets EOS, another's pushes
its byte, and the cursor returns to the root; an internal entry becomes the cursor. -/
def Obligations.TakeBitWalksTree : Prop :=
  ∀ (arena : Vector Node 513) (root : BitVec 10) (n : BitVec 3) (x : Bool) (w : TreeWalk)
    (here : Node), nodeAt arena w.cur = some here →
    let nxt := if x then here.one else here.zero
    (nxt = 0x3FF → takeBit arena root n x w =
      .error (.raise .badPath (0#13 ++ n ++ 0#6 ++ w.cur))) ∧
    (∀ e, nxt ≠ 0x3FF → nodeAt arena nxt = some e → e.leaf = true → e.sym = 256 →
      takeBit arena root n x w =
        .ok { w with bitcnt := w.bitcnt + 1, state := .eos, cur := root }) ∧
    (∀ e, nxt ≠ 0x3FF → nodeAt arena nxt = some e → e.leaf = true → e.sym ≠ 256 →
      takeBit arena root n x w =
        .ok { w with bitcnt := w.bitcnt + 1, cur := root,
                     out := w.out ++ [BitVec.ofNat 8 e.sym.toNat] }) ∧
    (∀ e, nxt ≠ 0x3FF → nodeAt arena nxt = some e → e.leaf = false →
      takeBit arena root n x w = .ok { w with bitcnt := w.bitcnt + 1, cur := nxt })

/-- R312: DEC_BYTE takes its operand's bits in the order bit 7 to bit 0, each by R310, all or nothing. It
is held while the FIFO lacks room for its bytes (R163): that its turn then answers the same state is the
model's choice (log 11). -/
def Obligations.DecByteTakesBitsInOrder : Prop :=
  (∀ y : Byte, encode (.decByte y) = 0x51#8 ++ 0#16 ++ y) ∧
  (∀ (y : Byte) (s : State) (w : TreeWalk), s.decState = .run →
    takeBits s.node s.root
      [(7, y.getLsbD 7), (6, y.getLsbD 6), (5, y.getLsbD 5), (4, y.getLsbD 4),
       (3, y.getLsbD 3), (2, y.getLsbD 2), (1, y.getLsbD 1), (0, y.getLsbD 0)]
      { cur := s.decCur, bitcnt := s.bitcnt, state := .run, out := [] } = .ok w →
    w.out.length ≤ s.config.ofifoDepth.toNat - s.outFifo.length →
    exec (.decByte y) s = .next { s with
      decCur := w.cur, bitcnt := w.bitcnt, decState := w.state,
      outFifo := s.outFifo ++ w.out, busy := false }) ∧
  (∀ (y : Byte) (s : State) (w : TreeWalk), s.decState = .run →
    takeBits s.node s.root (operandBits y)
      { cur := s.decCur, bitcnt := s.bitcnt, state := .run, out := [] } = .ok w →
    s.config.ofifoDepth.toNat - s.outFifo.length < w.out.length →
    exec (.decByte y) s = .next s) ∧
  (∀ (y : Byte) (s : State) (info : Word), s.decState = .run → s.err = .noFault →
    takeBits s.node s.root (operandBits y)
      { cur := s.decCur, bitcnt := s.bitcnt, state := .run, out := [] } =
        .error (.raise .badPath info) →
    exec (.decByte y) s = .next (faulted .badPath info s)) ∧
  (∀ (y : Byte) (s : State), s.err = .noFault → s.decState = .idle →
    exec (.decByte y) s = .next (faulted .sequence 0 s))

/-- R313: from EOS on, DEC_BYTE takes no bits; R310, R312: in RUN, on a tree of two or more symbols and
with room for 8 bytes, it completes, with at most 8 bytes pushed and at most 8 bits taken, all 8 when
EOS is not reached. -/
def Obligations.DecByteCompletes : Prop :=
  (∀ (y : Byte) (s : State), s.decState = .eos →
    exec (.decByte y) s = .next { s with busy := false }) ∧
  (∀ (y : Byte) (s : State), s.Inv → s.decState = .run → 2 < s.nodeCount.toNat →
    8 ≤ s.config.ofifoDepth.toNat - s.outFifo.length →
    ∃ t out taken, exec (.decByte y) s = .next t ∧ out.length ≤ taken ∧ taken ≤ 8 ∧
      t.decState ≠ .idle ∧ (t.decState = .run → taken = 8) ∧
      t = { s with decCur := t.decCur, decState := t.decState,
                   bitcnt := s.bitcnt + BitVec.ofNat 64 taken,
                   outFifo := s.outFifo ++ out, busy := false })

/-- R315: DEC_END closes a decode that reached EOS, and raises TRUNCATED_STREAM on one that did not. -/
def Obligations.DecEndClosesOrTruncates : Prop :=
  encode .decEnd = 0x52000000 ∧
  (∀ s : State, s.decState = .eos →
    exec .decEnd s = .next { s with decState := .idle, busy := false }) ∧
  (∀ s : State, s.decState = .run → s.err = .noFault →
    exec .decEnd s = .next (faulted .truncatedStream (0#22 ++ s.decCur) s)) ∧
  (∀ s : State, s.err = .noFault → s.decState = .idle →
    exec .decEnd s = .next (faulted .sequence 0 s))

/-- R313, R317, R91: decode a payload. When the bits of the bytes fed begin with the codes of a byte
sequence and EOF's code, whatever bits and bytes follow, DEC_BEGIN, a DEC_BYTE for each and DEC_END push
that sequence and nothing else; BITCNT counts the bits up to EOF's last and the decode is closed. -/
def Obligations.DecodePayloadGivesBytes : Prop :=
  ∀ (bytes fed : List Byte) (s : State), s.Inv → s.codesValid = true → s.encActive = false →
    s.decState = .idle → (∀ b ∈ bytes, s.codeLen[byteIndex b] ≠ 0) → s.codeLen[eofIndex] ≠ 0 →
    (payloadBits s bytes).length ≤ 8 * fed.length →
    (∀ i < (payloadBits s bytes).length,
      (fed.getD (i / 8) 0).getMsbD (i % 8) = (payloadBits s bytes).getD i false) →
    runDrained (.decBegin :: fed.map .decByte ++ [.decEnd]) s [] =
      .next ({ s with decCur := s.root, bitcnt := BitVec.ofNat 64 (payloadBits s bytes).length,
                      outFifo := [], busy := false }, s.outFifo ++ bytes)

/-- The commands of the compression path (R288) for a byte sequence, in file mode. -/
def compressCommands (bytes : List Byte) : List Instr :=
  .freqClear :: bytes.map .anaByte ++ [.anaEnd true, .buildTree, .genCodes, .encBegin] ++
    bytes.map .encByte ++ [.encFinish]

/-- R318: the round trip. Compress a byte sequence in which no byte value occurs more than 2^32 − 1
times. Then, in any idle state that holds the same FREQ, build the tree and decode the payload: the bytes
pushed are the sequence exactly, and the decode took as many bits as the encode made. -/
def Obligations.RoundTripRestoresBytes : Prop :=
  ∀ (bytes : List Byte) (s : State), s.config.legal = true → s.err = .noFault →
    s.encActive = false → s.decState = .idle → s.outFifo = [] →
    (∀ v : Byte, bytes.count v < 2 ^ 32) →
    ∃ t payload, runDrained (compressCommands bytes) s [] = .next (t, payload) ∧
      t.err = .noFault ∧ t.encActive = false ∧
      ∀ r : State, r.config.legal = true → r.err = .noFault → r.encActive = false →
        r.decState = .idle → r.outFifo = [] → r.freq = t.freq →
        ∃ u, runDrained (.buildTree :: .decBegin :: payload.map .decByte ++ [.decEnd]) r [] =
            .next (u, bytes) ∧
          u.err = .noFault ∧ u.decState = .idle ∧ u.bitcnt = t.bitcnt

/-! ## Whole-machine rules over the commands -/

/-- The phase flags after a command that completes (R62): TREE_VALID, CODES_VALID, ENC_ACTIVE and
DEC_STATE. -/
def flagsAfter (s t : State) : Instr → Prop
  | .nop => t.treeValid = s.treeValid ∧ t.codesValid = s.codesValid ∧ t.encActive = s.encActive ∧
      t.decState = s.decState
  | .softReset => t.treeValid = false ∧ t.codesValid = false ∧ t.encActive = false ∧
      t.decState = .idle
  | .freqClear => t.treeValid = false ∧ t.codesValid = false ∧ t.encActive = s.encActive ∧
      t.decState = s.decState
  | .anaByte _ => t.treeValid = false ∧ t.codesValid = false ∧ t.encActive = s.encActive ∧
      t.decState = s.decState
  | .anaEnd _ => t.treeValid = false ∧ t.codesValid = false ∧ t.encActive = s.encActive ∧
      t.decState = s.decState
  | .freqWrite _ => t.treeValid = false ∧ t.codesValid = false ∧ t.encActive = s.encActive ∧
      t.decState = s.decState
  | .freqRead _ => t.treeValid = s.treeValid ∧ t.codesValid = s.codesValid ∧
      t.encActive = s.encActive ∧ t.decState = s.decState
  | .buildTree => t.treeValid = true ∧ t.codesValid = false ∧ t.encActive = s.encActive ∧
      t.decState = s.decState
  | .nodeRead _ _ => t.treeValid = s.treeValid ∧ t.codesValid = s.codesValid ∧
      t.encActive = s.encActive ∧ t.decState = s.decState
  | .genCodes => t.treeValid = s.treeValid ∧ t.codesValid = true ∧ t.encActive = s.encActive ∧
      t.decState = s.decState
  | .codeLen _ => t.treeValid = s.treeValid ∧ t.codesValid = s.codesValid ∧
      t.encActive = s.encActive ∧ t.decState = s.decState
  | .codeBits _ _ => t.treeValid = s.treeValid ∧ t.codesValid = s.codesValid ∧
      t.encActive = s.encActive ∧ t.decState = s.decState
  | .encBegin => t.treeValid = s.treeValid ∧ t.codesValid = s.codesValid ∧ t.encActive = true ∧
      t.decState = s.decState
  | .encByte _ => t.treeValid = s.treeValid ∧ t.codesValid = s.codesValid ∧
      t.encActive = s.encActive ∧ t.decState = s.decState
  | .encFinish => t.treeValid = s.treeValid ∧ t.codesValid = s.codesValid ∧ t.encActive = false ∧
      t.decState = s.decState
  | .decBegin => t.treeValid = s.treeValid ∧ t.codesValid = s.codesValid ∧
      t.encActive = s.encActive ∧ t.decState = .run
  | .decByte _ => t.treeValid = s.treeValid ∧ t.codesValid = s.codesValid ∧
      t.encActive = s.encActive ∧ (t.decState = .run ∨ t.decState = .eos)
  | .decEnd => t.treeValid = s.treeValid ∧ t.codesValid = s.codesValid ∧
      t.encActive = s.encActive ∧ t.decState = .idle

/-- R62: each command that completes writes the phase flags as the table says; a command that faults
writes none of them. -/
def Obligations.FlagsWrittenAsTable : Prop :=
  ∀ (i : Instr) (s t : State), s.err = .noFault → s.busy = true → exec i s = .next t →
    t.busy = false →
    (t.err = .noFault → flagsAfter s t i) ∧
    (t.err ≠ .noFault → t.treeValid = s.treeValid ∧ t.codesValid = s.codesValid ∧
      t.encActive = s.encActive ∧ t.decState = s.decState)

/-- R45, R44, R50: RESULT is written only by the read-type commands; no command writes ARG; none writes
INT_EN. SOFT_RESET clears the first two (R61) and keeps the third. Nor does a command touch what stands
outside the block. -/
def Obligations.CommandsKeepHostRegisters : Prop :=
  ∀ (i : Instr) (s t : State), exec i s = .next t →
    (t.result ≠ s.result → i = .softReset ∨ (∃ a, i = .freqRead a) ∨ (∃ x f, i = .nodeRead x f) ∨
      (∃ a, i = .codeLen a) ∨ (∃ a k, i = .codeBits a k)) ∧
    (i ≠ .softReset → t.arg = s.arg ∧ t.pendCmd = s.pendCmd ∧ t.pendArg = s.pendArg) ∧
    t.errIe = s.errIe ∧ t.eosIe = s.eosIe ∧ t.config = s.config ∧ t.resetIn = s.resetIn ∧
    t.schedule = s.schedule ∧ t.readLog = s.readLog

/-- R130, last sentence: the table, the tree and the codes stay fixed while an encode or a decode is
open, whatever command runs but SOFT_RESET. -/
def Obligations.OpenOperationFixesTables : Prop :=
  ∀ (i : Instr) (s t : State), (s.encActive = true ∨ s.decState ≠ .idle) →
    i ≠ .softReset → exec i s = .next t →
    t.freq = s.freq ∧ t.node = s.node ∧ t.nodeCount = s.nodeCount ∧ t.root = s.root ∧
    t.codeLen = s.codeLen ∧ t.code = s.code ∧ t.treeValid = s.treeValid ∧
    t.codesValid = s.codesValid

/-! ## Hold and room (40_control.md R163, R164) -/

/-- R163, R94: a command that is held stays held through every turn of the core and of the host but a
read of OUT_DATA, a write of CMD (which drops it, R350) and hardware reset. -/
def Obligations.HoldEndsOnlyByPop : Prop :=
  ∀ (s t : State) (turn : Turn) (rest : List Turn), Held s → s.schedule = turn :: rest →
    (∀ size, turn ≠ .host (.read size 0x14)) → turn ≠ .host .drain →
    (∀ size w, turn ≠ .host (.write size 0x08 w)) → turn ≠ .host .assertReset →
    step s = .next t → Held t

/-- R163, R44: while a command waits, a write of ARG or INT_EN changes nothing of its outcome. -/
def Obligations.OutcomeIgnoresHostWrites : Prop :=
  ∀ (i : Instr) (s t : State) (a : Word) (e o : Bool), i ≠ .softReset → exec i s = .next t →
    exec i { s with arg := a, errIe := e, eosIe := o } =
      .next { t with arg := a, errIe := e, eosIe := o }

/-- R164: the most bytes one command pushes. -/
def Obligations.MostBytesPushed : Prop :=
  ∀ (i : Instr) (s t : State), s.Inv → exec i s = .next t →
    t.outFifo.length ≤ s.outFifo.length +
      (match i with
       | .encByte _ => 32
       | .encFinish => 33
       | .decByte _ => 8
       | _ => 0)

/-- R164: OFIFO_DEPTH ≥ 33, so every command can run once the FIFO is empty: the core's turn then ends
the pending command, in completion or in a fault it records. It is the core's turn when no host operation
is left, and when the schedule gives it one, as the host's waits do (the schedule is the model's own,
log 2). -/
def Obligations.EmptyFifoEndsCommand : Prop :=
  (∀ s : State, s.Inv → s.busy = true → s.outFifo = [] → s.schedule = [] →
    ∃ t, step s = .next t ∧ t.busy = false) ∧
  (∀ (s : State) (rest : List Turn), s.Inv → s.busy = true → s.outFifo = [] →
    s.schedule = .core :: rest → ∃ t, step s = .next t ∧ t.busy = false ∧ t.schedule = rest)

/-! ## The register window and the interrupt line -/

/-- R34: the fields of STATUS. OUT_LEVEL is exact while the FIFO holds no more than OFIFO_DEPTH bytes. -/
def Obligations.StatusFields : Prop :=
  ∀ s : State, s.outFifo.length ≤ s.config.ofifoDepth.toNat →
    (statusWord s).getLsbD 0 = s.busy ∧
    (statusWord s).getLsbD 1 = s.treeValid ∧
    (statusWord s).getLsbD 2 = s.codesValid ∧
    (statusWord s).getLsbD 3 = s.encActive ∧
    ((statusWord s).extractLsb' 4 2).toNat =
      (match s.decState with | .idle => 0 | .run => 1 | .eos => 2) ∧
    ((statusWord s).getLsbD 6 = true ↔ s.err ≠ .noFault) ∧
    ((statusWord s).getLsbD 7 = true ↔ s.outFifo ≠ []) ∧
    ((statusWord s).extractLsb' 8 8).toNat =
      (match s.err with
       | .noFault => 0 | .invalidInput => 1 | .protocol => 2 | .truncatedStream => 3
       | .corruptHeader => 4 | .illegalCmd => 5 | .sequence => 6 | .countOverflow => 7
       | .badPath => 8 | .cmdOverrun => 9) ∧
    ((statusWord s).extractLsb' 16 16).toNat = s.outFifo.length

/-- What a read of the register at an offset returns (R31, R42 to R52). -/
def windowWord (s : State) (off : Nat) : Word :=
  if off = 0x00 then 0x48554646
  else if off = 0x04 then statusWord s
  else if off = 0x0C then s.arg
  else if off = 0x10 then s.result
  else if off = 0x14 then (match s.outFifo with | [] => 0 | b :: _ => 0#23 ++ 1#1 ++ b)
  else if off = 0x18 then BitVec.ofNat 32 s.bitcnt.toNat
  else if off = 0x1C then BitVec.ofNat 32 (s.bitcnt.toNat / 2 ^ 32)
  else if off = 0x20 then s.errCmd
  else if off = 0x24 then s.errInfo
  else if off = 0x28 then 0#30 ++ BitVec.ofBool s.eosIe ++ BitVec.ofBool s.errIe
  else if off = 0x2C then 0#6 ++ s.root ++ 0#6 ++ s.nodeCount
  else if off = 0x30 then 0#7 ++ 256#9 ++ s.config.ofifoDepth
  else 0

/-- R33, R46, R85: a read of the window returns the register's value and has no side effect, but that a
read of OUT_DATA removes the head byte of the FIFO. -/
def Obligations.ReadsReturnRegisters : Prop :=
  ∀ (s : State) (off : Nat) (rest : List Turn), s.resetIn = false → off < 0x40 → off % 4 = 0 →
    s.schedule = .host (.read .bits32 off) :: rest →
    step s = .next { s with
      outFifo := if off = 0x14 then s.outFifo.tail else s.outFifo
      schedule := rest
      readLog := s.readLog ++ [{ off := off, data := windowWord s off }] }

/-- R33, R44, R50, R52, R85: a write of ARG sets it, a write of INT_EN sets its two fields, and a write
of any other offset but CMD has no effect. -/
def Obligations.WritesReachArgAndIntEn : Prop :=
  ∀ (s : State) (off : Nat) (w : Word) (rest : List Turn), s.resetIn = false → off < 0x40 →
    off % 4 = 0 → s.schedule = .host (.write .bits32 off w) :: rest →
    (off = 0x0C → step s = .next { s with arg := w, schedule := rest }) ∧
    (off = 0x28 → step s = .next { s with errIe := w.getLsbD 0, eosIe := w.getLsbD 1,
                                          schedule := rest }) ∧
    (off ≠ 0x08 → off ≠ 0x0C → off ≠ 0x28 → step s = .next { s with schedule := rest })

/-- R81, R83, R380: the only refusals of a step are bus accesses outside the window, of another width,
misaligned, or during reset; and each of these is refused. -/
def Obligations.OnlyBadAccessesRefused : Prop :=
  (∀ (s : State) (r : Refusal), step s = .refused r →
    ∃ op rest, s.schedule = .host op :: rest ∧
      (s.resetIn = true ∨
        ∃ size off, (op = .read size off ∨ ∃ w, op = .write size off w) ∧
          (size ≠ .bits32 ∨ off % 4 ≠ 0 ∨ 0x40 ≤ off))) ∧
  (∀ (s : State) (size : AccessSize) (off : Nat) (w : Word) (rest : List Turn) (op : HostOp),
    s.schedule = .host op :: rest → (op = .read size off ∨ op = .write size off w) →
    (size ≠ .bits32 ∨ off % 4 ≠ 0 ∨ 0x40 ≤ off ∨ s.resetIn = true) →
    ∃ r, step s = .refused r)

/-- R360: irq = (ERR_IE and FAULT) or (EOS_IE and DEC_STATE = EOS), of the fields as the host reads them
in INT_EN and STATUS. -/
def Obligations.IrqFollowsStatus : Prop :=
  ∀ s : State, irq s =
    (((windowWord s 0x28).getLsbD 0 && (windowWord s 0x04).getLsbD 6) ||
     ((windowWord s 0x28).getLsbD 1 && decide ((windowWord s 0x04).extractLsb' 4 2 = 2)))

/-! ## Reset (70_reset_and_hazards.md) and the invariant -/

/-- R61, R380: hardware reset acts at once and as a whole: every piece of state holds the value of the
table's column "after hardware reset". -/
def Obligations.HardwareResetValues : Prop :=
  ∀ (s : State) (rest : List Turn), s.schedule = .host .assertReset :: rest →
    ∃ t, step s = .next t ∧
      (t.busy = false ∧ t.treeValid = false ∧ t.codesValid = false ∧ t.encActive = false ∧
        t.decState = .idle ∧ t.err = .noFault ∧ t.arg = 0 ∧ t.result = 0 ∧ t.bitcnt = 0 ∧
        t.errCmd = 0 ∧ t.errInfo = 0 ∧ t.errIe = false ∧ t.eosIe = false ∧ t.nodeCount = 0 ∧
        t.root = 0 ∧ t.decCur = 0 ∧ t.outFifo = [] ∧ t.pendCmd = 0 ∧ t.pendArg = 0 ∧
        encPend t = [] ∧ t.encAcc = 0 ∧ irq t = false) ∧
      (∀ j : Fin 257, t.freq[j] = 0 ∧ t.codeLen[j] = 0 ∧ t.code[j] = 0 ∧ codeOf t j = []) ∧
      (∀ j : Fin 513, t.node[j] =
        { leaf := false, sym := 0, weight := 0, zero := 0, one := 0 }) ∧
      (t.config = s.config ∧ t.schedule = rest ∧ t.readLog = s.readLog ∧ t.resetIn = true)

/-- The invariant holds after hardware reset of every implementation with a legal parameter. -/
def Obligations.ResetMeetsInvariant : Prop :=
  (∀ c : Config, c.legal = true → (State.resetWith c).Inv) ∧ State.reset.Inv

/-- R63: every step keeps the invariant. -/
def Obligations.StepKeepsInvariant : Prop :=
  ∀ s t : State, s.Inv → step s = .next t → t.Inv

/-- R54, R86, R228: from a state that meets the invariant no step stops with a fault of the model: no
command reaches an entry outside the internal memories. -/
def Obligations.InvariantExcludesModelFaults : Prop :=
  ∀ (s : State) (f : Fault), s.Inv → step s ≠ .fault f

/-- R63: its six items, in every state a run reaches, with the ranges of R55 and R341 and R51's ROOT
beside them. -/
def Obligations.ReachableStatesMeetR63 : Prop :=
  ∀ s : State, Reachable s →
    (s.treeValid = true → 2 ≤ s.nodeCount.toNat ∧ s.root.toNat = s.nodeCount.toNat - 1 ∧
      ∃ r : Fin 513, s.root.toNat = r.val ∧ s.node[r].leaf = false) ∧
    (∀ i a b : Fin 513, i.val < s.nodeCount.toNat → s.node[i].leaf = false →
      s.node[i].zero.toNat = a.val → s.node[i].one.toNat = b.val →
      s.node[i].weight = s.node[a].weight + s.node[b].weight) ∧
    (∀ i j : Fin 513, i.val < s.nodeCount.toNat → j.val < s.nodeCount.toNat →
      s.node[i].leaf = true → s.node[j].leaf = true → s.node[i].sym = s.node[j].sym → i = j) ∧
    (s.codesValid = true → s.treeValid = true ∧
      (∀ e : Fin 257, s.codeLen[e] ≠ 0 ↔ ∃ i : Fin 513, i.val < s.nodeCount.toNat ∧
        s.node[i].leaf = true ∧ s.node[i].sym.toNat = e.val) ∧
      (∀ e f : Fin 257, e ≠ f → s.codeLen[e] ≠ 0 → s.codeLen[f] ≠ 0 →
        ¬ codeOf s e <+: codeOf s f)) ∧
    (s.encActive = true → s.codesValid = true ∧ s.decState = .idle) ∧
    (s.decState ≠ .idle → s.treeValid = true ∧ s.encActive = false) ∧
    (0 < s.nodeCount.toNat → s.root.toNat = s.nodeCount.toNat - 1) ∧
    s.outFifo.length ≤ s.config.ofifoDepth.toNat ∧ s.err ≠ .corruptHeader
end

