-- ==== Sys2Proof/Laws/Bits.lean ====
section
/-! SUPPORT. Bitstrings at the top of a vector: what packMsb and unpackMsb hold (20_memory.md R89). -/

namespace Sys2Proof.Machine

@[simp] theorem natOfBits_nil : natOfBits [] = 0 := rfl

@[simp] theorem natOfBits_append_bit (p : Bits) (b : Bool) :
    natOfBits (p ++ [b]) = 2 * natOfBits p + b.toNat := by
  simp [natOfBits, List.foldl_append]

/-- The number of a bitstring has bit k equal to the bitstring's bit counted from its end. -/
theorem testBit_natOfBits (p : Bits) (k : Nat) :
    (natOfBits p).testBit k = p.reverse.getD k false := by
  induction p using List.reverseRecOn generalizing k with
  | nil => simp
  | append_singleton p b ih =>
    rw [natOfBits_append_bit]
    cases k with
    | zero => cases b <;> simp [Nat.testBit_zero]
    | succ k =>
      have h : (2 * natOfBits p + b.toNat) / 2 = natOfBits p := by cases b <;> simp; omega
      rw [Nat.testBit_succ, h, ih]
      simp

/-- Bit i of a packed bitstring, from the top, is its element i; zeros follow (R89, R280). -/
theorem getMsbD_packMsb {w : Nat} {p : Bits} (h : p.length ≤ w) (i : Nat) :
    (packMsb w p).getMsbD i = p.getD i false := by
  by_cases hi : i < w
  · rw [BitVec.getMsbD_eq_getLsbD, packMsb, BitVec.getLsbD_ofNat, Nat.testBit_mul_two_pow,
      testBit_natOfBits]
    have hw : w - 1 - i < w := by omega
    simp only [hi, hw, decide_true, Bool.true_and]
    by_cases hp : i < p.length
    · have h1 : w - p.length ≤ w - 1 - i := by omega
      have h2 : w - 1 - i - (w - p.length) = p.length - 1 - i := by omega
      have h3 : p.length - 1 - i < p.length := by omega
      simp only [h1, decide_true, Bool.true_and, h2]
      rw [List.getD_eq_getElem?_getD, List.getElem?_reverse h3, List.getD_eq_getElem?_getD]
      congr 2; omega
    · have h1 : ¬ w - p.length ≤ w - 1 - i := by omega
      simp [h1, List.getD_eq_getElem?_getD, List.getElem?_eq_none (by omega : p.length ≤ i)]
  · rw [BitVec.getMsbD_of_ge _ _ (by omega), List.getD_eq_getElem?_getD,
      List.getElem?_eq_none (by omega)]
    rfl

@[simp] theorem length_unpackMsb {w : Nat} (v : BitVec w) (n : Nat) :
    (unpackMsb v n).length = n := by simp [unpackMsb]

theorem getD_unpackMsb {w : Nat} (v : BitVec w) (n i : Nat) :
    (unpackMsb v n).getD i false = (decide (i < n) && v.getMsbD i) := by
  by_cases h : i < n <;> simp [unpackMsb, List.getD_eq_getElem?_getD, h]

/-- Unpacking gives back what was packed. -/
theorem unpackMsb_packMsb {w : Nat} {p : Bits} (h : p.length ≤ w) :
    unpackMsb (packMsb w p) p.length = p := by
  apply List.ext_getElem (by simp)
  intro i h1 h2
  simp [unpackMsb, getMsbD_packMsb h, List.getD_eq_getElem?_getD, h2]

@[simp] theorem packMsb_nil (w : Nat) : packMsb w [] = 0 := by simp [packMsb]

@[simp] theorem unpackMsb_zero {w : Nat} (v : BitVec w) : unpackMsb v 0 = [] := rfl

end Sys2Proof.Machine
end

