-- ==== Sys2Proof/Laws/State.lean ====
section
/-! SUPPORT. For each update of State one lemma per field: what the field holds after it. -/

namespace Sys2Proof.Machine

/-! After the flag writes of every FREQ write (R190). -/
section

@[simp] theorem clearTreeAndCodes_config (s : State) : (clearTreeAndCodes s).config = s.config := rfl
@[simp] theorem clearTreeAndCodes_busy (s : State) : (clearTreeAndCodes s).busy = s.busy := rfl
@[simp] theorem clearTreeAndCodes_treeValid (s : State) : (clearTreeAndCodes s).treeValid = false := rfl
@[simp] theorem clearTreeAndCodes_codesValid (s : State) : (clearTreeAndCodes s).codesValid = false := rfl
@[simp] theorem clearTreeAndCodes_encActive (s : State) : (clearTreeAndCodes s).encActive = s.encActive := rfl
@[simp] theorem clearTreeAndCodes_decState (s : State) : (clearTreeAndCodes s).decState = s.decState := rfl
@[simp] theorem clearTreeAndCodes_err (s : State) : (clearTreeAndCodes s).err = s.err := rfl
@[simp] theorem clearTreeAndCodes_arg (s : State) : (clearTreeAndCodes s).arg = s.arg := rfl
@[simp] theorem clearTreeAndCodes_result (s : State) : (clearTreeAndCodes s).result = s.result := rfl
@[simp] theorem clearTreeAndCodes_bitcnt (s : State) : (clearTreeAndCodes s).bitcnt = s.bitcnt := rfl
@[simp] theorem clearTreeAndCodes_errCmd (s : State) : (clearTreeAndCodes s).errCmd = s.errCmd := rfl
@[simp] theorem clearTreeAndCodes_errInfo (s : State) : (clearTreeAndCodes s).errInfo = s.errInfo := rfl
@[simp] theorem clearTreeAndCodes_errIe (s : State) : (clearTreeAndCodes s).errIe = s.errIe := rfl
@[simp] theorem clearTreeAndCodes_eosIe (s : State) : (clearTreeAndCodes s).eosIe = s.eosIe := rfl
@[simp] theorem clearTreeAndCodes_nodeCount (s : State) : (clearTreeAndCodes s).nodeCount = s.nodeCount := rfl
@[simp] theorem clearTreeAndCodes_root (s : State) : (clearTreeAndCodes s).root = s.root := rfl
@[simp] theorem clearTreeAndCodes_freq (s : State) : (clearTreeAndCodes s).freq = s.freq := rfl
@[simp] theorem clearTreeAndCodes_node (s : State) : (clearTreeAndCodes s).node = s.node := rfl
@[simp] theorem clearTreeAndCodes_codeLen (s : State) : (clearTreeAndCodes s).codeLen = s.codeLen := rfl
@[simp] theorem clearTreeAndCodes_code (s : State) : (clearTreeAndCodes s).code = s.code := rfl
@[simp] theorem clearTreeAndCodes_encNpend (s : State) : (clearTreeAndCodes s).encNpend = s.encNpend := rfl
@[simp] theorem clearTreeAndCodes_encAcc (s : State) : (clearTreeAndCodes s).encAcc = s.encAcc := rfl
@[simp] theorem clearTreeAndCodes_decCur (s : State) : (clearTreeAndCodes s).decCur = s.decCur := rfl
@[simp] theorem clearTreeAndCodes_outFifo (s : State) : (clearTreeAndCodes s).outFifo = s.outFifo := rfl
@[simp] theorem clearTreeAndCodes_pendCmd (s : State) : (clearTreeAndCodes s).pendCmd = s.pendCmd := rfl
@[simp] theorem clearTreeAndCodes_pendArg (s : State) : (clearTreeAndCodes s).pendArg = s.pendArg := rfl
@[simp] theorem clearTreeAndCodes_resetIn (s : State) : (clearTreeAndCodes s).resetIn = s.resetIn := rfl
@[simp] theorem clearTreeAndCodes_schedule (s : State) : (clearTreeAndCodes s).schedule = s.schedule := rfl
@[simp] theorem clearTreeAndCodes_readLog (s : State) : (clearTreeAndCodes s).readLog = s.readLog := rfl

end

/-! After a write of one FREQ entry (R190). -/
section

@[simp] theorem writeFreq_config (i : Fin 257) (v : Word) (s : State) : (writeFreq i v s).config = s.config := rfl
@[simp] theorem writeFreq_busy (i : Fin 257) (v : Word) (s : State) : (writeFreq i v s).busy = s.busy := rfl
@[simp] theorem writeFreq_treeValid (i : Fin 257) (v : Word) (s : State) : (writeFreq i v s).treeValid = false := rfl
@[simp] theorem writeFreq_codesValid (i : Fin 257) (v : Word) (s : State) : (writeFreq i v s).codesValid = false := rfl
@[simp] theorem writeFreq_encActive (i : Fin 257) (v : Word) (s : State) : (writeFreq i v s).encActive = s.encActive := rfl
@[simp] theorem writeFreq_decState (i : Fin 257) (v : Word) (s : State) : (writeFreq i v s).decState = s.decState := rfl
@[simp] theorem writeFreq_err (i : Fin 257) (v : Word) (s : State) : (writeFreq i v s).err = s.err := rfl
@[simp] theorem writeFreq_arg (i : Fin 257) (v : Word) (s : State) : (writeFreq i v s).arg = s.arg := rfl
@[simp] theorem writeFreq_result (i : Fin 257) (v : Word) (s : State) : (writeFreq i v s).result = s.result := rfl
@[simp] theorem writeFreq_bitcnt (i : Fin 257) (v : Word) (s : State) : (writeFreq i v s).bitcnt = s.bitcnt := rfl
@[simp] theorem writeFreq_errCmd (i : Fin 257) (v : Word) (s : State) : (writeFreq i v s).errCmd = s.errCmd := rfl
@[simp] theorem writeFreq_errInfo (i : Fin 257) (v : Word) (s : State) : (writeFreq i v s).errInfo = s.errInfo := rfl
@[simp] theorem writeFreq_errIe (i : Fin 257) (v : Word) (s : State) : (writeFreq i v s).errIe = s.errIe := rfl
@[simp] theorem writeFreq_eosIe (i : Fin 257) (v : Word) (s : State) : (writeFreq i v s).eosIe = s.eosIe := rfl
@[simp] theorem writeFreq_nodeCount (i : Fin 257) (v : Word) (s : State) : (writeFreq i v s).nodeCount = s.nodeCount := rfl
@[simp] theorem writeFreq_root (i : Fin 257) (v : Word) (s : State) : (writeFreq i v s).root = s.root := rfl
@[simp] theorem writeFreq_freq (i : Fin 257) (v : Word) (s : State) : (writeFreq i v s).freq = s.freq.set i.val v := rfl
@[simp] theorem writeFreq_node (i : Fin 257) (v : Word) (s : State) : (writeFreq i v s).node = s.node := rfl
@[simp] theorem writeFreq_codeLen (i : Fin 257) (v : Word) (s : State) : (writeFreq i v s).codeLen = s.codeLen := rfl
@[simp] theorem writeFreq_code (i : Fin 257) (v : Word) (s : State) : (writeFreq i v s).code = s.code := rfl
@[simp] theorem writeFreq_encNpend (i : Fin 257) (v : Word) (s : State) : (writeFreq i v s).encNpend = s.encNpend := rfl
@[simp] theorem writeFreq_encAcc (i : Fin 257) (v : Word) (s : State) : (writeFreq i v s).encAcc = s.encAcc := rfl
@[simp] theorem writeFreq_decCur (i : Fin 257) (v : Word) (s : State) : (writeFreq i v s).decCur = s.decCur := rfl
@[simp] theorem writeFreq_outFifo (i : Fin 257) (v : Word) (s : State) : (writeFreq i v s).outFifo = s.outFifo := rfl
@[simp] theorem writeFreq_pendCmd (i : Fin 257) (v : Word) (s : State) : (writeFreq i v s).pendCmd = s.pendCmd := rfl
@[simp] theorem writeFreq_pendArg (i : Fin 257) (v : Word) (s : State) : (writeFreq i v s).pendArg = s.pendArg := rfl
@[simp] theorem writeFreq_resetIn (i : Fin 257) (v : Word) (s : State) : (writeFreq i v s).resetIn = s.resetIn := rfl
@[simp] theorem writeFreq_schedule (i : Fin 257) (v : Word) (s : State) : (writeFreq i v s).schedule = s.schedule := rfl
@[simp] theorem writeFreq_readLog (i : Fin 257) (v : Word) (s : State) : (writeFreq i v s).readLog = s.readLog := rfl

end

/-! After the write of RESULT (R45). -/
section

@[simp] theorem writeResult_config (v : Word) (s : State) : (writeResult v s).config = s.config := rfl
@[simp] theorem writeResult_busy (v : Word) (s : State) : (writeResult v s).busy = s.busy := rfl
@[simp] theorem writeResult_treeValid (v : Word) (s : State) : (writeResult v s).treeValid = s.treeValid := rfl
@[simp] theorem writeResult_codesValid (v : Word) (s : State) : (writeResult v s).codesValid = s.codesValid := rfl
@[simp] theorem writeResult_encActive (v : Word) (s : State) : (writeResult v s).encActive = s.encActive := rfl
@[simp] theorem writeResult_decState (v : Word) (s : State) : (writeResult v s).decState = s.decState := rfl
@[simp] theorem writeResult_err (v : Word) (s : State) : (writeResult v s).err = s.err := rfl
@[simp] theorem writeResult_arg (v : Word) (s : State) : (writeResult v s).arg = s.arg := rfl
@[simp] theorem writeResult_result (v : Word) (s : State) : (writeResult v s).result = v := rfl
@[simp] theorem writeResult_bitcnt (v : Word) (s : State) : (writeResult v s).bitcnt = s.bitcnt := rfl
@[simp] theorem writeResult_errCmd (v : Word) (s : State) : (writeResult v s).errCmd = s.errCmd := rfl
@[simp] theorem writeResult_errInfo (v : Word) (s : State) : (writeResult v s).errInfo = s.errInfo := rfl
@[simp] theorem writeResult_errIe (v : Word) (s : State) : (writeResult v s).errIe = s.errIe := rfl
@[simp] theorem writeResult_eosIe (v : Word) (s : State) : (writeResult v s).eosIe = s.eosIe := rfl
@[simp] theorem writeResult_nodeCount (v : Word) (s : State) : (writeResult v s).nodeCount = s.nodeCount := rfl
@[simp] theorem writeResult_root (v : Word) (s : State) : (writeResult v s).root = s.root := rfl
@[simp] theorem writeResult_freq (v : Word) (s : State) : (writeResult v s).freq = s.freq := rfl
@[simp] theorem writeResult_node (v : Word) (s : State) : (writeResult v s).node = s.node := rfl
@[simp] theorem writeResult_codeLen (v : Word) (s : State) : (writeResult v s).codeLen = s.codeLen := rfl
@[simp] theorem writeResult_code (v : Word) (s : State) : (writeResult v s).code = s.code := rfl
@[simp] theorem writeResult_encNpend (v : Word) (s : State) : (writeResult v s).encNpend = s.encNpend := rfl
@[simp] theorem writeResult_encAcc (v : Word) (s : State) : (writeResult v s).encAcc = s.encAcc := rfl
@[simp] theorem writeResult_decCur (v : Word) (s : State) : (writeResult v s).decCur = s.decCur := rfl
@[simp] theorem writeResult_outFifo (v : Word) (s : State) : (writeResult v s).outFifo = s.outFifo := rfl
@[simp] theorem writeResult_pendCmd (v : Word) (s : State) : (writeResult v s).pendCmd = s.pendCmd := rfl
@[simp] theorem writeResult_pendArg (v : Word) (s : State) : (writeResult v s).pendArg = s.pendArg := rfl
@[simp] theorem writeResult_resetIn (v : Word) (s : State) : (writeResult v s).resetIn = s.resetIn := rfl
@[simp] theorem writeResult_schedule (v : Word) (s : State) : (writeResult v s).schedule = s.schedule := rfl
@[simp] theorem writeResult_readLog (v : Word) (s : State) : (writeResult v s).readLog = s.readLog := rfl

end

/-! After the write of ENC_PEND (R57). -/
section

@[simp] theorem setEncPend_config (p : Bits) (s : State) : (setEncPend p s).config = s.config := rfl
@[simp] theorem setEncPend_busy (p : Bits) (s : State) : (setEncPend p s).busy = s.busy := rfl
@[simp] theorem setEncPend_treeValid (p : Bits) (s : State) : (setEncPend p s).treeValid = s.treeValid := rfl
@[simp] theorem setEncPend_codesValid (p : Bits) (s : State) : (setEncPend p s).codesValid = s.codesValid := rfl
@[simp] theorem setEncPend_encActive (p : Bits) (s : State) : (setEncPend p s).encActive = s.encActive := rfl
@[simp] theorem setEncPend_decState (p : Bits) (s : State) : (setEncPend p s).decState = s.decState := rfl
@[simp] theorem setEncPend_err (p : Bits) (s : State) : (setEncPend p s).err = s.err := rfl
@[simp] theorem setEncPend_arg (p : Bits) (s : State) : (setEncPend p s).arg = s.arg := rfl
@[simp] theorem setEncPend_result (p : Bits) (s : State) : (setEncPend p s).result = s.result := rfl
@[simp] theorem setEncPend_bitcnt (p : Bits) (s : State) : (setEncPend p s).bitcnt = s.bitcnt := rfl
@[simp] theorem setEncPend_errCmd (p : Bits) (s : State) : (setEncPend p s).errCmd = s.errCmd := rfl
@[simp] theorem setEncPend_errInfo (p : Bits) (s : State) : (setEncPend p s).errInfo = s.errInfo := rfl
@[simp] theorem setEncPend_errIe (p : Bits) (s : State) : (setEncPend p s).errIe = s.errIe := rfl
@[simp] theorem setEncPend_eosIe (p : Bits) (s : State) : (setEncPend p s).eosIe = s.eosIe := rfl
@[simp] theorem setEncPend_nodeCount (p : Bits) (s : State) : (setEncPend p s).nodeCount = s.nodeCount := rfl
@[simp] theorem setEncPend_root (p : Bits) (s : State) : (setEncPend p s).root = s.root := rfl
@[simp] theorem setEncPend_freq (p : Bits) (s : State) : (setEncPend p s).freq = s.freq := rfl
@[simp] theorem setEncPend_node (p : Bits) (s : State) : (setEncPend p s).node = s.node := rfl
@[simp] theorem setEncPend_codeLen (p : Bits) (s : State) : (setEncPend p s).codeLen = s.codeLen := rfl
@[simp] theorem setEncPend_code (p : Bits) (s : State) : (setEncPend p s).code = s.code := rfl
@[simp] theorem setEncPend_encNpend (p : Bits) (s : State) : (setEncPend p s).encNpend = BitVec.ofNat 3 p.length := rfl
@[simp] theorem setEncPend_encAcc (p : Bits) (s : State) : (setEncPend p s).encAcc = packMsb 7 p := rfl
@[simp] theorem setEncPend_decCur (p : Bits) (s : State) : (setEncPend p s).decCur = s.decCur := rfl
@[simp] theorem setEncPend_outFifo (p : Bits) (s : State) : (setEncPend p s).outFifo = s.outFifo := rfl
@[simp] theorem setEncPend_pendCmd (p : Bits) (s : State) : (setEncPend p s).pendCmd = s.pendCmd := rfl
@[simp] theorem setEncPend_pendArg (p : Bits) (s : State) : (setEncPend p s).pendArg = s.pendArg := rfl
@[simp] theorem setEncPend_resetIn (p : Bits) (s : State) : (setEncPend p s).resetIn = s.resetIn := rfl
@[simp] theorem setEncPend_schedule (p : Bits) (s : State) : (setEncPend p s).schedule = s.schedule := rfl
@[simp] theorem setEncPend_readLog (p : Bits) (s : State) : (setEncPend p s).readLog = s.readLog := rfl

end

/-! After the latching of a command (R160). -/
section

@[simp] theorem latchCommand_config (w : Word) (s : State) : (latchCommand w s).config = s.config := rfl
@[simp] theorem latchCommand_busy (w : Word) (s : State) : (latchCommand w s).busy = true := rfl
@[simp] theorem latchCommand_treeValid (w : Word) (s : State) : (latchCommand w s).treeValid = s.treeValid := rfl
@[simp] theorem latchCommand_codesValid (w : Word) (s : State) : (latchCommand w s).codesValid = s.codesValid := rfl
@[simp] theorem latchCommand_encActive (w : Word) (s : State) : (latchCommand w s).encActive = s.encActive := rfl
@[simp] theorem latchCommand_decState (w : Word) (s : State) : (latchCommand w s).decState = s.decState := rfl
@[simp] theorem latchCommand_err (w : Word) (s : State) : (latchCommand w s).err = s.err := rfl
@[simp] theorem latchCommand_arg (w : Word) (s : State) : (latchCommand w s).arg = s.arg := rfl
@[simp] theorem latchCommand_result (w : Word) (s : State) : (latchCommand w s).result = s.result := rfl
@[simp] theorem latchCommand_bitcnt (w : Word) (s : State) : (latchCommand w s).bitcnt = s.bitcnt := rfl
@[simp] theorem latchCommand_errCmd (w : Word) (s : State) : (latchCommand w s).errCmd = s.errCmd := rfl
@[simp] theorem latchCommand_errInfo (w : Word) (s : State) : (latchCommand w s).errInfo = s.errInfo := rfl
@[simp] theorem latchCommand_errIe (w : Word) (s : State) : (latchCommand w s).errIe = s.errIe := rfl
@[simp] theorem latchCommand_eosIe (w : Word) (s : State) : (latchCommand w s).eosIe = s.eosIe := rfl
@[simp] theorem latchCommand_nodeCount (w : Word) (s : State) : (latchCommand w s).nodeCount = s.nodeCount := rfl
@[simp] theorem latchCommand_root (w : Word) (s : State) : (latchCommand w s).root = s.root := rfl
@[simp] theorem latchCommand_freq (w : Word) (s : State) : (latchCommand w s).freq = s.freq := rfl
@[simp] theorem latchCommand_node (w : Word) (s : State) : (latchCommand w s).node = s.node := rfl
@[simp] theorem latchCommand_codeLen (w : Word) (s : State) : (latchCommand w s).codeLen = s.codeLen := rfl
@[simp] theorem latchCommand_code (w : Word) (s : State) : (latchCommand w s).code = s.code := rfl
@[simp] theorem latchCommand_encNpend (w : Word) (s : State) : (latchCommand w s).encNpend = s.encNpend := rfl
@[simp] theorem latchCommand_encAcc (w : Word) (s : State) : (latchCommand w s).encAcc = s.encAcc := rfl
@[simp] theorem latchCommand_decCur (w : Word) (s : State) : (latchCommand w s).decCur = s.decCur := rfl
@[simp] theorem latchCommand_outFifo (w : Word) (s : State) : (latchCommand w s).outFifo = s.outFifo := rfl
@[simp] theorem latchCommand_pendCmd (w : Word) (s : State) : (latchCommand w s).pendCmd = w := rfl
@[simp] theorem latchCommand_pendArg (w : Word) (s : State) : (latchCommand w s).pendArg = s.arg := rfl
@[simp] theorem latchCommand_resetIn (w : Word) (s : State) : (latchCommand w s).resetIn = s.resetIn := rfl
@[simp] theorem latchCommand_schedule (w : Word) (s : State) : (latchCommand w s).schedule = s.schedule := rfl
@[simp] theorem latchCommand_readLog (w : Word) (s : State) : (latchCommand w s).readLog = s.readLog := rfl

end

/-! After the model's note of a bus read. -/
section

@[simp] theorem logRead_config (off : Nat) (d : Word) (s : State) : (logRead off d s).config = s.config := rfl
@[simp] theorem logRead_busy (off : Nat) (d : Word) (s : State) : (logRead off d s).busy = s.busy := rfl
@[simp] theorem logRead_treeValid (off : Nat) (d : Word) (s : State) : (logRead off d s).treeValid = s.treeValid := rfl
@[simp] theorem logRead_codesValid (off : Nat) (d : Word) (s : State) : (logRead off d s).codesValid = s.codesValid := rfl
@[simp] theorem logRead_encActive (off : Nat) (d : Word) (s : State) : (logRead off d s).encActive = s.encActive := rfl
@[simp] theorem logRead_decState (off : Nat) (d : Word) (s : State) : (logRead off d s).decState = s.decState := rfl
@[simp] theorem logRead_err (off : Nat) (d : Word) (s : State) : (logRead off d s).err = s.err := rfl
@[simp] theorem logRead_arg (off : Nat) (d : Word) (s : State) : (logRead off d s).arg = s.arg := rfl
@[simp] theorem logRead_result (off : Nat) (d : Word) (s : State) : (logRead off d s).result = s.result := rfl
@[simp] theorem logRead_bitcnt (off : Nat) (d : Word) (s : State) : (logRead off d s).bitcnt = s.bitcnt := rfl
@[simp] theorem logRead_errCmd (off : Nat) (d : Word) (s : State) : (logRead off d s).errCmd = s.errCmd := rfl
@[simp] theorem logRead_errInfo (off : Nat) (d : Word) (s : State) : (logRead off d s).errInfo = s.errInfo := rfl
@[simp] theorem logRead_errIe (off : Nat) (d : Word) (s : State) : (logRead off d s).errIe = s.errIe := rfl
@[simp] theorem logRead_eosIe (off : Nat) (d : Word) (s : State) : (logRead off d s).eosIe = s.eosIe := rfl
@[simp] theorem logRead_nodeCount (off : Nat) (d : Word) (s : State) : (logRead off d s).nodeCount = s.nodeCount := rfl
@[simp] theorem logRead_root (off : Nat) (d : Word) (s : State) : (logRead off d s).root = s.root := rfl
@[simp] theorem logRead_freq (off : Nat) (d : Word) (s : State) : (logRead off d s).freq = s.freq := rfl
@[simp] theorem logRead_node (off : Nat) (d : Word) (s : State) : (logRead off d s).node = s.node := rfl
@[simp] theorem logRead_codeLen (off : Nat) (d : Word) (s : State) : (logRead off d s).codeLen = s.codeLen := rfl
@[simp] theorem logRead_code (off : Nat) (d : Word) (s : State) : (logRead off d s).code = s.code := rfl
@[simp] theorem logRead_encNpend (off : Nat) (d : Word) (s : State) : (logRead off d s).encNpend = s.encNpend := rfl
@[simp] theorem logRead_encAcc (off : Nat) (d : Word) (s : State) : (logRead off d s).encAcc = s.encAcc := rfl
@[simp] theorem logRead_decCur (off : Nat) (d : Word) (s : State) : (logRead off d s).decCur = s.decCur := rfl
@[simp] theorem logRead_outFifo (off : Nat) (d : Word) (s : State) : (logRead off d s).outFifo = s.outFifo := rfl
@[simp] theorem logRead_pendCmd (off : Nat) (d : Word) (s : State) : (logRead off d s).pendCmd = s.pendCmd := rfl
@[simp] theorem logRead_pendArg (off : Nat) (d : Word) (s : State) : (logRead off d s).pendArg = s.pendArg := rfl
@[simp] theorem logRead_resetIn (off : Nat) (d : Word) (s : State) : (logRead off d s).resetIn = s.resetIn := rfl
@[simp] theorem logRead_schedule (off : Nat) (d : Word) (s : State) : (logRead off d s).schedule = s.schedule := rfl
@[simp] theorem logRead_readLog (off : Nat) (d : Word) (s : State) : (logRead off d s).readLog = s.readLog ++ [{ off := off, data := d }] := rfl

end

/-! After SOFT_RESET (R61, R167). -/
section

@[simp] theorem softResetState_config (s : State) : (softResetState s).config = s.config := rfl
@[simp] theorem softResetState_busy (s : State) : (softResetState s).busy = false := rfl
@[simp] theorem softResetState_treeValid (s : State) : (softResetState s).treeValid = false := rfl
@[simp] theorem softResetState_codesValid (s : State) : (softResetState s).codesValid = false := rfl
@[simp] theorem softResetState_encActive (s : State) : (softResetState s).encActive = false := rfl
@[simp] theorem softResetState_decState (s : State) : (softResetState s).decState = .idle := rfl
@[simp] theorem softResetState_err (s : State) : (softResetState s).err = .noFault := rfl
@[simp] theorem softResetState_arg (s : State) : (softResetState s).arg = 0 := rfl
@[simp] theorem softResetState_result (s : State) : (softResetState s).result = 0 := rfl
@[simp] theorem softResetState_bitcnt (s : State) : (softResetState s).bitcnt = 0 := rfl
@[simp] theorem softResetState_errCmd (s : State) : (softResetState s).errCmd = 0 := rfl
@[simp] theorem softResetState_errInfo (s : State) : (softResetState s).errInfo = 0 := rfl
@[simp] theorem softResetState_errIe (s : State) : (softResetState s).errIe = s.errIe := rfl
@[simp] theorem softResetState_eosIe (s : State) : (softResetState s).eosIe = s.eosIe := rfl
@[simp] theorem softResetState_nodeCount (s : State) : (softResetState s).nodeCount = 0 := rfl
@[simp] theorem softResetState_root (s : State) : (softResetState s).root = 0 := rfl
@[simp] theorem softResetState_freq (s : State) : (softResetState s).freq = Vector.replicate 257 0 := rfl
@[simp] theorem softResetState_node (s : State) : (softResetState s).node = Vector.replicate 513 Node.unused := rfl
@[simp] theorem softResetState_codeLen (s : State) : (softResetState s).codeLen = Vector.replicate 257 0 := rfl
@[simp] theorem softResetState_code (s : State) : (softResetState s).code = Vector.replicate 257 0 := rfl
@[simp] theorem softResetState_encNpend (s : State) : (softResetState s).encNpend = 0 := rfl
@[simp] theorem softResetState_encAcc (s : State) : (softResetState s).encAcc = 0 := rfl
@[simp] theorem softResetState_decCur (s : State) : (softResetState s).decCur = 0 := rfl
@[simp] theorem softResetState_outFifo (s : State) : (softResetState s).outFifo = [] := rfl
@[simp] theorem softResetState_pendCmd (s : State) : (softResetState s).pendCmd = 0 := rfl
@[simp] theorem softResetState_pendArg (s : State) : (softResetState s).pendArg = 0 := rfl
@[simp] theorem softResetState_resetIn (s : State) : (softResetState s).resetIn = s.resetIn := rfl
@[simp] theorem softResetState_schedule (s : State) : (softResetState s).schedule = s.schedule := rfl
@[simp] theorem softResetState_readLog (s : State) : (softResetState s).readLog = s.readLog := rfl

end

/-! After hardware reset (R61, R380). -/
section

@[simp] theorem hardResetState_config (s : State) : (hardResetState s).config = s.config := rfl
@[simp] theorem hardResetState_busy (s : State) : (hardResetState s).busy = false := rfl
@[simp] theorem hardResetState_treeValid (s : State) : (hardResetState s).treeValid = false := rfl
@[simp] theorem hardResetState_codesValid (s : State) : (hardResetState s).codesValid = false := rfl
@[simp] theorem hardResetState_encActive (s : State) : (hardResetState s).encActive = false := rfl
@[simp] theorem hardResetState_decState (s : State) : (hardResetState s).decState = .idle := rfl
@[simp] theorem hardResetState_err (s : State) : (hardResetState s).err = .noFault := rfl
@[simp] theorem hardResetState_arg (s : State) : (hardResetState s).arg = 0 := rfl
@[simp] theorem hardResetState_result (s : State) : (hardResetState s).result = 0 := rfl
@[simp] theorem hardResetState_bitcnt (s : State) : (hardResetState s).bitcnt = 0 := rfl
@[simp] theorem hardResetState_errCmd (s : State) : (hardResetState s).errCmd = 0 := rfl
@[simp] theorem hardResetState_errInfo (s : State) : (hardResetState s).errInfo = 0 := rfl
@[simp] theorem hardResetState_errIe (s : State) : (hardResetState s).errIe = false := rfl
@[simp] theorem hardResetState_eosIe (s : State) : (hardResetState s).eosIe = false := rfl
@[simp] theorem hardResetState_nodeCount (s : State) : (hardResetState s).nodeCount = 0 := rfl
@[simp] theorem hardResetState_root (s : State) : (hardResetState s).root = 0 := rfl
@[simp] theorem hardResetState_freq (s : State) : (hardResetState s).freq = Vector.replicate 257 0 := rfl
@[simp] theorem hardResetState_node (s : State) : (hardResetState s).node = Vector.replicate 513 Node.unused := rfl
@[simp] theorem hardResetState_codeLen (s : State) : (hardResetState s).codeLen = Vector.replicate 257 0 := rfl
@[simp] theorem hardResetState_code (s : State) : (hardResetState s).code = Vector.replicate 257 0 := rfl
@[simp] theorem hardResetState_encNpend (s : State) : (hardResetState s).encNpend = 0 := rfl
@[simp] theorem hardResetState_encAcc (s : State) : (hardResetState s).encAcc = 0 := rfl
@[simp] theorem hardResetState_decCur (s : State) : (hardResetState s).decCur = 0 := rfl
@[simp] theorem hardResetState_outFifo (s : State) : (hardResetState s).outFifo = [] := rfl
@[simp] theorem hardResetState_pendCmd (s : State) : (hardResetState s).pendCmd = 0 := rfl
@[simp] theorem hardResetState_pendArg (s : State) : (hardResetState s).pendArg = 0 := rfl
@[simp] theorem hardResetState_resetIn (s : State) : (hardResetState s).resetIn = true := rfl
@[simp] theorem hardResetState_schedule (s : State) : (hardResetState s).schedule = s.schedule := rfl
@[simp] theorem hardResetState_readLog (s : State) : (hardResetState s).readLog = s.readLog := rfl

end

/-! After the first fault of the pending command (R345). -/
section

@[simp] theorem faulted_config (c : ErrCode) (info : Word) (s : State) : (faulted c info s).config = s.config := rfl
@[simp] theorem faulted_busy (c : ErrCode) (info : Word) (s : State) : (faulted c info s).busy = false := rfl
@[simp] theorem faulted_treeValid (c : ErrCode) (info : Word) (s : State) : (faulted c info s).treeValid = s.treeValid := rfl
@[simp] theorem faulted_codesValid (c : ErrCode) (info : Word) (s : State) : (faulted c info s).codesValid = s.codesValid := rfl
@[simp] theorem faulted_encActive (c : ErrCode) (info : Word) (s : State) : (faulted c info s).encActive = s.encActive := rfl
@[simp] theorem faulted_decState (c : ErrCode) (info : Word) (s : State) : (faulted c info s).decState = s.decState := rfl
@[simp] theorem faulted_err (c : ErrCode) (info : Word) (s : State) : (faulted c info s).err = c := rfl
@[simp] theorem faulted_arg (c : ErrCode) (info : Word) (s : State) : (faulted c info s).arg = s.arg := rfl
@[simp] theorem faulted_result (c : ErrCode) (info : Word) (s : State) : (faulted c info s).result = s.result := rfl
@[simp] theorem faulted_bitcnt (c : ErrCode) (info : Word) (s : State) : (faulted c info s).bitcnt = s.bitcnt := rfl
@[simp] theorem faulted_errCmd (c : ErrCode) (info : Word) (s : State) : (faulted c info s).errCmd = s.pendCmd := rfl
@[simp] theorem faulted_errInfo (c : ErrCode) (info : Word) (s : State) : (faulted c info s).errInfo = info := rfl
@[simp] theorem faulted_errIe (c : ErrCode) (info : Word) (s : State) : (faulted c info s).errIe = s.errIe := rfl
@[simp] theorem faulted_eosIe (c : ErrCode) (info : Word) (s : State) : (faulted c info s).eosIe = s.eosIe := rfl
@[simp] theorem faulted_nodeCount (c : ErrCode) (info : Word) (s : State) : (faulted c info s).nodeCount = s.nodeCount := rfl
@[simp] theorem faulted_root (c : ErrCode) (info : Word) (s : State) : (faulted c info s).root = s.root := rfl
@[simp] theorem faulted_freq (c : ErrCode) (info : Word) (s : State) : (faulted c info s).freq = s.freq := rfl
@[simp] theorem faulted_node (c : ErrCode) (info : Word) (s : State) : (faulted c info s).node = s.node := rfl
@[simp] theorem faulted_codeLen (c : ErrCode) (info : Word) (s : State) : (faulted c info s).codeLen = s.codeLen := rfl
@[simp] theorem faulted_code (c : ErrCode) (info : Word) (s : State) : (faulted c info s).code = s.code := rfl
@[simp] theorem faulted_encNpend (c : ErrCode) (info : Word) (s : State) : (faulted c info s).encNpend = s.encNpend := rfl
@[simp] theorem faulted_encAcc (c : ErrCode) (info : Word) (s : State) : (faulted c info s).encAcc = s.encAcc := rfl
@[simp] theorem faulted_decCur (c : ErrCode) (info : Word) (s : State) : (faulted c info s).decCur = s.decCur := rfl
@[simp] theorem faulted_outFifo (c : ErrCode) (info : Word) (s : State) : (faulted c info s).outFifo = [] := rfl
@[simp] theorem faulted_pendCmd (c : ErrCode) (info : Word) (s : State) : (faulted c info s).pendCmd = s.pendCmd := rfl
@[simp] theorem faulted_pendArg (c : ErrCode) (info : Word) (s : State) : (faulted c info s).pendArg = s.pendArg := rfl
@[simp] theorem faulted_resetIn (c : ErrCode) (info : Word) (s : State) : (faulted c info s).resetIn = s.resetIn := rfl
@[simp] theorem faulted_schedule (c : ErrCode) (info : Word) (s : State) : (faulted c info s).schedule = s.schedule := rfl
@[simp] theorem faulted_readLog (c : ErrCode) (info : Word) (s : State) : (faulted c info s).readLog = s.readLog := rfl

end

/-- The invariant does not look at the turns to come. -/
theorem State.Inv.withSchedule {s : State} (h : s.Inv) (turns : List Turn) :
    State.Inv { s with schedule := turns } := { h with }

end Sys2Proof.Machine
end

