-- ==== Sys2Proof/Laws/Bus.lean ====
section
/-! SUPPORT. What a bus access can do (20_memory.md R80 to R85): which register an offset reaches, why an
access is refused, and what a host operation leaves alone. -/

namespace Sys2Proof.Machine

/-- An offset names a register exactly when it is an aligned offset of the window (R33, R81, R83). -/
theorem regAt_isSome (off : Nat) : (regAt off).isSome = true ↔ off < 0x40 ∧ off % 4 = 0 := by
  by_cases h : off < 0x40
  · interval_cases off <;> simp [regAt]
  · have hn : regAt off = none := by
      unfold regAt
      split <;> first | omega | rfl
    simp [hn, h]

/-- The access that is answered: 32 bits wide, aligned, inside the window, reset not asserted. -/
theorem busTarget_ok {size : AccessSize} {off : Nat} {s : State} {r : Reg}
    (h : busTarget size off s = .ok r) :
    off < 0x40 ∧ size = .bits32 ∧ off % 4 = 0 ∧ s.resetIn = false ∧ regAt off = some r := by
  unfold busTarget at h
  split at h
  · cases h
  · split at h
    · cases h
    · rename_i hoff hsize
      split at h
      · cases h
      · rename_i r' hr
        split at h
        · cases h
        · rename_i hres
          cases h
          have := (regAt_isSome off).1 (by simp [hr])
          exact ⟨this.1, by simpa using hsize, this.2, by simpa using hres, hr⟩

/-- Such an access is answered. -/
theorem busTarget_of_regAt {off : Nat} {s : State} {r : Reg} (hr : regAt off = some r)
    (h : s.resetIn = false) : busTarget .bits32 off s = .ok r := by
  have := (regAt_isSome off).1 (by simp [hr])
  unfold busTarget
  rw [if_neg (by omega), if_neg (by simp), hr]
  simp [h]

/-- Every other access is refused. -/
theorem busTarget_error {size : AccessSize} {off : Nat} {s : State} {f : Refusal}
    (h : busTarget size off s = .error f) :
    size ≠ .bits32 ∨ off % 4 ≠ 0 ∨ 0x40 ≤ off ∨ s.resetIn = true := by
  unfold busTarget at h
  split at h
  · exact .inr (.inr (.inl (by assumption)))
  · split at h
    · exact .inl (by assumption)
    · split at h
      · rename_i hoff _ hr
        by_cases ha : off % 4 = 0
        · have := (regAt_isSome off).2 ⟨by omega, ha⟩
          simp [hr] at this
        · exact .inr (.inl ha)
      · split at h
        · exact .inr (.inr (.inr (by assumption)))
        · cases h

theorem busTarget_refused {size : AccessSize} {off : Nat} {s : State}
    (h : size ≠ .bits32 ∨ off % 4 ≠ 0 ∨ 0x40 ≤ off ∨ s.resetIn = true) :
    ∃ f, busTarget size off s = .error f := by
  cases hb : busTarget size off s with
  | error f => exact ⟨f, rfl⟩
  | ok r =>
    obtain ⟨h1, h2, h3, h4, -⟩ := busTarget_ok hb
    rcases h with h | h | h | h
    · exact absurd h2 h
    · exact absurd h3 h
    · omega
    · simp [h4] at h

/-- A read answered: the register's value, its one side effect, the log. -/
theorem busRead_ok {size : AccessSize} {off : Nat} {s s' : State} {w : Word}
    (h : busRead size off s = .ok (w, s')) :
    ∃ r, busTarget size off s = .ok r ∧ w = regValue s r ∧
      s' = { s with outFifo := if r = .outData then s.outFifo.tail else s.outFifo,
                    readLog := s.readLog ++ [{ off := off, data := regValue s r }] } := by
  unfold busRead at h
  split at h
  · cases h
  · rename_i r hr
    cases h
    refine ⟨r, hr, rfl, ?_⟩
    cases r <;> rfl

/-- A write answered. -/
theorem busWrite_ok {size : AccessSize} {off : Nat} {w : Word} {s s' : State}
    (h : busWrite size off w s = .ok s') :
    ∃ r, busTarget size off s = .ok r ∧ s' = writeReg r w s := by
  unfold busWrite at h
  split at h
  · cases h
  · cases h; exact ⟨_, by assumption, rfl⟩

/-- Only offset 0x14 is OUT_DATA, only 0x08 is CMD (R33). -/
theorem regAt_outData {off : Nat} (h : regAt off = some .outData) : off = 0x14 := by
  have := (regAt_isSome off).1 (by simp [h])
  obtain ⟨h1, -⟩ := this
  interval_cases off <;> simp_all [regAt]

theorem regAt_cmd {off : Nat} (h : regAt off = some .cmd) : off = 0x08 := by
  have := (regAt_isSome off).1 (by simp [h])
  obtain ⟨h1, -⟩ := this
  interval_cases off <;> simp_all [regAt]

/-- Everything a turn of the host can do when it is answered (R85, R94, R380): a read changes at most the
FIFO, the model's log and the turns to come; a write writes its register; the reset input resets the block
or is released. -/
theorem hostTurn_next {op : HostOp} {s t : State} (h : hostTurn op s = .next t) :
    (∃ off r turns, busTarget .bits32 off s = .ok r ∧
        (r = .outData → op = .read .bits32 0x14 ∨ op = .drain) ∧
        t = { s with outFifo := if r = .outData then s.outFifo.tail else s.outFifo,
                     readLog := s.readLog ++ [{ off := off, data := regValue s r }],
                     schedule := turns }) ∨
    (∃ off w r, op = .write .bits32 off w ∧ busTarget .bits32 off s = .ok r ∧ t = writeReg r w s) ∨
    (op = .assertReset ∧ t = hardResetState s) ∨
    (op = .releaseReset ∧ t = { s with resetIn := false }) := by
  have loop : ∀ off next, readThen off next s = .next t → (off = 0x14 → op = .drain) →
      (∃ off r turns, busTarget .bits32 off s = .ok r ∧
        (r = .outData → op = .read .bits32 0x14 ∨ op = .drain) ∧
        t = { s with outFifo := if r = .outData then s.outFifo.tail else s.outFifo,
                     readLog := s.readLog ++ [{ off := off, data := regValue s r }],
                     schedule := turns }) := by
    intro off next h hd
    unfold readThen at h
    split at h
    · cases h
    · rename_i hb
      cases h
      obtain ⟨r, hr, -, rfl⟩ := busRead_ok hb
      exact ⟨off, r, _, hr,
        fun ho => .inr (hd (by subst ho; exact regAt_outData (busTarget_ok hr).2.2.2.2)), rfl⟩
  cases op with
  | read size off =>
    simp only [hostTurn] at h
    split at h
    · cases h
    · rename_i hb
      cases h
      obtain ⟨r, hr, -, rfl⟩ := busRead_ok hb
      obtain ⟨-, rfl, -, -, hreg⟩ := busTarget_ok hr
      exact .inl ⟨off, r, s.schedule, hr,
        fun ho => .inl (by subst ho; rw [regAt_outData hreg]), rfl⟩
  | write size off w =>
    simp only [hostTurn] at h
    split at h
    · cases h
    · rename_i hb
      cases h
      obtain ⟨r, hr, rfl⟩ := busWrite_ok hb
      obtain ⟨-, rfl, -⟩ := busTarget_ok hr
      exact .inr (.inl ⟨off, w, r, rfl, hr, rfl⟩)
  | wait => exact .inl (loop _ _ h (by decide))
  | drain => exact .inl (loop _ _ h (fun _ => rfl))
  | safeWait => exact .inl (loop _ _ h (by decide))
  | assertReset => cases h; exact .inr (.inr (.inl ⟨rfl, rfl⟩))
  | releaseReset => cases h; exact .inr (.inr (.inr ⟨rfl, rfl⟩))

/-- No turn of the host stops with a fault of the model. -/
theorem hostTurn_not_fault (op : HostOp) (s : State) (f : Fault) : hostTurn op s ≠ .fault f := by
  cases op <;> simp only [hostTurn, readThen] <;> first | (split <;> simp) | simp

end Sys2Proof.Machine
end

