-- ==== Sys2Proof/Laws/Ops.lean ====
section
/-! SUPPORT. Everything each shared operation can do: operand indexes, taking a fault, the end of a core
step, and every command's core step as the end of one effect. -/

namespace Sys2Proof.Machine

/-! Operand indexes. -/

theorem symIndex_of_val {a : BitVec 9} {e : Fin 257} (h : a.toNat = e.val) :
    symIndex a = some e := by
  have he := e.isLt
  simp only [symIndex]
  rw [dif_pos (by omega)]
  exact congrArg some (Fin.ext h)

theorem symIndex_none {a : BitVec 9} (h : 256 < a.toNat) : symIndex a = none := by
  simp only [symIndex]; rw [dif_neg (by omega)]

theorem symIndex_some {a : BitVec 9} {e : Fin 257} (h : symIndex a = some e) : a.toNat = e.val := by
  simp only [symIndex] at h
  split at h
  · cases h; rfl
  · cases h

theorem nodeIndex_of_val {a : BitVec 10} {e : Fin 513} (h : a.toNat = e.val) :
    nodeIndex a = some e := by
  have he := e.isLt
  simp only [nodeIndex]
  rw [dif_pos (by omega)]
  exact congrArg some (Fin.ext h)

theorem nodeIndex_none {a : BitVec 10} (h : 512 < a.toNat) : nodeIndex a = none := by
  simp only [nodeIndex]; rw [dif_neg (by omega)]

theorem nodeAt_of_val (arena : Vector Node 513) {a : BitVec 10} {e : Fin 513}
    (h : a.toNat = e.val) : nodeAt arena a = some arena[e] := by
  simp [nodeAt, nodeIndex_of_val h]

theorem byteIndex_ne_eof (b : Byte) : byteIndex b ≠ eofIndex := by
  intro h
  have := congrArg Fin.val h
  have hb := b.isLt
  simp [byteIndex, eofIndex] at this
  omega

theorem byteIndex_inj {a b : Byte} (h : byteIndex a = byteIndex b) : a = b :=
  BitVec.eq_of_toNat_eq (by simpa [byteIndex] using congrArg Fin.val h)

/-- A write of one FREQ entry, read back (R86). -/
theorem freq_set_get (v : Vector Word 257) (i j : Fin 257) (x : Word) :
    (v.set i.val x)[j] = if j = i then x else v[j] := by
  simp only [Fin.getElem_fin, Vector.getElem_set]
  by_cases h : i.val = j.val
  · simp [Fin.ext h]
  · have : ¬ j = i := fun hh => h (by rw [hh])
    simp [h, this]

/-! Taking a fault (R345). -/

theorem takeFault_first {code : ErrCode} {info w : Word} {s : State} (h : s.err = .noFault) :
    takeFault code info w s =
      { s with err := code, errCmd := w, errInfo := info, outFifo := [], busy := false } := by
  simp [takeFault, h]

theorem takeFault_kept {code : ErrCode} {info w : Word} {s : State} (h : s.err ≠ .noFault) :
    takeFault code info w s = { s with outFifo := [], busy := false } := by
  simp [takeFault, h]

theorem commandFault_first {code : ErrCode} {info : Word} {s : State} (h : s.err = .noFault) :
    commandFault code info s = faulted code info s := takeFault_first h

theorem commandFault_kept {code : ErrCode} {info : Word} {s : State} (h : s.err ≠ .noFault) :
    commandFault code info s = { s with outFifo := [], busy := false } := takeFault_kept h

/-- What taking a fault can do: it changes at most ERR, ERR_CMD, ERR_INFO, the FIFO and BUSY. -/
theorem takeFault_eq (code : ErrCode) (info w : Word) (s : State) :
    takeFault code info w s =
      { s with
        err := if s.err = .noFault then code else s.err
        errCmd := if s.err = .noFault then w else s.errCmd
        errInfo := if s.err = .noFault then info else s.errInfo
        outFifo := [], busy := false } := by
  by_cases h : s.err = .noFault <;> simp [takeFault, h]

/-! The end of a core step (R161, R163). -/

theorem finish_raise (s : State) (code : ErrCode) (info : Word) :
    finish s (.error (.raise code info)) = .next (commandFault code info s) := rfl

theorem finish_stop (s : State) (f : Fault) : finish s (.error (.stop f)) = .fault f := rfl

theorem finish_commit {s s' : State} {pushed : List Byte} (h : pushed.length ≤ room s) :
    finish s (.ok (s', pushed)) =
      .next { s' with outFifo := s'.outFifo ++ pushed, busy := false } := by
  simp [finish, h]

theorem finish_hold {s s' : State} {pushed : List Byte} (h : room s < pushed.length) :
    finish s (.ok (s', pushed)) = .next s := by
  simp [finish, Nat.not_le.mpr h]

/-- A core step that pushes nothing is never held. -/
theorem finish_quiet (s s' : State) :
    finish s (.ok (s', [])) = .next { s' with busy := false } := by
  simp [finish]

/-- What the end of a core step can answer: a fault taken, a commit, or a hold. -/
theorem finish_next {s t : State} {e : Effect} (h : finish s e = .next t) :
    (∃ code info, e = .error (.raise code info) ∧ t = commandFault code info s) ∨
    (∃ s' pushed, e = .ok (s', pushed) ∧ pushed.length ≤ room s ∧
      t = { s' with outFifo := s'.outFifo ++ pushed, busy := false }) ∨
    (∃ s' pushed, e = .ok (s', pushed) ∧ room s < pushed.length ∧ t = s) := by
  match e with
  | .error (.raise code info) => cases h; exact .inl ⟨code, info, rfl, rfl⟩
  | .error (.stop f) => cases h
  | .ok (s', pushed) =>
    by_cases hp : pushed.length ≤ room s
    · rw [finish_commit hp] at h; cases h; exact .inr (.inl ⟨s', pushed, rfl, hp, rfl⟩)
    · rw [finish_hold (by omega)] at h; cases h; exact .inr (.inr ⟨s', pushed, rfl, by omega, rfl⟩)

theorem finish_not_refused (s : State) (e : Effect) (r : Refusal) : finish s e ≠ .refused r := by
  match e with
  | .error (.raise _ _) => simp [finish]
  | .error (.stop _) => simp [finish]
  | .ok (s', pushed) => by_cases hp : pushed.length ≤ room s <;> simp [finish, hp]

/-! Every command's core step is the end of one effect. -/

/-- The checks of R127 before a command's pseudocode, and then the pseudocode. -/
def checked (i : Instr) (effect : State → Effect) (s : State) : Effect :=
  if phaseOk i s then effect s else .error (.raise .sequence 0)

/-- The same with a SYM operand. -/
def checkedSym (i : Instr) (sym : BitVec 9) (effect : Fin 257 → State → Effect) (s : State) :
    Effect :=
  match symIndex sym with
  | some e => checked i (effect e) s
  | none => .error (.raise .illegalCmd 0)

/-- The same with an IDX operand. -/
def checkedIdx (i : Instr) (idx : BitVec 10) (effect : Fin 513 → State → Effect) (s : State) :
    Effect :=
  match nodeIndex idx with
  | some e => checked i (effect e) s
  | none => .error (.raise .illegalCmd 0)

/-- The effect of each command, its checks included. -/
def effectOf : Instr → State → Effect
  | .nop, s => checked .nop (fun s => .ok (s, [])) s
  | .softReset, s => checked .softReset (fun s => .ok (softResetState s, [])) s
  | .freqClear, s =>
    checked .freqClear
      (fun s => .ok (clearTreeAndCodes { s with freq := Vector.replicate 257 0 }, [])) s
  | .anaByte b, s => checked (.anaByte b) (countByte b) s
  | .anaEnd f, s =>
    checked (.anaEnd f)
      (fun s => .ok (if f then writeFreq eofIndex 1 s else clearTreeAndCodes s, [])) s
  | .freqWrite a, s =>
    checkedSym (.freqWrite a) a (fun i s => .ok (writeFreq i s.pendArg s, [])) s
  | .freqRead a, s =>
    checkedSym (.freqRead a) a (fun i s => .ok (writeResult s.freq[i] s, [])) s
  | .buildTree, s => checked .buildTree buildTree s
  | .nodeRead x f, s =>
    checkedIdx (.nodeRead x f) x (fun i s => .ok (writeResult (nodeField s.node[i] f) s, [])) s
  | .genCodes, s => checked .genCodes genCodes s
  | .codeLen a, s =>
    checkedSym (.codeLen a) a
      (fun i s => .ok (writeResult (s.codeLen[i].zeroExtend 32) s, [])) s
  | .codeBits a k, s =>
    checkedSym (.codeBits a k) a
      (fun i s => .ok (writeResult (codeChunk (codeOf s i) k) s, [])) s
  | .encBegin, s =>
    checked .encBegin
      (fun s => .ok (setEncPend [] { s with bitcnt := 0, encActive := true }, [])) s
  | .encByte b, s => checked (.encByte b) (encodeByte b) s
  | .encFinish, s => checked .encFinish finishEncode s
  | .decBegin, s =>
    checked .decBegin
      (fun s => .ok ({ s with decCur := s.root, bitcnt := 0, decState := .run }, [])) s
  | .decByte b, s => checked (.decByte b) (decodeByte b) s
  | .decEnd, s => checked .decEnd endDecode s

theorem runCommand_eq_finish (i : Instr) (effect : State → Effect) (s : State) :
    runCommand i effect s = finish s (checked i effect s) := by
  by_cases h : phaseOk i s = true <;> simp [runCommand, checked, h, finish_raise]

theorem runSymCommand_eq_finish (i : Instr) (a : BitVec 9) (effect : Fin 257 → State → Effect)
    (s : State) : runSymCommand i a effect s = finish s (checkedSym i a effect s) := by
  simp only [runSymCommand, checkedSym]
  cases symIndex a with
  | some e => exact runCommand_eq_finish _ _ _
  | none => rfl

theorem runIdxCommand_eq_finish (i : Instr) (a : BitVec 10) (effect : Fin 513 → State → Effect)
    (s : State) : runIdxCommand i a effect s = finish s (checkedIdx i a effect s) := by
  simp only [runIdxCommand, checkedIdx]
  cases nodeIndex a with
  | some e => exact runCommand_eq_finish _ _ _
  | none => rfl

/-- The core step of every command is the end of its effect: what every rule over all commands starts
from. -/
theorem exec_eq_finish (i : Instr) (s : State) : exec i s = finish s (effectOf i s) := by
  cases i <;>
    simp only [exec, effectOf, execNop, execSoftReset, execFreqClear, execAnaByte, execAnaEnd,
      execFreqWrite, execFreqRead, execBuildTree, execNodeRead, execGenCodes, execCodeLen,
      execCodeBits, execEncBegin, execEncByte, execEncFinish, execDecBegin, execDecByte, execDecEnd,
      runCommand_eq_finish, runSymCommand_eq_finish, runIdxCommand_eq_finish]

theorem checked_ok {i : Instr} {effect : State → Effect} {s s' : State} {pushed : List Byte}
    (h : checked i effect s = .ok (s', pushed)) :
    phaseOk i s = true ∧ effect s = .ok (s', pushed) := by
  unfold checked at h
  split at h
  · exact ⟨by assumption, h⟩
  · cases h

theorem checkedSym_ok {i : Instr} {a : BitVec 9} {effect : Fin 257 → State → Effect}
    {s s' : State} {pushed : List Byte} (h : checkedSym i a effect s = .ok (s', pushed)) :
    ∃ e, symIndex a = some e ∧ phaseOk i s = true ∧ effect e s = .ok (s', pushed) := by
  unfold checkedSym at h
  split at h
  · exact ⟨_, by assumption, checked_ok h⟩
  · cases h

theorem checkedIdx_ok {i : Instr} {a : BitVec 10} {effect : Fin 513 → State → Effect}
    {s s' : State} {pushed : List Byte} (h : checkedIdx i a effect s = .ok (s', pushed)) :
    ∃ e, nodeIndex a = some e ∧ phaseOk i s = true ∧ effect e s = .ok (s', pushed) := by
  unfold checkedIdx at h
  split at h
  · exact ⟨_, by assumption, checked_ok h⟩
  · cases h

end Sys2Proof.Machine
end

