-- ==== Sys2Proof/Laws/Codes.lean ====
section
/-! SUPPORT. What the walk of GEN_CODES records (43_codes.md R250): lengths of at most 256 bits and zeros
past them (10_state.md R56). -/

namespace Sys2Proof.Machine

/-- Every entry of a code table is as R56 keeps it: at most 256 bits, zeros past the length. -/
def CodeTable.Padded (t : CodeTable) : Prop :=
  ∀ i : Fin 257, t.len[i].toNat ≤ 256 ∧
    t.code[i] = packMsb 256 (unpackMsb t.code[i] t.len[i].toNat)

theorem emptyCodes_padded : emptyCodes.Padded := by
  intro i
  simp [emptyCodes]

/-- The entries of a table after one code is recorded. -/
theorem recordCode_len (i j : Fin 257) (path : Bits) (t : CodeTable) :
    (recordCode i path t).len[j] = if j = i then BitVec.ofNat 9 path.length else t.len[j] := by
  simp only [recordCode, Fin.getElem_fin, Vector.getElem_set]
  by_cases h : i.val = j.val
  · simp [Fin.ext h]
  · have : ¬ j = i := fun hh => h (by rw [hh])
    simp [h, this]

theorem recordCode_code (i j : Fin 257) (path : Bits) (t : CodeTable) :
    (recordCode i path t).code[j] = if j = i then packMsb 256 path else t.code[j] := by
  simp only [recordCode, Fin.getElem_fin, Vector.getElem_set]
  by_cases h : i.val = j.val
  · simp [Fin.ext h]
  · have : ¬ j = i := fun hh => h (by rw [hh])
    simp [h, this]

theorem recordCode_padded {i : Fin 257} {path : Bits} {t : CodeTable} (h : t.Padded)
    (hp : path.length ≤ 256) : (recordCode i path t).Padded := by
  intro j
  rw [recordCode_len, recordCode_code]
  by_cases hj : j = i
  · have hn : (BitVec.ofNat 9 path.length).toNat = path.length := by
      simp only [BitVec.toNat_ofNat]; omega
    rw [if_pos hj, if_pos hj, hn]
    exact ⟨hp, by rw [unpackMsb_packMsb hp]⟩
  · rw [if_neg hj, if_neg hj]; exact h j

/-- A walk whose path and remaining depth are at most 257 together records codes as R56 keeps them. -/
theorem walk_padded {arena : Vector Node 513} {depth : Nat} {i : BitVec 10} {path : Bits}
    {t t' : CodeTable} (h : walk arena depth i path t = .ok t') (ht : t.Padded)
    (hd : path.length + depth ≤ 257) : t'.Padded := by
  induction depth generalizing i path t t' with
  | zero => cases h
  | succ depth ih =>
    unfold walk at h
    split at h
    · cases h; exact ht
    · split at h
      · cases h
      · split at h
        · split at h
          · cases h; exact recordCode_padded ht (by omega)
          · cases h
        · split at h
          · cases h
          · rename_i h1
            exact ih h (ih h1 ht (by simp; omega)) (by simp; omega)

/-- The codes GEN_CODES writes are as R56 keeps them. -/
theorem codesOf_padded {arena : Vector Node 513} {root : BitVec 10} {c : CodeTable}
    (h : codesOf arena root = .ok c) : c.Padded :=
  walk_padded h emptyCodes_padded (by simp)

end Sys2Proof.Machine
end

