-- ==== Sys2Proof/Laws/Effects.lean ====
section
/-! SUPPORT. What each command's pseudocode can do: one lemma for each, what it gives when it completes
and how it can end early; then what all of them leave alone. -/

namespace Sys2Proof.Machine

/-- ANA_BYTE either counts the byte or raises COUNT_OVERFLOW (R192). -/
theorem countByte_ok {b : Byte} {s s' : State} {out : List Byte} (h : countByte b s = .ok (s', out)) :
    s.freq[byteIndex b] ≠ 0xFFFFFFFF ∧
      s' = writeFreq (byteIndex b) (s.freq[byteIndex b] + 1) s ∧ out = [] := by
  unfold countByte at h
  split at h
  · cases h
  · cases h; exact ⟨by assumption, rfl, rfl⟩

theorem countByte_error {b : Byte} {s : State} {a : Abort} (h : countByte b s = .error a) :
    a = .raise .countOverflow (b.zeroExtend 32) := by
  unfold countByte at h
  split at h
  · cases h; rfl
  · cases h

/-- BUILD_TREE either writes the tree of FREQ or raises INVALID_INPUT (R221). -/
theorem buildTree_ok {s s' : State} {out : List Byte} (h : buildTree s = .ok (s', out)) :
    ∃ t, treeOf s.freq = some t ∧ out = [] ∧
      s' = { s with node := t.node, nodeCount := t.nodeCount, root := t.root, treeValid := true,
                    codesValid := false } := by
  unfold buildTree at h
  split at h
  · cases h
  · cases h; exact ⟨_, by assumption, rfl, rfl⟩

theorem buildTree_error {s : State} {a : Abort} (h : buildTree s = .error a) :
    treeOf s.freq = none ∧ a = .raise .invalidInput 0 := by
  unfold buildTree at h
  split at h
  · cases h; exact ⟨by assumption, rfl⟩
  · cases h

/-- GEN_CODES either writes the codes of the tree or the model stops (R250). -/
theorem genCodes_ok {s s' : State} {out : List Byte} (h : genCodes s = .ok (s', out)) :
    ∃ c, codesOf s.node s.root = .ok c ∧ out = [] ∧
      s' = { s with codeLen := c.len, code := c.code, codesValid := true } := by
  unfold genCodes at h
  split at h
  · cases h
  · cases h; exact ⟨_, by assumption, rfl, rfl⟩

/-- The walk raises no fault of the block: it can only be stopped by the model (R251). -/
theorem walk_error {arena : Vector Node 513} {depth : Nat} {i : BitVec 10} {p : Bits} {t : CodeTable}
    {a : Abort} (h : walk arena depth i p t = .error a) : ∃ f, a = .stop f := by
  induction depth generalizing i p t with
  | zero => cases h; exact ⟨_, rfl⟩
  | succ depth ih =>
    unfold walk at h
    split at h
    · cases h
    · split at h
      · cases h; exact ⟨_, rfl⟩
      · split at h
        · split at h
          · cases h
          · cases h; exact ⟨_, rfl⟩
        · split at h
          · cases h; exact ih (by assumption)
          · exact ih h

theorem genCodes_error {s : State} {a : Abort} (h : genCodes s = .error a) : ∃ f, a = .stop f := by
  unfold genCodes at h
  split at h
  · cases h; exact walk_error (by assumption)
  · cases h

/-- ENC_BYTE either appends the byte's code or raises PROTOCOL (R282). -/
theorem encodeByte_ok {b : Byte} {s s' : State} {out : List Byte}
    (h : encodeByte b s = .ok (s', out)) :
    s.codeLen[byteIndex b] ≠ 0 ∧
      out = (putBits { pend := encPend s, out := [] } (codeOf s (byteIndex b))).out ∧
      s' = setEncPend (putBits { pend := encPend s, out := [] } (codeOf s (byteIndex b))).pend
        { s with bitcnt := s.bitcnt + BitVec.ofNat 64 (codeOf s (byteIndex b)).length } := by
  unfold encodeByte at h
  split at h
  · cases h
  · cases h; exact ⟨by assumption, rfl, rfl⟩

theorem encodeByte_error {b : Byte} {s : State} {a : Abort} (h : encodeByte b s = .error a) :
    a = .raise .protocol (b.zeroExtend 32) := by
  unfold encodeByte at h
  split at h
  · cases h; rfl
  · cases h

/-- ENC_FINISH either appends EOF's code, flushes and closes, or raises PROTOCOL (R283). -/
theorem finishEncode_ok {s s' : State} {out : List Byte} (h : finishEncode s = .ok (s', out)) :
    s.codeLen[eofIndex] ≠ 0 ∧
      out = (flush (putBits { pend := encPend s, out := [] } (codeOf s eofIndex))).out ∧
      s' = setEncPend (flush (putBits { pend := encPend s, out := [] } (codeOf s eofIndex))).pend
        { s with bitcnt := s.bitcnt + BitVec.ofNat 64 (codeOf s eofIndex).length,
                 encActive := false } := by
  unfold finishEncode at h
  split at h
  · cases h
  · cases h; exact ⟨by assumption, rfl, rfl⟩

theorem finishEncode_error {s : State} {a : Abort} (h : finishEncode s = .error a) :
    a = .raise .protocol 0x00000100 := by
  unfold finishEncode at h
  split at h
  · cases h; rfl
  · cases h

/-- One decoded bit either moves the walk, raises BAD_PATH, or the model stops (R310). A walk that
moves has taken one bit, pushed at most one byte and stays in RUN or reaches EOS. -/
theorem takeBit_ok {arena : Vector Node 513} {root : BitVec 10} {n : BitVec 3} {x : Bool}
    {w w' : TreeWalk} (h : takeBit arena root n x w = .ok w') :
    ∃ here e, nodeAt arena w.cur = some here ∧ childOf here x ≠ nilIdx ∧
      nodeAt arena (childOf here x) = some e ∧ w' = arrive root (childOf here x) e w := by
  unfold takeBit at h
  split at h
  · cases h
  · split at h
    · cases h
    · split at h
      · cases h
      · cases h; exact ⟨_, _, by assumption, by assumption, by assumption, rfl⟩

theorem takeBit_error {arena : Vector Node 513} {root : BitVec 10} {n : BitVec 3} {x : Bool}
    {w : TreeWalk} {a : Abort} (h : takeBit arena root n x w = .error a) :
    a = .stop .noSuchNode ∨ a = .raise .badPath (badPathInfo n w.cur) := by
  unfold takeBit at h
  split at h
  · cases h; exact .inl rfl
  · split at h
    · cases h; exact .inr rfl
    · split at h
      · cases h; exact .inl rfl
      · cases h

/-- What arriving at a node changes (R310). -/
theorem arrive_spec (root nxt : BitVec 10) (e : Node) (w : TreeWalk) :
    (arrive root nxt e w).bitcnt = w.bitcnt + 1 ∧
      (∃ o, (arrive root nxt e w).out = w.out ++ o ∧ o.length ≤ 1) ∧
      ((arrive root nxt e w).state = w.state ∨ (arrive root nxt e w).state = .eos) := by
  unfold arrive
  split
  · split
    · exact ⟨rfl, ⟨[], by simp⟩, .inr rfl⟩
    · exact ⟨rfl, ⟨_, rfl, by simp⟩, .inl rfl⟩
  · exact ⟨rfl, ⟨[], by simp⟩, .inl rfl⟩

/-- What the bits of a DEC_BYTE do together (R312): as many bits are counted as were taken, at most one
byte is pushed for each, all of them are taken unless EOS is reached, and the state moves at most to
EOS. -/
theorem takeBits_ok {arena : Vector Node 513} {root : BitVec 10} {bits : List (BitVec 3 × Bool)}
    {w w' : TreeWalk} (h : takeBits arena root bits w = .ok w') :
    ∃ taken o, taken ≤ bits.length ∧ w'.bitcnt = w.bitcnt + BitVec.ofNat 64 taken ∧
      w'.out = w.out ++ o ∧ o.length ≤ taken ∧ (w'.state = w.state ∨ w'.state = .eos) ∧
      (w'.state ≠ .eos → taken = bits.length) := by
  induction bits generalizing w with
  | nil => cases h; exact ⟨0, [], by simp⟩
  | cons b rest ih =>
    obtain ⟨n, x⟩ := b
    unfold takeBits at h
    split at h
    · rename_i he
      cases h
      exact ⟨0, [], by simp, by simp, by simp, by simp, .inl rfl, fun hn => absurd he hn⟩
    · split at h
      · cases h
      · rename_i w1 h1
        obtain ⟨here, e, -, -, -, rfl⟩ := takeBit_ok h1
        obtain ⟨hb, ⟨o1, ho1, hl1⟩, hs1⟩ := arrive_spec root (childOf here x) e w
        obtain ⟨taken, o, ht, hbc, ho, hl, hs, hall⟩ := ih h
        refine ⟨taken + 1, o1 ++ o, by simp; omega, ?_, ?_, by simp; omega, ?_, ?_⟩
        · rw [hbc, hb, BitVec.add_assoc, BitVec.add_comm 1, BitVec.ofNat_add]; rfl
        · rw [ho, ho1, List.append_assoc]
        · rcases hs with hs | hs
          · rw [hs]; exact hs1
          · exact .inr hs
        · intro hn; simp [hall hn]

theorem takeBits_error {arena : Vector Node 513} {root : BitVec 10}
    {bits : List (BitVec 3 × Bool)} {w : TreeWalk} {a : Abort}
    (h : takeBits arena root bits w = .error a) :
    a = .stop .noSuchNode ∨ ∃ info, a = .raise .badPath info := by
  induction bits generalizing w with
  | nil => cases h
  | cons b rest ih =>
    obtain ⟨n, x⟩ := b
    unfold takeBits at h
    split at h
    · cases h
    · split at h
      · cases h
        rename_i h1
        rcases takeBit_error h1 with h2 | h2
        · exact .inl h2
        · exact .inr ⟨_, h2⟩
      · exact ih h

/-- DEC_BYTE writes the walk's cursor, bit count and decoder state (R312). -/
theorem decodeByte_ok {y : Byte} {s s' : State} {out : List Byte}
    (h : decodeByte y s = .ok (s', out)) :
    ∃ w, takeBits s.node s.root (operandBits y) (walkStart s) = .ok w ∧ out = w.out ∧
      s' = { s with decCur := w.cur, bitcnt := w.bitcnt, decState := w.state } := by
  unfold decodeByte at h
  split at h
  · cases h
  · cases h; exact ⟨_, by assumption, rfl, rfl⟩

theorem decodeByte_error {y : Byte} {s : State} {a : Abort} (h : decodeByte y s = .error a) :
    a = .stop .noSuchNode ∨ ∃ info, a = .raise .badPath info := by
  unfold decodeByte at h
  split at h
  · cases h; exact takeBits_error (by assumption)
  · cases h

/-- DEC_END either closes the decode or raises TRUNCATED_STREAM (R315). -/
theorem endDecode_ok {s s' : State} {out : List Byte} (h : endDecode s = .ok (s', out)) :
    s.decState ≠ .run ∧ s' = { s with decState := .idle } ∧ out = [] := by
  unfold endDecode at h
  split at h
  · cases h
  · cases h; exact ⟨by assumption, rfl, rfl⟩

theorem endDecode_error {s : State} {a : Abort} (h : endDecode s = .error a) :
    s.decState = .run ∧ a = .raise .truncatedStream (s.decCur.zeroExtend 32) := by
  unfold endDecode at h
  split at h
  · cases h; exact ⟨by assumption, rfl⟩
  · cases h

/-! What a command can give when it completes, for every command. -/

/-- The effect of a command that completes, case by case. -/
theorem effectOf_ok {i : Instr} {s s' : State} {out : List Byte}
    (h : effectOf i s = .ok (s', out)) :
    phaseOk i s = true ∧
    match i with
    | .nop => s' = s ∧ out = []
    | .softReset => s' = softResetState s ∧ out = []
    | .freqClear => s' = clearTreeAndCodes { s with freq := Vector.replicate 257 0 } ∧ out = []
    | .anaByte b => s.freq[byteIndex b] ≠ 0xFFFFFFFF ∧
        s' = writeFreq (byteIndex b) (s.freq[byteIndex b] + 1) s ∧ out = []
    | .anaEnd f => s' = (if f then writeFreq eofIndex 1 s else clearTreeAndCodes s) ∧ out = []
    | .freqWrite a => ∃ e, symIndex a = some e ∧ s' = writeFreq e s.pendArg s ∧ out = []
    | .freqRead a => ∃ e, symIndex a = some e ∧ s' = writeResult s.freq[e] s ∧ out = []
    | .buildTree => ∃ t, treeOf s.freq = some t ∧ out = [] ∧
        s' = { s with node := t.node, nodeCount := t.nodeCount, root := t.root,
                      treeValid := true, codesValid := false }
    | .nodeRead x f => ∃ e, nodeIndex x = some e ∧ s' = writeResult (nodeField s.node[e] f) s ∧
        out = []
    | .genCodes => ∃ c, codesOf s.node s.root = .ok c ∧ out = [] ∧
        s' = { s with codeLen := c.len, code := c.code, codesValid := true }
    | .codeLen a => ∃ e, symIndex a = some e ∧
        s' = writeResult (s.codeLen[e].zeroExtend 32) s ∧ out = []
    | .codeBits a k => ∃ e, symIndex a = some e ∧
        s' = writeResult (codeChunk (codeOf s e) k) s ∧ out = []
    | .encBegin => s' = setEncPend [] { s with bitcnt := 0, encActive := true } ∧ out = []
    | .encByte b => s.codeLen[byteIndex b] ≠ 0 ∧
        out = (putBits { pend := encPend s, out := [] } (codeOf s (byteIndex b))).out ∧
        s' = setEncPend (putBits { pend := encPend s, out := [] } (codeOf s (byteIndex b))).pend
          { s with bitcnt := s.bitcnt + BitVec.ofNat 64 (codeOf s (byteIndex b)).length }
    | .encFinish => s.codeLen[eofIndex] ≠ 0 ∧
        out = (flush (putBits { pend := encPend s, out := [] } (codeOf s eofIndex))).out ∧
        s' = setEncPend (flush (putBits { pend := encPend s, out := [] } (codeOf s eofIndex))).pend
          { s with bitcnt := s.bitcnt + BitVec.ofNat 64 (codeOf s eofIndex).length,
                   encActive := false }
    | .decBegin => s' = { s with decCur := s.root, bitcnt := 0, decState := .run } ∧ out = []
    | .decByte y => ∃ w, takeBits s.node s.root (operandBits y) (walkStart s) = .ok w ∧
        out = w.out ∧ s' = { s with decCur := w.cur, bitcnt := w.bitcnt, decState := w.state }
    | .decEnd => s.decState ≠ .run ∧ s' = { s with decState := .idle } ∧ out = [] := by
  cases i <;> rw [effectOf] at h
  case nop => obtain ⟨hp, h⟩ := checked_ok h; cases h; exact ⟨hp, rfl, rfl⟩
  case softReset => obtain ⟨hp, h⟩ := checked_ok h; cases h; exact ⟨hp, rfl, rfl⟩
  case freqClear => obtain ⟨hp, h⟩ := checked_ok h; cases h; exact ⟨hp, rfl, rfl⟩
  case anaByte b => obtain ⟨hp, h⟩ := checked_ok h; exact ⟨hp, countByte_ok h⟩
  case anaEnd f => obtain ⟨hp, h⟩ := checked_ok h; cases h; exact ⟨hp, rfl, rfl⟩
  case freqWrite a => obtain ⟨e, he, hp, h⟩ := checkedSym_ok h; cases h; exact ⟨hp, e, he, rfl, rfl⟩
  case freqRead a => obtain ⟨e, he, hp, h⟩ := checkedSym_ok h; cases h; exact ⟨hp, e, he, rfl, rfl⟩
  case buildTree => obtain ⟨hp, h⟩ := checked_ok h; exact ⟨hp, buildTree_ok h⟩
  case nodeRead x f => obtain ⟨e, he, hp, h⟩ := checkedIdx_ok h; cases h; exact ⟨hp, e, he, rfl, rfl⟩
  case genCodes => obtain ⟨hp, h⟩ := checked_ok h; exact ⟨hp, genCodes_ok h⟩
  case codeLen a => obtain ⟨e, he, hp, h⟩ := checkedSym_ok h; cases h; exact ⟨hp, e, he, rfl, rfl⟩
  case codeBits a k => obtain ⟨e, he, hp, h⟩ := checkedSym_ok h; cases h; exact ⟨hp, e, he, rfl, rfl⟩
  case encBegin => obtain ⟨hp, h⟩ := checked_ok h; cases h; exact ⟨hp, rfl, rfl⟩
  case encByte b => obtain ⟨hp, h⟩ := checked_ok h; exact ⟨hp, encodeByte_ok h⟩
  case encFinish => obtain ⟨hp, h⟩ := checked_ok h; exact ⟨hp, finishEncode_ok h⟩
  case decBegin => obtain ⟨hp, h⟩ := checked_ok h; cases h; exact ⟨hp, rfl, rfl⟩
  case decByte y => obtain ⟨hp, h⟩ := checked_ok h; exact ⟨hp, decodeByte_ok h⟩
  case decEnd => obtain ⟨hp, h⟩ := checked_ok h; exact ⟨hp, endDecode_ok h⟩

theorem checked_error {i : Instr} {effect : State → Effect} {s : State} {a : Abort}
    (h : checked i effect s = .error a) :
    (phaseOk i s = false ∧ a = .raise .sequence 0) ∨ (phaseOk i s = true ∧ effect s = .error a) := by
  unfold checked at h
  split at h
  case isTrue hp => exact .inr ⟨hp, h⟩
  case isFalse hp => cases h; exact .inl ⟨by simpa using hp, rfl⟩

theorem symIndex_eq_none {a : BitVec 9} (h : symIndex a = none) : symLegal a = false := by
  simp only [symIndex] at h
  split at h
  · cases h
  · simp [symLegal]; omega

theorem nodeIndex_eq_none {a : BitVec 10} (h : nodeIndex a = none) : idxLegal a = false := by
  simp only [nodeIndex] at h
  split at h
  · cases h
  · simp [idxLegal]; omega

theorem checkedSym_error {i : Instr} {n : BitVec 9} {effect : Fin 257 → State → Effect} {s : State}
    {a : Abort} (h : checkedSym i n effect s = .error a) :
    (symLegal n = false ∧ a = .raise .illegalCmd 0) ∨
    (phaseOk i s = false ∧ a = .raise .sequence 0) ∨
    (phaseOk i s = true ∧ ∃ e, effect e s = .error a) := by
  unfold checkedSym at h
  split at h
  · rcases checked_error h with h | ⟨h1, h2⟩
    · exact .inr (.inl h)
    · exact .inr (.inr ⟨h1, _, h2⟩)
  · cases h; exact .inl ⟨symIndex_eq_none (by assumption), rfl⟩

theorem checkedIdx_error {i : Instr} {n : BitVec 10} {effect : Fin 513 → State → Effect} {s : State}
    {a : Abort} (h : checkedIdx i n effect s = .error a) :
    (idxLegal n = false ∧ a = .raise .illegalCmd 0) ∨
    (phaseOk i s = false ∧ a = .raise .sequence 0) ∨
    (phaseOk i s = true ∧ ∃ e, effect e s = .error a) := by
  unfold checkedIdx at h
  split at h
  · rcases checked_error h with h | ⟨h1, h2⟩
    · exact .inr (.inl h)
    · exact .inr (.inr ⟨h1, _, h2⟩)
  · cases h; exact .inl ⟨nodeIndex_eq_none (by assumption), rfl⟩

/-- How a command can end early: out of range, out of phase, or by its own fault; only GEN_CODES and
DEC_BYTE can be stopped by the model. -/
theorem effectOf_error {i : Instr} {s : State} {a : Abort} (h : effectOf i s = .error a) :
    (i.wellFormed = false ∧ a = .raise .illegalCmd 0) ∨
    (phaseOk i s = false ∧ a = .raise .sequence 0) ∨
    (phaseOk i s = true ∧
      match i with
      | .anaByte b => a = .raise .countOverflow (b.zeroExtend 32)
      | .buildTree => a = .raise .invalidInput 0
      | .genCodes => ∃ f, codesOf s.node s.root = .error (.stop f) ∧ a = .stop f
      | .encByte b => a = .raise .protocol (b.zeroExtend 32)
      | .encFinish => a = .raise .protocol 0x00000100
      | .decByte y => takeBits s.node s.root (operandBits y) (walkStart s) = .error a ∧
          (a = .stop .noSuchNode ∨ ∃ info, a = .raise .badPath info)
      | .decEnd => a = .raise .truncatedStream (s.decCur.zeroExtend 32)
      | _ => False) := by
  cases i <;> rw [effectOf] at h
  case anaByte b =>
    rcases checked_error h with h | ⟨hp, h⟩
    · exact .inr (.inl h)
    · exact .inr (.inr ⟨hp, countByte_error h⟩)
  case buildTree =>
    rcases checked_error h with h | ⟨hp, h⟩
    · exact .inr (.inl h)
    · exact .inr (.inr ⟨hp, (buildTree_error h).2⟩)
  case genCodes =>
    rcases checked_error h with h | ⟨hp, h⟩
    · exact .inr (.inl h)
    · obtain ⟨f, rfl⟩ := genCodes_error h
      refine .inr (.inr ⟨hp, f, ?_, rfl⟩)
      unfold genCodes at h
      split at h
      · cases h; assumption
      · cases h
  case encByte b =>
    rcases checked_error h with h | ⟨hp, h⟩
    · exact .inr (.inl h)
    · exact .inr (.inr ⟨hp, encodeByte_error h⟩)
  case encFinish =>
    rcases checked_error h with h | ⟨hp, h⟩
    · exact .inr (.inl h)
    · exact .inr (.inr ⟨hp, finishEncode_error h⟩)
  case decByte y =>
    rcases checked_error h with h | ⟨hp, h⟩
    · exact .inr (.inl h)
    · refine .inr (.inr ⟨hp, ?_, decodeByte_error h⟩)
      unfold decodeByte at h
      split at h
      · cases h; assumption
      · cases h
  case decEnd =>
    rcases checked_error h with h | ⟨hp, h⟩
    · exact .inr (.inl h)
    · exact .inr (.inr ⟨hp, (endDecode_error h).2⟩)
  case freqWrite n =>
    rcases checkedSym_error h with h | h | ⟨-, e, h⟩
    · exact .inl h
    · exact .inr (.inl h)
    · cases h
  case freqRead n =>
    rcases checkedSym_error h with h | h | ⟨-, e, h⟩
    · exact .inl h
    · exact .inr (.inl h)
    · cases h
  case codeLen n =>
    rcases checkedSym_error h with h | h | ⟨-, e, h⟩
    · exact .inl h
    · exact .inr (.inl h)
    · cases h
  case codeBits n k =>
    rcases checkedSym_error h with h | h | ⟨-, e, h⟩
    · exact .inl h
    · exact .inr (.inl h)
    · cases h
  case nodeRead n f =>
    rcases checkedIdx_error h with h | h | ⟨-, e, h⟩
    · exact .inl h
    · exact .inr (.inl h)
    · cases h
  all_goals
    rcases checked_error h with h | ⟨-, h⟩
    · exact .inr (.inl h)
    · simp at h

/-- What no command that completes touches, and what only SOFT_RESET touches (R44, R50, R167): the
host's registers, the fault record, the pending command, the FIFO's bytes, and all that stands outside
the block. -/
theorem effectOf_keeps {i : Instr} {s s' : State} {out : List Byte}
    (h : effectOf i s = .ok (s', out)) :
    s'.config = s.config ∧ s'.errIe = s.errIe ∧ s'.eosIe = s.eosIe ∧ s'.resetIn = s.resetIn ∧
      s'.schedule = s.schedule ∧ s'.readLog = s.readLog ∧
    (i ≠ .softReset → s'.err = s.err ∧ s'.errCmd = s.errCmd ∧ s'.errInfo = s.errInfo ∧
      s'.arg = s.arg ∧ s'.pendCmd = s.pendCmd ∧ s'.pendArg = s.pendArg ∧
      s'.outFifo = s.outFifo) := by
  obtain ⟨-, h⟩ := effectOf_ok h
  cases i
  case nop => obtain ⟨rfl, -⟩ := h; simp
  case softReset => obtain ⟨rfl, -⟩ := h; simp
  case freqClear => obtain ⟨rfl, -⟩ := h; simp
  case anaByte b => obtain ⟨-, rfl, -⟩ := h; simp
  case anaEnd f => obtain ⟨rfl, -⟩ := h; split <;> simp
  case freqWrite a => obtain ⟨e, -, rfl, -⟩ := h; simp
  case freqRead a => obtain ⟨e, -, rfl, -⟩ := h; simp
  case buildTree => obtain ⟨t, -, -, rfl⟩ := h; simp
  case nodeRead x f => obtain ⟨e, -, rfl, -⟩ := h; simp
  case genCodes => obtain ⟨c, -, -, rfl⟩ := h; simp
  case codeLen a => obtain ⟨e, -, rfl, -⟩ := h; simp
  case codeBits a k => obtain ⟨e, -, rfl, -⟩ := h; simp
  case encBegin => obtain ⟨rfl, -⟩ := h; simp
  case encByte b => obtain ⟨-, -, rfl⟩ := h; simp
  case encFinish => obtain ⟨-, -, rfl⟩ := h; simp
  case decBegin => obtain ⟨rfl, -⟩ := h; simp
  case decByte y => obtain ⟨w, -, -, rfl⟩ := h; simp
  case decEnd => obtain ⟨-, rfl, -⟩ := h; simp

/-- What a core step can answer: a fault taken, a completion, or a hold; a command that takes no fault
and pushes nothing is never held. -/
theorem exec_next {i : Instr} {s t : State} (h : exec i s = .next t) :
    (∃ code info, effectOf i s = .error (.raise code info) ∧ t = commandFault code info s) ∨
    (∃ s' out, effectOf i s = .ok (s', out) ∧ out.length ≤ room s ∧
      t = { s' with outFifo := s'.outFifo ++ out, busy := false }) ∨
    (∃ s' out, effectOf i s = .ok (s', out) ∧ room s < out.length ∧ t = s) :=
  finish_next (exec_eq_finish i s ▸ h)

/-- A command's effect does not depend on ARG, INT_EN or what stands outside the block, and carries them
along (R44, R163). -/
theorem effectOf_outside {i : Instr} (s : State) (hi : i ≠ .softReset) (a : Word) (e o ri : Bool)
    (sc : List Turn) (lg : List BusReply) :
    effectOf i { s with arg := a, errIe := e, eosIe := o, resetIn := ri, schedule := sc,
                        readLog := lg } =
      match effectOf i s with
      | .ok (s', out) =>
        .ok ({ s' with arg := a, errIe := e, eosIe := o, resetIn := ri, schedule := sc,
                       readLog := lg }, out)
      | .error x => .error x := by
  generalize hs : ({ s with arg := a, errIe := e, eosIe := o, resetIn := ri, schedule := sc,
                            readLog := lg } : State) = s2
  have hph : phaseOk i s2 = phaseOk i s := by subst hs; cases i <;> rfl
  cases hp : phaseOk i s with
  | false =>
    cases i <;> simp only [effectOf, checked, checkedSym, checkedIdx, hph, hp] <;>
      first | rfl | (split <;> rfl)
  | true =>
    subst hs
    cases i
    case softReset => exact absurd rfl hi
    case anaByte b =>
      simp only [effectOf, checked, hph, hp, countByte, if_true]
      by_cases h : s.freq[byteIndex b] = 0xFFFFFFFF
      · simp only [h, if_true]
      · simp only [h, if_false]; rfl
    case buildTree =>
      simp only [effectOf, checked, hph, hp, buildTree, if_true]
      cases treeOf s.freq <;> rfl
    case genCodes =>
      simp only [effectOf, checked, hph, hp, genCodes, if_true]
      cases codesOf s.node s.root <;> rfl
    case encByte b =>
      simp only [effectOf, checked, hph, hp, encodeByte, if_true]
      by_cases h : s.codeLen[byteIndex b] = 0
      · simp only [h, if_true]
      · simp only [h, if_false]; rfl
    case encFinish =>
      simp only [effectOf, checked, hph, hp, finishEncode, if_true]
      by_cases h : s.codeLen[eofIndex] = 0
      · simp only [h, if_true]
      · simp only [h, if_false]; rfl
    case decByte b =>
      simp only [effectOf, checked, hph, hp, decodeByte, walkStart, if_true]
      cases takeBits s.node s.root (operandBits b) _ <;> rfl
    case decEnd =>
      simp only [effectOf, checked, hph, hp, endDecode, if_true]
      by_cases h : s.decState = .run <;> simp only [h, if_true, if_false]
    case freqRead n =>
      simp only [effectOf, checkedSym, checked, hph, hp, if_true]; cases symIndex n <;> rfl
    case freqWrite n =>
      simp only [effectOf, checkedSym, checked, hph, hp, if_true]; cases symIndex n <;> rfl
    case codeLen n =>
      simp only [effectOf, checkedSym, checked, hph, hp, if_true]; cases symIndex n <;> rfl
    case codeBits n k =>
      simp only [effectOf, checkedSym, checked, hph, hp, if_true]; cases symIndex n <;> rfl
    case nodeRead n f =>
      simp only [effectOf, checkedIdx, checked, hph, hp, if_true]; cases nodeIndex n <;> rfl
    case anaEnd f => simp only [effectOf, checked, hph, hp, if_true]; cases f <;> rfl
    case freqClear => simp only [effectOf, checked, hph, hp, if_true]; rfl
    case encBegin => simp only [effectOf, checked, hph, hp, if_true]; rfl
    all_goals simp only [effectOf, checked, hph, hp, if_true]

end Sys2Proof.Machine
end

