-- ==== Sys2Proof/Laws/Encoder.lean ====
section
/-! SUPPORT. What the bit packer does to a whole bitstring (44_encoder.md R280): how many bytes it pushes,
what they hold and what stays pending. -/

namespace Sys2Proof.Machine

/-- The bits of pushed bytes, first bit of the first byte first (R89). -/
def bitsOfBytes (out : List Byte) : Bits := out.flatMap fun b => unpackMsb b 8

@[simp] theorem bitsOfBytes_nil : bitsOfBytes [] = [] := rfl

@[simp] theorem bitsOfBytes_append (a b : List Byte) :
    bitsOfBytes (a ++ b) = bitsOfBytes a ++ bitsOfBytes b := by simp [bitsOfBytes]

@[simp] theorem bitsOfBytes_cons (b : Byte) (out : List Byte) :
    bitsOfBytes (b :: out) = unpackMsb b 8 ++ bitsOfBytes out := rfl

@[simp] theorem length_bitsOfBytes (out : List Byte) : (bitsOfBytes out).length = 8 * out.length := by
  induction out with
  | nil => rfl
  | cons b out ih => simp [ih]; omega

/-- Bit i of the pushed bits stands in byte i / 8, at place i % 8 from the top. -/
theorem getD_bitsOfBytes (out : List Byte) (i : Nat) :
    (bitsOfBytes out).getD i false = (decide (i < 8 * out.length) &&
      (out.getD (i / 8) 0).getMsbD (i % 8)) := by
  induction out generalizing i with
  | nil => simp
  | cons b out ih =>
    rw [bitsOfBytes_cons]
    by_cases h : i < 8
    · have h0 : i / 8 = 0 := by omega
      have h1 : i % 8 = i := by omega
      rw [List.getD_append _ _ _ _ (by simpa using h), getD_unpackMsb, h0, h1]
      simp [h]
      intro _; omega
    · rw [List.getD_append_right _ _ _ _ (by simpa using h), length_unpackMsb, ih]
      have h0 : i / 8 = (i - 8) / 8 + 1 := by omega
      have h1 : (i - 8) % 8 = i % 8 := by omega
      have h2 : (decide (i - 8 < 8 * out.length)) = decide (i < 8 * (b :: out).length) := by
        simp only [List.length_cons, decide_eq_decide]; omega
      rw [h0, h1, h2]
      simp

/-- A byte of eight packed bits holds those bits. -/
theorem unpack_pack_byte {p : Bits} (h : p.length = 8) : unpackMsb (packMsb 8 p) 8 = p := by
  have := unpackMsb_packMsb (w := 8) (p := p) (by omega)
  rwa [h] at this

/-- One bit put (R280): the bits pushed and the bits pending together grow by it; fewer than 8 stay
pending. -/
theorem putBit_spec (k : Packer) (b : Bool) (h : k.pend.length < 8) :
    (putBit k b).pend.length < 8 ∧
      ∃ o, (putBit k b).out = k.out ++ o ∧
        bitsOfBytes o ++ (putBit k b).pend = k.pend ++ [b] := by
  unfold putBit
  split
  · rename_i h8
    refine ⟨by simp, [_], rfl, ?_⟩
    have hp : (k.pend ++ [b]).length = 8 := by simp [h8]
    simp [unpack_pack_byte hp]
  · refine ⟨by simp; omega, [], by simp, by simp⟩

/-- put_bits (R280): what is pushed and what is pending are together the old pending bits and the new
ones, and fewer than 8 bits stay pending. -/
theorem putBits_spec (p : Bits) (k : Packer) (h : k.pend.length < 8) :
    (putBits k p).pend.length < 8 ∧
      ∃ o, (putBits k p).out = k.out ++ o ∧ bitsOfBytes o ++ (putBits k p).pend = k.pend ++ p := by
  induction p generalizing k with
  | nil => exact ⟨h, [], by simp [putBits], by simp [putBits]⟩
  | cons b p ih =>
    obtain ⟨h1, o1, ho1, hb1⟩ := putBit_spec k b h
    obtain ⟨h2, o2, ho2, hb2⟩ := ih (putBit k b) h1
    refine ⟨h2, o1 ++ o2, ?_, ?_⟩
    · show (putBits (putBit k b) p).out = _
      rw [ho2, ho1, List.append_assoc]
    · show bitsOfBytes (o1 ++ o2) ++ (putBits (putBit k b) p).pend = _
      rw [bitsOfBytes_append, List.append_assoc, hb2, ← List.append_assoc, hb1]
      simp

/-- A packer that starts with nothing pushed (R282): floor(len / 8) bytes are pushed and the rest of the
bits stays pending. -/
theorem putBits_from_empty (p q : Bits) (h : q.length < 8) :
    (putBits { pend := q, out := [] } p).out.length = (q ++ p).length / 8 ∧
      bitsOfBytes (putBits { pend := q, out := [] } p).out =
        (q ++ p).take (8 * ((q ++ p).length / 8)) ∧
      (putBits { pend := q, out := [] } p).pend = (q ++ p).drop (8 * ((q ++ p).length / 8)) := by
  obtain ⟨h1, o, ho, hb⟩ := putBits_spec p { pend := q, out := [] } h
  simp only [List.nil_append] at ho
  rw [← ho] at hb
  have hl := congrArg List.length hb
  rw [List.length_append, length_bitsOfBytes] at hl
  have hn : (putBits { pend := q, out := [] } p).out.length = (q ++ p).length / 8 := by
    rw [← hl]; omega
  have hlen : (bitsOfBytes (putBits { pend := q, out := [] } p).out).length =
      8 * ((q ++ p).length / 8) := by rw [length_bitsOfBytes, hn]
  refine ⟨hn, ?_, ?_⟩
  · rw [← hb, List.take_append_of_le_length (by rw [hb, hlen]), List.take_of_length_le]
    rw [hb, hlen]
  · rw [← hlen, ← hb, List.drop_left]

/-- flush (R280): nothing stays pending, and one more byte is pushed when bits were. -/
theorem flush_spec (k : Packer) (h : k.pend.length < 8) :
    (flush k).pend = [] ∧
      (flush k).out.length = k.out.length + (if k.pend = [] then 0 else 1) ∧
      ∃ z, (∀ b ∈ z, b = false) ∧
        bitsOfBytes (flush k).out = bitsOfBytes k.out ++ k.pend ++ z := by
  unfold flush
  split
  · rename_i hp
    have hne : k.pend ≠ [] := by intro hh; simp [hh] at hp
    refine ⟨rfl, by simp [hne], List.replicate (8 - k.pend.length) false, by simp, ?_⟩
    rw [bitsOfBytes_append, List.append_assoc]
    congr 1
    show unpackMsb (packMsb 8 k.pend) 8 ++ [] = _
    rw [List.append_nil]
    apply List.ext_getElem (by simp; omega)
    intro i h1 h2
    have hg : (unpackMsb (packMsb 8 k.pend) 8).getD i false =
        (k.pend ++ List.replicate (8 - k.pend.length) false).getD i false := by
      rw [getD_unpackMsb, getMsbD_packMsb (by omega)]
      have h8 : i < 8 := by simpa using h1
      simp only [h8, decide_true, Bool.true_and]
      by_cases hi : i < k.pend.length
      · rw [List.getD_append _ _ _ _ hi]
      · rw [List.getD_append_right _ _ _ _ (by omega), List.getD_eq_default _ _ (by omega)]
        rw [List.getD_eq_getElem?_getD, List.getElem?_replicate]
        split <;> rfl
    rwa [List.getD_eq_getElem _ _ h1, List.getD_eq_getElem _ _ h2] at hg
  · rename_i hp
    have hn : k.pend = [] := List.length_eq_zero_iff.1 (by omega)
    exact ⟨hn, by simp [hn], [], by simp, by simp [hn]⟩

/-- ENC_PEND is never 8 bits long (R57). -/
theorem length_encPend_lt (s : State) : (encPend s).length < 8 := by
  simp only [encPend, length_unpackMsb]
  exact s.encNpend.isLt

/-- ENC_PEND read back after it is written (R280). -/
theorem encPend_setEncPend {p : Bits} (s : State) (h : p.length < 8) :
    encPend (setEncPend p s) = p := by
  have hn : (BitVec.ofNat 3 p.length).toNat = p.length := by
    simp only [BitVec.toNat_ofNat]; omega
  simp only [encPend, setEncPend, hn]
  exact unpackMsb_packMsb (by omega)

end Sys2Proof.Machine
end

