-- ==== Sys2Proof/Laws/Encoding.lean ====
section
/-! SUPPORT. Command words as numbers (30_encoding.md R121 to R123): the number each format's word is, and
the fields read back from it. -/

namespace Sys2Proof

theorem toNat_slice (w : Word) (lo n : Nat) :
    (w.extractLsb' lo n).toNat = w.toNat / 2 ^ lo % 2 ^ n := by
  simp [Nat.shiftRight_eq_div_pow]

/-- A field of a word, from the word's number. -/
theorem slice_eq {w : Word} {lo n : Nat} {v : BitVec n} (h : w.toNat / 2 ^ lo % 2 ^ n = v.toNat) :
    w.extractLsb' lo n = v := BitVec.eq_of_toNat_eq (by rw [toNat_slice, h])

/-- The number of a concatenation (R11). -/
theorem toNat_concat {a b : Nat} (x : BitVec a) (y : BitVec b) :
    (x ++ y).toNat = x.toNat * 2 ^ b + y.toNat := by
  rw [BitVec.toNat_append, ← Nat.shiftLeft_add_eq_or_of_lt y.isLt, Nat.shiftLeft_eq]

theorem toNat_encodeN (opc : BitVec 8) : (encodeN opc).toNat = opc.toNat * 2 ^ 24 := by
  rw [encodeN, toNat_concat]; simp

theorem toNat_encodeB (opc : BitVec 8) (byte : Byte) :
    (encodeB opc byte).toNat = opc.toNat * 2 ^ 24 + byte.toNat := by
  rw [encodeB, toNat_concat, toNat_concat]; simp; omega

theorem toNat_encodeF (opc : BitVec 8) (f : Bool) :
    (encodeF opc f).toNat = opc.toNat * 2 ^ 24 + f.toNat := by
  rw [encodeF, toNat_concat, toNat_concat]; simp; omega

theorem toNat_encodeS (opc : BitVec 8) (sym : BitVec 9) :
    (encodeS opc sym).toNat = opc.toNat * 2 ^ 24 + sym.toNat := by
  rw [encodeS, toNat_concat, toNat_concat]; simp; omega

theorem toNat_encodeSK (opc : BitVec 8) (sym : BitVec 9) (k : BitVec 3) :
    (encodeSK opc sym k).toNat = opc.toNat * 2 ^ 24 + k.toNat * 2 ^ 12 + sym.toNat := by
  rw [encodeSK, toNat_concat, toNat_concat, toNat_concat, toNat_concat]; simp; omega

theorem toNat_encodeNI (opc : BitVec 8) (idx : BitVec 10) (fsel : BitVec 2) :
    (encodeNI opc idx fsel).toNat = opc.toNat * 2 ^ 24 + fsel.toNat * 2 ^ 12 + idx.toNat := by
  rw [encodeNI, toNat_concat, toNat_concat, toNat_concat, toNat_concat]; simp; omega

/-- The opcode field of a word whose number begins with an opcode (R121). -/
theorem opcodeOf_eq {w : Word} {opc : BitVec 8} {low : Nat} (h : w.toNat = opc.toNat * 2 ^ 24 + low)
    (hl : low < 2 ^ 24) : opcodeOf w = opc := by
  have := opc.isLt
  exact slice_eq (by rw [h]; omega)

end Sys2Proof
end

