-- ==== Sys2Proof/Laws/PerInstr.lean ====
section
/-! SUPPORT. Statements about every command as syntax, one lemma for each constructor of Instr. -/

namespace Sys2Proof.Laws.EncodeOpcode

/-- The opcode field of a command's word is that of its row of the opcode map (R121, R125). -/
def Statement (i : Instr) : Prop :=
  ∃ r ∈ opcodeMap, r.mnemonic = mnemonicOf i ∧ opcodeOf (encode i) = opcodeOf r.value

theorem nop : Statement .nop := ⟨⟨"NOP", .n, 0x00000000, 0xFFFFFFFF⟩, by decide⟩

theorem softReset : Statement .softReset := ⟨⟨"SOFT_RESET", .n, 0x01000000, 0xFFFFFFFF⟩, by decide⟩

theorem freqClear : Statement .freqClear := ⟨⟨"FREQ_CLEAR", .n, 0x10000000, 0xFFFFFFFF⟩, by decide⟩

theorem anaByte (byte : Byte) : Statement (.anaByte byte) :=
  ⟨⟨"ANA_BYTE", .b, 0x11000000, 0xFFFFFF00⟩, by decide, rfl,
    opcodeOf_eq (toNat_encodeB _ _) (by have := byte.isLt; omega)⟩

theorem anaEnd (f : Bool) : Statement (.anaEnd f) :=
  ⟨⟨"ANA_END", .f, 0x12000000, 0xFFFFFFFE⟩, by decide, rfl,
    opcodeOf_eq (toNat_encodeF _ _) (by cases f <;> decide)⟩

theorem freqWrite (sym : BitVec 9) : Statement (.freqWrite sym) :=
  ⟨⟨"FREQ_WRITE", .s, 0x13000000, 0xFFFFFE00⟩, by decide, rfl,
    opcodeOf_eq (toNat_encodeS _ _) (by have := sym.isLt; omega)⟩

theorem freqRead (sym : BitVec 9) : Statement (.freqRead sym) :=
  ⟨⟨"FREQ_READ", .s, 0x14000000, 0xFFFFFE00⟩, by decide, rfl,
    opcodeOf_eq (toNat_encodeS _ _) (by have := sym.isLt; omega)⟩

theorem buildTree : Statement .buildTree := ⟨⟨"BUILD_TREE", .n, 0x20000000, 0xFFFFFFFF⟩, by decide⟩

theorem nodeRead (idx : BitVec 10) (fsel : BitVec 2) : Statement (.nodeRead idx fsel) :=
  ⟨⟨"NODE_READ", .ni, 0x21000000, 0xFFFFCC00⟩, by decide, rfl,
    opcodeOf_eq ((toNat_encodeNI _ _ _).trans (Nat.add_assoc _ _ _))
      (by have := idx.isLt; have := fsel.isLt; omega)⟩

theorem genCodes : Statement .genCodes := ⟨⟨"GEN_CODES", .n, 0x30000000, 0xFFFFFFFF⟩, by decide⟩

theorem codeLen (sym : BitVec 9) : Statement (.codeLen sym) :=
  ⟨⟨"CODE_LEN", .s, 0x31000000, 0xFFFFFE00⟩, by decide, rfl,
    opcodeOf_eq (toNat_encodeS _ _) (by have := sym.isLt; omega)⟩

theorem codeBits (sym : BitVec 9) (k : BitVec 3) : Statement (.codeBits sym k) :=
  ⟨⟨"CODE_BITS", .sk, 0x32000000, 0xFFFF8E00⟩, by decide, rfl,
    opcodeOf_eq ((toNat_encodeSK _ _ _).trans (Nat.add_assoc _ _ _))
      (by have := sym.isLt; have := k.isLt; omega)⟩

theorem encBegin : Statement .encBegin := ⟨⟨"ENC_BEGIN", .n, 0x40000000, 0xFFFFFFFF⟩, by decide⟩

theorem encByte (byte : Byte) : Statement (.encByte byte) :=
  ⟨⟨"ENC_BYTE", .b, 0x41000000, 0xFFFFFF00⟩, by decide, rfl,
    opcodeOf_eq (toNat_encodeB _ _) (by have := byte.isLt; omega)⟩

theorem encFinish : Statement .encFinish := ⟨⟨"ENC_FINISH", .n, 0x42000000, 0xFFFFFFFF⟩, by decide⟩

theorem decBegin : Statement .decBegin := ⟨⟨"DEC_BEGIN", .n, 0x50000000, 0xFFFFFFFF⟩, by decide⟩

theorem decByte (byte : Byte) : Statement (.decByte byte) :=
  ⟨⟨"DEC_BYTE", .b, 0x51000000, 0xFFFFFF00⟩, by decide, rfl,
    opcodeOf_eq (toNat_encodeB _ _) (by have := byte.isLt; omega)⟩

theorem decEnd : Statement .decEnd := ⟨⟨"DEC_END", .n, 0x52000000, 0xFFFFFFFF⟩, by decide⟩

end Sys2Proof.Laws.EncodeOpcode
end

