-- ==== Sys2Proof/Laws/Tree.lean ====
section
/-! SUPPORT. The tree builder's parts (42_tree.md R220 to R223): the order of nodes, the lowest of a pool,
one combination, and how many nodes the loop makes. -/

namespace Sys2Proof.Machine

theorem lower_iff (nodes : List Node) (i j : Nat) :
    lower nodes i j = true ↔
      weightAt nodes i < weightAt nodes j ∨ (weightAt nodes i = weightAt nodes j ∧ i < j) := by
  simp [lower]

/-- The order of R220 is total: of two nodes one is lower, or they are the same. -/
theorem lower_total (nodes : List Node) (i j : Nat) :
    lower nodes i j = true ∨ i = j ∨ lower nodes j i = true := by
  simp only [lower_iff, BitVec.lt_def, ← BitVec.toNat_inj]
  omega

theorem lower_trans {nodes : List Node} {i j k : Nat} (h1 : lower nodes i j = true)
    (h2 : lower nodes j k = true) : lower nodes i k = true := by
  simp only [lower_iff, BitVec.lt_def, ← BitVec.toNat_inj] at *
  omega

theorem lower_irrefl (nodes : List Node) (i : Nat) : lower nodes i i = false := by
  simp [lower]

/-- The lowest is one of the candidates and no candidate is lower (R220). -/
theorem lowest_spec (nodes : List Node) (best : Nat) (l : List Nat) :
    lowest nodes best l ∈ best :: l ∧
      ∀ i ∈ best :: l, i = lowest nodes best l ∨ lower nodes (lowest nodes best l) i = true := by
  induction l generalizing best with
  | nil => simp [lowest]
  | cons x l ih =>
    obtain ⟨hm, hl⟩ := ih (if lower nodes x best = true then x else best)
    have hlow : lowest nodes best (x :: l) =
        lowest nodes (if lower nodes x best = true then x else best) l := rfl
    rw [hlow]
    have hpick := hl _ List.mem_cons_self
    refine ⟨?_, ?_⟩
    · by_cases hx : lower nodes x best = true
      · rw [if_pos hx] at hm ⊢
        exact List.mem_cons_of_mem _ hm
      · rw [if_neg hx] at hm ⊢
        rcases List.mem_cons.1 hm with hm | hm
        · rw [hm]; exact List.mem_cons_self
        · exact List.mem_cons_of_mem _ (List.mem_cons_of_mem _ hm)
    · intro i hi
      rcases List.mem_cons.1 hi with rfl | hi
      · split at hpick
        · rename_i hx
          rw [if_pos hx]
          rcases hpick with h | h
          · right; rw [← h]; exact hx
          · right; exact lower_trans h hx
        · rename_i hx
          rw [if_neg hx]; exact hpick
      · rcases List.mem_cons.1 hi with rfl | hi
        · split at hpick
          · rename_i hx
            rw [if_pos hx]; exact hpick
          · rename_i hx
            rw [if_neg hx]
            rcases lower_total nodes i best with h | h | h
            · exact absurd h hx
            · rw [h]; exact hpick
            · rcases hpick with h2 | h2
              · right; rw [← h2]; exact h
              · right; exact lower_trans h2 h
        · exact hl i (List.mem_cons_of_mem _ hi)

/-- One turn of the loop of R221, when the pool has two nodes or more: the lowest, the lowest of the rest,
and the node over them. -/
theorem combine_some {nodes nodes' : List Node} {pool pool' : List Nat}
    (h : combine nodes pool = some (nodes', pool')) :
    ∃ first second, first ∈ pool ∧ second ∈ pool.erase first ∧
      (∀ i ∈ pool, i = first ∨ lower nodes first i = true) ∧
      (∀ i ∈ pool.erase first, i = second ∨ lower nodes second i = true) ∧
      nodes' = nodes ++ [internalNode nodes first second] ∧
      pool' = (pool.erase first).erase second ++ [nodes.length] := by
  unfold combine at h
  split at h
  · cases h
  · rename_i p rest
    obtain ⟨hm, hl⟩ := lowest_spec nodes p rest
    simp only at h
    split at h
    · cases h
    · rename_i q rest' he
      obtain ⟨hm2, hl2⟩ := lowest_spec nodes q rest'
      cases h
      refine ⟨lowest nodes p rest, lowest nodes q rest', hm, ?_⟩
      rw [he]
      exact ⟨hm2, hl, hl2, rfl, rfl⟩

/-- A turn makes the pool smaller by one and the arena longer by one. -/
theorem combine_length {nodes nodes' : List Node} {pool pool' : List Nat}
    (h : combine nodes pool = some (nodes', pool')) :
    nodes'.length = nodes.length + 1 ∧ pool.length = pool'.length + 1 := by
  obtain ⟨first, second, h1, h2, -, -, rfl, rfl⟩ := combine_some h
  have l1 := List.length_erase_of_mem h1
  have l2 := List.length_erase_of_mem h2
  have p1 := List.length_pos_of_mem h1
  have p2 := List.length_pos_of_mem h2
  refine ⟨by simp, ?_⟩
  simp only [List.length_append, List.length_cons, List.length_nil]
  omega

/-- The loop stops only on a pool of fewer than two nodes. -/
theorem combine_none {nodes : List Node} {pool : List Nat} (h : combine nodes pool = none) :
    pool.length ≤ 1 := by
  unfold combine at h
  split at h
  · simp
  · rename_i p rest
    simp only at h
    split at h
    · rename_i he
      have hm := (lowest_spec nodes p rest).1
      have := List.length_erase_of_mem hm
      rw [he] at this
      simp only [List.length_cons, List.length_nil] at this ⊢
      omega
    · cases h

/-- As many turns as the pool has nodes leave one node in it, so the loop adds one node for each turn
but the last (R222). -/
theorem length_combineAll (turns : Nat) (nodes : List Node) (pool : List Nat)
    (h : pool.length ≤ turns) :
    (combineAll turns nodes pool).length = nodes.length + (pool.length - 1) := by
  induction turns generalizing nodes pool with
  | zero => simp [combineAll]; omega
  | succ turns ih =>
    unfold combineAll
    split
    · rename_i hc
      have := combine_none hc
      omega
    · rename_i nodes' pool' hc
      obtain ⟨h1, h2⟩ := combine_length hc
      have hp : 1 ≤ pool'.length := by
        obtain ⟨_, _, _, _, _, _, _, rfl⟩ := combine_some hc
        simp
      rw [ih _ _ (by omega)]
      omega

/-- The loop only adds nodes behind those there are: an entry made is never rewritten (R221). -/
theorem combineAll_extends (turns : Nat) (nodes : List Node) (pool : List Nat) :
    nodes <+: combineAll turns nodes pool := by
  induction turns generalizing nodes pool with
  | zero => exact List.prefix_rfl
  | succ turns ih =>
    unfold combineAll
    split
    · exact List.prefix_rfl
    · obtain ⟨first, second, -, -, -, -, rfl, -⟩ := combine_some (by assumption)
      exact (List.prefix_append _ _).trans (ih _ _)

/-- The number of leaves is the number of counts that are not 0 (R221: n). -/
theorem length_leavesFrom (sym : Nat) (counts : List Word) :
    (leavesFrom sym counts).length = counts.countP fun c => decide (c ≠ 0) := by
  induction counts generalizing sym with
  | nil => rfl
  | cons c counts ih =>
    unfold leavesFrom
    by_cases h : c = 0
    · simp [h, ih]
    · rw [if_neg h, List.length_cons, ih, List.countP_cons_of_pos (by simpa using h)]

/-- The size of the tree of n leaves: none, 2 for one leaf, 2n − 1 from two on (R222, R223). -/
theorem length_treeNodes (l : List Node) :
    (treeNodes l).length =
      (if l.length = 0 then 0 else if l.length = 1 then 2 else 2 * l.length - 1) := by
  unfold treeNodes
  split
  · rfl
  · rfl
  · rename_i l0 l1 rest
    rw [length_combineAll _ _ _ (by simp)]
    simp
    omega

/-- The entry of an arena at an index (R221). -/
theorem arenaOf_get (nodes : List Node) (i : Fin 513) :
    (arenaOf nodes)[i] = nodes.getD i.val Node.unused := by
  simp [arenaOf]

/-- A list of nodes that ends in an internal one. -/
def EndsInternal (nodes : List Node) : Prop := ∃ before e, nodes = before ++ [e] ∧ e.leaf = false

theorem combine_endsInternal {nodes nodes' : List Node} {pool pool' : List Nat}
    (h : combine nodes pool = some (nodes', pool')) : EndsInternal nodes' := by
  obtain ⟨first, second, -, -, -, -, rfl, -⟩ := combine_some h
  exact ⟨nodes, _, rfl, rfl⟩

theorem combineAll_endsInternal (turns : Nat) (nodes : List Node) (pool : List Nat)
    (h : EndsInternal nodes) : EndsInternal (combineAll turns nodes pool) := by
  induction turns generalizing nodes pool with
  | zero => exact h
  | succ turns ih =>
    unfold combineAll
    split
    · exact h
    · exact ih _ _ (combine_endsInternal (by assumption))

/-- The last node of a tree is internal: the document's "a bare root-as-leaf is not a valid terminal tree
shape" (R223). -/
theorem treeNodes_endsInternal (l : List Node) (h : treeNodes l ≠ []) : EndsInternal (treeNodes l) := by
  match l with
  | [] => exact absurd rfl h
  | [leaf] => exact ⟨[leaf], _, rfl, rfl⟩
  | l0 :: l1 :: rest =>
    show EndsInternal (combineAll (rest.length + 1 + 1) _ _)
    unfold combineAll
    split
    · rename_i hc
      have := combine_none hc
      simp at this
    · exact combineAll_endsInternal _ _ _ (combine_endsInternal (by assumption))

/-- The number of symbols of a table is at most 257 (R53). -/
theorem length_leaves_le (freq : Vector Word 257) : (leaves freq).length ≤ 257 := by
  rw [leaves, length_leavesFrom]
  exact le_trans List.countP_le_length (by simp)

/-- What BUILD_TREE writes for a table that is not empty (R221, R222). -/
theorem treeOf_some {freq : Vector Word 257} {t : BuiltTree} (h : treeOf freq = some t) :
    leaves freq ≠ [] ∧ t.node = arenaOf (treeNodes (leaves freq)) ∧
      t.nodeCount.toNat = (treeNodes (leaves freq)).length ∧
      t.root.toNat = (treeNodes (leaves freq)).length - 1 ∧
      2 ≤ (treeNodes (leaves freq)).length ∧ (treeNodes (leaves freq)).length ≤ 513 := by
  unfold treeOf at h
  simp only at h
  split at h
  · cases h
  · rename_i hne
    have h' := Option.some.inj h
    have hl : leaves freq ≠ [] := by intro hh; exact hne (by rw [hh]; rfl)
    have hp := List.length_pos_iff.2 hl
    have hle := length_leaves_le freq
    have ht := length_treeNodes (leaves freq)
    have h2 : 2 ≤ (treeNodes (leaves freq)).length ∧ (treeNodes (leaves freq)).length ≤ 513 := by
      rw [ht]; split
      · omega
      · split <;> omega
    rw [← h']
    refine ⟨hl, rfl, ?_, ?_, h2.1, h2.2⟩ <;> simp only [BitVec.toNat_ofNat] <;> omega

/-- The root of a built tree is an internal entry below NODE_COUNT (R63 item 1). -/
theorem treeOf_root {freq : Vector Word 257} {t : BuiltTree} (h : treeOf freq = some t) :
    ∃ e, nodeAt t.node t.root = some e ∧ e.leaf = false ∧ t.root.toNat < t.nodeCount.toNat := by
  obtain ⟨-, hn, hc, hr, h2, h513⟩ := treeOf_some h
  have hne : treeNodes (leaves freq) ≠ [] := by intro hh; simp [hh] at h2
  obtain ⟨before, e, he, hleaf⟩ := treeNodes_endsInternal _ hne
  refine ⟨e, ?_, hleaf, by omega⟩
  have hlen : t.root.toNat = before.length := by rw [hr, he]; simp
  rw [nodeAt_of_val t.node (e := ⟨t.root.toNat, by omega⟩) rfl, hn, arenaOf_get]
  simp [hlen, he]

end Sys2Proof.Machine
end

