-- ==== Sys2Proof/Machine/HostProgram.lean ====
section
/-! DEFINITION. The operation forms and pseudo-instructions of a host program (30_encoding.md R132,
R133), as the turns the host takes. -/

namespace Sys2Proof.Machine

/-- `WR <reg>, <value>` by offset (R132). -/
def wrTurns (off : Nat) (value : Word) : List Turn := [.host (.write .bits32 off value)]

/-- `RD <reg>` by offset (R132). -/
def rdTurns (off : Nat) : List Turn := [.host (.read .bits32 off)]

/-- `POP` (R132). -/
def popTurns : List Turn := rdTurns 0x14

/-- `ISSUE <MNEMONIC> <operands>` (R132). -/
def issueTurns (i : Instr) : List Turn := wrTurns 0x08 (encode i)

/-- `<MNEMONIC> <operands>`: issue the command and wait for it (R132). -/
def commandTurns (i : Instr) : List Turn := issueTurns i ++ [.host .wait]

/-- Commands one after another, each in its waiting form. -/
def commandsTurns (is : List Instr) : List Turn := is.flatMap commandTurns

/-- `SETFREQ s, c` (R133). -/
def setFreqTurns (sym : BitVec 9) (count : Word) : List Turn :=
  wrTurns 0x0C count ++ commandTurns (.freqWrite sym)

/-- `ANALYZE b0, ..., f` (R133). -/
def analyzeTurns (bytes : List Byte) (f : Bool) : List Turn :=
  commandsTurns (.freqClear :: bytes.map .anaByte ++ [.anaEnd f])

/-- `ENCODE b0, ...` (R133). -/
def encodeTurns (bytes : List Byte) : List Turn :=
  commandsTurns (.encBegin :: bytes.map .encByte ++ [.encFinish])

/-- `DECODE y0, ...` (R133). -/
def decodeTurns (bytes : List Byte) : List Turn :=
  commandsTurns (.decBegin :: bytes.map .decByte ++ [.decEnd])

/-- `DRAIN` (R133). -/
def drainTurn : List Turn := [.host .drain]

/-- The bytes the host popped, oldest first: what a read of OUT_DATA returned with VALID (R46, R394). -/
def poppedBytes (s : State) : List Byte :=
  (s.readLog.filter fun r => r.off = 0x14 && r.data.getLsbD 8).map fun r => r.data.extractLsb' 0 8

end Sys2Proof.Machine
end

