-- ==== Sys2Proof/Tests/Slice0.lean ====
section
/-! SUPPORT. Tests of the model, expected values from 30_encoding.md R134 and 95_test_vectors.md, and for
each claim with hypotheses a concrete case that meets them all. -/

set_option maxRecDepth 100000

namespace Sys2Proof.Machine.Tests

/-! ## Helpers -/

/-- The outcome is a next state. -/
def isNext : Host.Outcome State Fault Refusal → Bool
  | .next _ => true
  | .fault _ => false
  | .refused _ => false

/-- The next state of an outcome. -/
def nextOf : Host.Outcome State Fault Refusal → State
  | .next t => t
  | .fault _ => State.reset
  | .refused _ => State.reset

theorem eq_next_of {o : Host.Outcome State Fault Refusal} (h : isNext o = true) :
    o = .next (nextOf o) := by
  cases o with
  | next t => rfl
  | fault f => cases h
  | refused r => cases h

/-- The state after the command word w is latched and the core has run it. -/
def run (w : Word) (s : State) : State := nextOf (step (s.withFetchWord 32 w.toNat))

/-- The state after one command. -/
def after (i : Instr) (s : State) : State := nextOf (exec i s)

/-- Scenario A's table: a 3, b 1, EOF 1 (95_test_vectors.md 1.5). -/
def tableA : Vector Word 257 := (((Vector.replicate 257 0).set 97 3).set 98 1).set 256 1

/-- The tree BUILD_TREE builds on Scenario A's table. -/
def treeA : BuiltTree := (treeOf tableA).get (by decide)

theorem treeOf_tableA : treeOf tableA = some treeA := by
  simp [treeA]

/-- GEN_CODES' walk of a tree succeeds. -/
def hasCodes (t : BuiltTree) : Bool :=
  match codesOf t.node t.root with
  | .ok _ => true
  | .error _ => false

/-- The codes GEN_CODES derives from a tree. -/
def codesIn (t : BuiltTree) : CodeTable :=
  match codesOf t.node t.root with
  | .ok c => c
  | .error _ => emptyCodes

theorem codesOf_codesIn {t : BuiltTree} (h : hasCodes t = true) :
    codesOf t.node t.root = .ok (codesIn t) := by
  unfold hasCodes at h
  unfold codesIn
  split
  · assumption
  · simp_all

/-- The codes of Scenario A's tree. -/
def codesA : CodeTable := codesIn treeA

theorem codesOf_treeA : codesOf treeA.node treeA.root = .ok codesA := codesOf_codesIn (by decide)

/-- Scenario A after ANALYZE, BUILD_TREE and GEN_CODES: STATUS 0x00000006. -/
def stateA : State :=
  { State.reset with
    freq := tableA, node := treeA.node, nodeCount := treeA.nodeCount, root := treeA.root
    treeValid := true, codeLen := codesA.len, code := codesA.code, codesValid := true }

/-- Scenario A with an encode open. -/
def encA : State := { stateA with encActive := true }

/-- Scenario A with a decode open at the root. -/
def decA : State := { stateA with decState := .run, decCur := treeA.root }

/-- Scenario A with a decode that reached EOS. -/
def eosA : State := { decA with decState := .eos }

/-- The FAULT state of V-TREE-5: INVALID_INPUT by BUILD_TREE on the empty table. -/
def faultedState : State := run 0x20000000 State.reset

/-- A table of one symbol, text mode (V-TREE-3): 'x' 3 times. -/
def tableX : Vector Word 257 := (Vector.replicate 257 0).set 120 3

/-- Its tree. -/
def treeX : BuiltTree := (treeOf tableX).get (by decide)

theorem treeOf_tableX : treeOf tableX = some treeX := by
  simp [treeX]

/-- A decode open on it. -/
def decX : State :=
  { State.reset with
    node := treeX.node, nodeCount := treeX.nodeCount, root := treeX.root, treeValid := true
    decState := .run, decCur := treeX.root }

/-- A full FIFO on encA, two bits short of a byte. -/
def fullA : State :=
  setEncPend [true, true, true, true, true, true] { encA with outFifo := List.replicate 33 0xFF }

/-! ## Well-formedness: each check refuses an ill-formed command (R129) -/

theorem test_freqWrite_sym_257_illFormed : (Instr.freqWrite 257).wellFormed = false := by decide

theorem test_freqRead_sym_257_illFormed : (Instr.freqRead 257).wellFormed = false := by decide

theorem test_codeLen_sym_511_illFormed : (Instr.codeLen 511).wellFormed = false := by decide

theorem test_codeBits_sym_257_illFormed : (Instr.codeBits 257 0).wellFormed = false := by decide

theorem test_nodeRead_idx_513_illFormed : (Instr.nodeRead 513 0).wellFormed = false := by decide

theorem test_boundaries_wellFormed :
    (Instr.freqWrite 256).wellFormed = true ∧ (Instr.nodeRead 512 3).wellFormed = true ∧
      (Instr.codeBits 256 7).wellFormed = true := by decide

/-! ## Decoding: words written out from the formats of R122 and the opcodes of R125 -/

theorem test_decode_nop : decode (0b00000000#8 ++ 0#24) = .ok .nop := by decide

theorem test_decode_softReset : decode (0b00000001#8 ++ 0#24) = .ok .softReset := by decide

theorem test_decode_freqClear : decode (0b00010000#8 ++ 0#24) = .ok .freqClear := by decide

theorem test_decode_anaByte :
    decode (0b00010001#8 ++ 0#16 ++ 0b01100001#8) = .ok (.anaByte 0x61) := by decide

theorem test_decode_anaEnd :
    decode (0b00010010#8 ++ 0#23 ++ 0b1#1) = .ok (.anaEnd true) ∧
      decode (0b00010010#8 ++ 0#23 ++ 0b0#1) = .ok (.anaEnd false) := by decide

theorem test_decode_freqWrite :
    decode (0b00010011#8 ++ 0#15 ++ 0b100000000#9) = .ok (.freqWrite 256) := by decide

theorem test_decode_freqRead :
    decode (0b00010100#8 ++ 0#15 ++ 0b001100001#9) = .ok (.freqRead 0x61) := by decide

theorem test_decode_buildTree : decode (0b00100000#8 ++ 0#24) = .ok .buildTree := by decide

theorem test_decode_nodeRead :
    decode (0b00100001#8 ++ 0#10 ++ 0b11#2 ++ 0#2 ++ 0b1000000000#10) = .ok (.nodeRead 512 3) := by
  decide

theorem test_decode_genCodes : decode (0b00110000#8 ++ 0#24) = .ok .genCodes := by decide

theorem test_decode_codeLen :
    decode (0b00110001#8 ++ 0#15 ++ 0b100000000#9) = .ok (.codeLen 256) := by decide

theorem test_decode_codeBits :
    decode (0b00110010#8 ++ 0#9 ++ 0b101#3 ++ 0#3 ++ 0b001100001#9) = .ok (.codeBits 0x61 5) := by
  decide

theorem test_decode_encBegin : decode (0b01000000#8 ++ 0#24) = .ok .encBegin := by decide

theorem test_decode_encByte :
    decode (0b01000001#8 ++ 0#16 ++ 0b10000001#8) = .ok (.encByte 0x81) := by decide

theorem test_decode_encFinish : decode (0b01000010#8 ++ 0#24) = .ok .encFinish := by decide

theorem test_decode_decBegin : decode (0b01010000#8 ++ 0#24) = .ok .decBegin := by decide

theorem test_decode_decByte :
    decode (0b01010001#8 ++ 0#16 ++ 0b11100010#8) = .ok (.decByte 0xE2) := by decide

theorem test_decode_decEnd : decode (0b01010010#8 ++ 0#24) = .ok .decEnd := by decide

/-- V-ILL: the illegal words. -/
theorem test_decode_illegal_words :
    decode 0x00000001 = .error .mbzBitSet ∧ decode 0x11000161 = .error .mbzBitSet ∧
      decode 0x12000002 = .error .mbzBitSet ∧ decode 0x13000101 = .error .symOutOfRange ∧
      decode 0x14000200 = .error .mbzBitSet ∧ decode 0x20000001 = .error .mbzBitSet ∧
      decode 0x21000201 = .error .idxOutOfRange ∧ decode 0x21000400 = .error .mbzBitSet ∧
      decode 0x31000101 = .error .symOutOfRange ∧ decode 0x32008061 = .error .mbzBitSet ∧
      decode 0x60000000 = .error .unassignedOpcode := by decide

/-- V-ENC-W: the words of its table, encoded. -/
theorem test_encode_words :
    encode .nop = 0x00000000 ∧ encode (.anaByte 0x61) = 0x11000061 ∧
      encode (.anaEnd true) = 0x12000001 ∧ encode (.freqRead 256) = 0x14000100 ∧
      encode (.nodeRead 3 3) = 0x21003003 ∧ encode (.codeBits 0x61 1) = 0x32001061 ∧
      encode (.codeBits 0x41 1) = 0x32001041 ∧ encode (.decByte 0xE2) = 0x510000E2 := by decide

/-- The lanes of a word are little-endian (R82), and a row's word is decoded from them. -/
theorem test_byteLanes_of_word :
    byteLanes 0x32001061 = [0x61, 0x10, 0x00, 0x32] ∧
      decodeTableWord 32 0x32001061 = some (.codeBits 0x61 1) ∧
      decodeTableWord 32 0x60000000 = none := by decide

/-! ## Commands: at most two tests each -/

/-- V-CTL-2. -/
theorem test_nop_only_ends :
    statusWord (run 0x00000000 stateA) = 0x00000006 := by decide

/-- V-CTL-5. -/
theorem test_softReset_leaves_fault :
    statusWord faultedState = 0x00000140 ∧ statusWord (run 0x01000000 faultedState) = 0 ∧
      (run 0x01000000 faultedState).errCmd = 0 := by decide

/-- V-RST-2: SOFT_RESET keeps INT_EN. -/
theorem test_softReset_keeps_intEn :
    regValue (run 0x01000000 { stateA with errIe := true, eosIe := true }) .intEn = 3 ∧
      regValue (run 0x01000000 stateA) .treeInfo = 0 := by decide

/-- R191. -/
theorem test_freqClear_empties :
    (run 0x10000000 stateA).freq[97] = 0 ∧ statusWord (run 0x10000000 stateA) = 0 := by decide

/-- V-FREQ-9: refused during an encode. -/
theorem test_freqClear_during_encode :
    statusWord (run 0x10000000 encA) = 0x0000064E ∧ (run 0x10000000 encA).errCmd = 0x10000000 := by
  decide

/-- R192 and V-FREQ-7: the count grows, the flags are cleared. -/
theorem test_anaByte_counts :
    (run 0x11000061 stateA).freq[97] = 4 ∧ (run 0x11000061 stateA).freq[98] = 1 ∧
      statusWord (run 0x11000061 stateA) = 0 := by decide

/-- V-FREQ-5: a full count. -/
theorem test_anaByte_overflow :
    let s := run 0x11000061 { State.reset with freq := (Vector.replicate 257 0).set 97 0xFFFFFFFF }
    statusWord s = 0x00000740 ∧ s.errCmd = 0x11000061 ∧ s.errInfo = 0x61 ∧
      s.freq[97] = 0xFFFFFFFF := by decide

/-- V-FREQ-3 and V-FREQ-4. -/
theorem test_anaEnd_eof_count :
    let s : State := { State.reset with freq := (Vector.replicate 257 0).set 256 7 }
    (run 0x12000001 s).freq[256] = 1 ∧ (run 0x12000000 s).freq[256] = 7 := by decide

/-- V-FREQ-6: the count is the ARG value sampled at issue. -/
theorem test_freqWrite_takes_arg :
    (run 0x13000061 { State.reset with arg := 3 }).freq[97] = 3 ∧
      (run 0x13000100 { stateA with arg := 0 }).freq[256] = 0 := by decide

/-- V-FREQ-8: FREQ_READ runs during an encode. -/
theorem test_freqRead_in_any_phase :
    (run 0x14000062 encA).result = 1 ∧ statusWord (run 0x14000062 encA) = 0x0000000E ∧
      (run 0x14000063 encA).result = 0 := by decide

/-- V-TREE-1, and V-TREE-5: the empty table. -/
theorem test_buildTree_scenario_a_and_empty :
    let s := run 0x20000000 { State.reset with freq := tableA }
    statusWord s = 0x00000002 ∧ regValue s .treeInfo = 0x00040005 ∧
      (treeNodes (leaves tableA)).drop 3 =
        [{ leaf := false, sym := 257, weight := 2, zero := 1, one := 2 },
         { leaf := false, sym := 257, weight := 5, zero := 3, one := 0 }] ∧
      statusWord faultedState = 0x00000140 ∧ faultedState.errCmd = 0x20000000 ∧
      faultedState.errInfo = 0 := by decide

/-- V-TREE-2: the internal nodes of abracadabra. -/
theorem test_tree_abracadabra :
    (treeNodes [leafNode 97 5, leafNode 98 2, leafNode 99 1, leafNode 100 1, leafNode 114 2,
        leafNode 256 1]).drop 6 =
      [{ leaf := false, sym := 257, weight := 2, zero := 2, one := 3 },
       { leaf := false, sym := 257, weight := 3, zero := 5, one := 1 },
       { leaf := false, sym := 257, weight := 4, zero := 4, one := 6 },
       { leaf := false, sym := 257, weight := 7, zero := 7, one := 8 },
       { leaf := false, sym := 257, weight := 12, zero := 0, one := 9 }] := by decide

/-- V-TREE-1: NODE_READ 4, 3 and NODE_READ 0, 0. -/
theorem test_nodeRead_fields :
    (run 0x21003004 stateA).result = 0x00000003 ∧ (run 0x21000000 stateA).result = 0x80000061 ∧
      (run 0x21001004 stateA).result = 5 ∧ (run 0x21003000 stateA).result = 0x03FF03FF := by decide

/-- V-TREE-1 and V-TREE-6: an unused entry, and a weight past 32 bits. -/
theorem test_nodeRead_unused_and_wide :
    (run 0x21000005 stateA).result = 0 ∧
      nodeField (internalNode [leafNode 97 0xFFFFFFFF, leafNode 98 0xFFFFFFFF] 0 1) 1 = 0xFFFFFFFE ∧
      nodeField (internalNode [leafNode 97 0xFFFFFFFF, leafNode 98 0xFFFFFFFF] 0 1) 2 = 1 := by
  decide

/-- V-CODE-1. -/
theorem test_genCodes_scenario_a :
    let s := run 0x30000000 { stateA with codesValid := false }
    statusWord s = 0x00000006 ∧ codeOf s 97 = [true] ∧ codeOf s 98 = [false, false] ∧
      codeOf s 256 = [false, true] ∧ codeOf s 99 = [] := by decide

/-- V-CODE-7: GEN_CODES from reset. -/
theorem test_genCodes_needs_tree :
    statusWord (run 0x30000000 State.reset) = 0x00000640 ∧
      (run 0x30000000 State.reset).errCmd = 0x30000000 := by decide

/-- V-CODE-1. -/
theorem test_codeLen_words :
    (run 0x31000100 stateA).result = 2 ∧ (run 0x31000061 stateA).result = 1 ∧
      (run 0x31000063 stateA).result = 0 := by decide

/-- V-CODE-1. -/
theorem test_codeBits_words :
    (run 0x32000061 stateA).result = 0x80000000 ∧ (run 0x32000062 stateA).result = 0 ∧
      (run 0x32000100 stateA).result = 0x40000000 ∧ (run 0x32001061 stateA).result = 0 := by decide

/-- V-CODE-4: the code of 0x41 is 45 ones then a 0, in chunks 0 and 1. -/
theorem test_codeBits_chunks :
    codeChunk (List.replicate 45 true ++ [false]) 0 = 0xFFFFFFFF ∧
      codeChunk (List.replicate 45 true ++ [false]) 1 = 0xFFF80000 ∧
      codeChunk (List.replicate 45 true ++ [false]) 2 = 0 := by decide

/-- V-ENC-1. -/
theorem test_encBegin_opens :
    statusWord (run 0x40000000 { stateA with bitcnt := 9 }) = 0x0000000E ∧
      (run 0x40000000 { stateA with bitcnt := 9 }).bitcnt = 0 := by decide

/-- V-ENC-1: ENC_BYTE 'b' after "111". -/
theorem test_encByte_appends :
    let s := run 0x41000062 (setEncPend [true, true, true] { encA with bitcnt := 3 })
    encPend s = [true, true, true, false, false] ∧ s.bitcnt = 5 ∧
      statusWord s = 0x0000000E := by decide

/-- V-ENC-4: a byte with no code. V-ENC-10: a byte that does not fit the full FIFO is held, and one free
place lets it run. -/
theorem test_encByte_protocol_and_hold :
    let s := run 0x41000063 encA
    statusWord s = 0x0000024E ∧ s.errCmd = 0x41000063 ∧ s.errInfo = 0x63 ∧
      statusWord (run 0x41000062 fullA) = 0x0021008F ∧
      statusWord (run 0x41000062 { fullA with outFifo := List.replicate 32 0xFF }) = 0x0021008E := by
  decide

/-- V-ENC-1: ENC_FINISH after "11100" pushes 0xE2. -/
theorem test_encFinish_pads :
    let s := run 0x42000000 (setEncPend [true, true, true, false, false] { encA with bitcnt := 5 })
    s.outFifo = [0xE2] ∧ s.bitcnt = 7 ∧ encPend s = [] ∧ statusWord s = 0x00010086 := by decide

/-- V-DEC-1. -/
theorem test_decBegin_opens :
    statusWord (run 0x50000000 stateA) = 0x00000016 ∧ (run 0x50000000 stateA).decCur = 4 := by decide

/-- V-DEC-1: DEC_BYTE 0xE2 gives "aaab" and EOS. -/
theorem test_decByte_scenario_a :
    let s := run 0x510000E2 decA
    s.outFifo = [0x61, 0x61, 0x61, 0x62] ∧ s.bitcnt = 7 ∧ s.decCur = 4 ∧
      statusWord s = 0x000400A6 := by decide

/-- V-DEC-5: BAD_PATH, all or nothing. -/
theorem test_decByte_badPath :
    let s := run 0x51000040 decX
    statusWord s = 0x00000852 ∧ s.errCmd = 0x51000040 ∧ s.errInfo = 0x00060001 ∧ s.bitcnt = 0 := by
  decide

/-- V-DEC-1 and V-DEC-3: DEC_END after EOS, and on a truncated stream with DEC_CUR 3. -/
theorem test_decEnd_closes_or_truncates :
    statusWord (run 0x52000000 eosA) = 0x00000006 ∧
      statusWord (run 0x52000000 { decA with decCur := 3, codesValid := false }) = 0x00000352 ∧
      (run 0x52000000 { decA with decCur := 3 }).errInfo = 3 := by decide

/-! ## The window, faults at issue, the interrupt line -/

/-- V-CTL-1: the window after reset, with OFIFO_DEPTH 33. -/
theorem test_window_after_reset :
    regValue State.reset .id = 0x48554646 ∧ regValue State.reset .status = 0 ∧
      regValue State.reset .param = 0x01000021 ∧ regValue State.reset .treeInfo = 0 ∧
      regValue State.reset .outData = 0 := by decide

/-- V-ENC-10: a read of OUT_DATA returns VALID and the head byte, and removes it. -/
theorem test_outData_read_pops :
    let s := nextOf (step { fullA with schedule := [.host (.read .bits32 0x14)] })
    s.readLog = [{ off := 0x14, data := 0x000001FF }] ∧ s.outFifo.length = 32 := by decide

/-- V-CTL-3 and V-CTL-6: CMD_OVERRUN, first and second fault. -/
theorem test_cmd_overrun :
    statusWord (issue 0x00000000 (issue 0x10000000 State.reset)) = 0x00000940 ∧
      (issue 0x00000000 (issue 0x10000000 State.reset)).errCmd = 0 ∧
      statusWord (issue 0x01000000 faultedState) = 0x00000141 ∧
      statusWord (issue 0x01000000 (issue 0x01000000 faultedState)) = 0x00000140 ∧
      (issue 0x01000000 (issue 0x01000000 faultedState)).errCmd = 0x20000000 := by decide

/-- V-CTL-4: the FAULT state discards other words. -/
theorem test_fault_state_discards : issue 0x14000061 faultedState = faultedState := by
  rfl

/-- V-ILL-PRI: ILLEGAL_CMD comes before SEQUENCE. -/
theorem test_illegal_before_sequence :
    statusWord (run 0x41000100 State.reset) = 0x00000540 ∧
      (run 0x41000100 State.reset).errCmd = 0x41000100 := by decide

/-- V-IRQ-1 to V-IRQ-3. -/
theorem test_irq_levels :
    irq { faultedState with errIe := true } = true ∧ irq faultedState = false ∧
      irq { eosA with eosIe := true } = true ∧ irq { decA with eosIe := true } = false ∧
      irq (run 0x52000000 { eosA with eosIe := true }) = false := by decide

/-- R81, R83, R380: refused accesses. -/
theorem test_refused_accesses :
    busTarget .bits8 0x04 State.reset = .error .subWordAccess ∧
      busTarget .bits32 0x06 State.reset = .error .misalignedAccess ∧
      busTarget .bits32 0x40 State.reset = .error .outsideWindow ∧
      busTarget .bits32 0x04 { State.reset with resetIn := true } = .error .accessDuringReset ∧
      busTarget .bits32 0x3C State.reset = .ok .reserved := by decide

/-- R133: a pseudo-instruction's turns. -/
theorem test_setFreq_turns :
    setFreqTurns 0x61 3 =
      [.host (.write .bits32 0x0C 3), .host (.write .bits32 0x08 0x13000061), .host .wait] := by decide

/-! ## States that meet the invariant -/

theorem stateA_inv : stateA.Inv where
  depth_legal := rfl
  fifo_fits := by decide
  err_raised := by decide
  codes_need_tree := fun _ => rfl
  enc_needs_codes := fun h => absurd h (by decide)
  dec_needs_tree := fun h => absurd rfl h
  tree_is_built := fun _ => treeOf_tableA
  codes_are_generated := fun _ => codesOf_treeA
  cursor_on_internal := fun h => absurd rfl h
  arena_built := .inr ⟨tableA, treeOf_tableA⟩
  code_len_bound := fun i => (codesOf_padded codesOf_treeA i).1
  code_padded := fun i => (codesOf_padded codesOf_treeA i).2
  acc_padded := rfl
  fault_pending := fun h => absurd rfl h
  reset_idle := fun h => absurd h (by decide)

theorem encA_inv : encA.Inv :=
  { stateA_inv with
    enc_needs_codes := fun _ => ⟨rfl, rfl⟩
    dec_needs_tree := fun h => absurd rfl h }

theorem decA_inv : decA.Inv :=
  { stateA_inv with
    enc_needs_codes := fun h => absurd h (by decide)
    dec_needs_tree := fun _ => ⟨rfl, rfl⟩
    cursor_on_internal := fun _ => treeOf_root treeOf_tableA }

/-! ## Witnesses: for each claim with hypotheses, a case that meets them all -/

theorem witness_DecodeInvertsEncode :
    (Instr.codeBits 256 7).wellFormed = true ∧ (Instr.nodeRead 512 3).wellFormed = true := by decide

theorem witness_EncodeInvertsDecode : decode 0x21003200 = .ok (.nodeRead 512 3) := by decide

theorem witness_WordsSelectRows :
    ∃ r ∈ opcodeMap, r.selects 0x13000100 = true ∧ r.inRange 0x13000100 = true := by decide

/-- An opcode no row has, and IDX at 513, the first illegal value. -/
theorem witness_IllegalWordsRaiseIllegalCmd :
    (∃ s : State, s.schedule = [] ∧ s.busy = true ∧ s.err = .noFault ∧ IllegalWord s.pendCmd) ∧
    (∃ (s : State) (rest : List Turn), s.schedule = .core :: rest ∧ s.busy = true ∧
      s.err = .noFault ∧ IllegalWord s.pendCmd) :=
  ⟨⟨{ State.reset with busy := true, pendCmd := 0x60000000 }, rfl, rfl, rfl, .inl (by decide)⟩,
   ⟨{ State.reset with busy := true, pendCmd := 0x21000201, schedule := [.core, .host .wait] },
     [.host .wait], rfl, rfl, rfl, .inr (by decide)⟩⟩

theorem witness_StepRunsPendingCommand :
    (∃ (s : State) (i : Instr), s.schedule = [] ∧ s.busy = true ∧ decode s.pendCmd = .ok i) ∧
    (∃ (s : State) (i : Instr) (rest : List Turn), s.schedule = .core :: rest ∧ s.busy = true ∧
      decode s.pendCmd = .ok i) :=
  ⟨⟨{ State.reset with busy := true, pendCmd := 0x11000061 }, .anaByte 0x61, by decide⟩,
   ⟨{ State.reset with busy := true, pendCmd := 0x52000000, schedule := [.core, .host .wait] },
     .decEnd, [.host .wait], by decide⟩⟩

theorem witness_QuiescentBlockIdles :
    (∃ s : State, Quiescent s ∧ s.schedule = []) ∧
    (∃ (s : State) (rest : List Turn), Quiescent s ∧ s.schedule = .core :: rest) :=
  ⟨⟨State.reset, rfl, rfl⟩, ⟨{ State.reset with schedule := [.core] }, [], rfl, rfl⟩⟩

/-- Every one of the four cases of a CMD write. -/
theorem witness_CmdWriteIssues :
    (∃ (s : State) (w : Word) (rest : List Turn), s.resetIn = false ∧
      s.schedule = .host (.write .bits32 0x08 w) :: rest ∧ s.busy = true ∧ s.err = .noFault) ∧
    (∃ (s : State) (w : Word) (rest : List Turn), s.resetIn = false ∧
      s.schedule = .host (.write .bits32 0x08 w) :: rest ∧ s.busy = true ∧ s.err ≠ .noFault) ∧
    (∃ (s : State) (w : Word) (rest : List Turn), s.resetIn = false ∧
      s.schedule = .host (.write .bits32 0x08 w) :: rest ∧ s.busy = false ∧ s.err ≠ .noFault ∧
      w ≠ 0x01000000) ∧
    (∃ (s : State) (w : Word) (rest : List Turn), s.resetIn = false ∧
      s.schedule = .host (.write .bits32 0x08 w) :: rest ∧ s.busy = false ∧ s.err ≠ .noFault ∧
      w = 0x01000000) ∧
    (∃ (s : State) (w : Word) (rest : List Turn), s.resetIn = false ∧
      s.schedule = .host (.write .bits32 0x08 w) :: rest ∧ s.busy = false ∧ s.err = .noFault) :=
  ⟨⟨{ encA with busy := true, schedule := wrTurns 0x08 0x14000061 }, 0x14000061, [], by decide⟩,
   ⟨{ faultedState with busy := true, schedule := wrTurns 0x08 0x01000000 }, 0x01000000, [],
     by decide⟩,
   ⟨{ faultedState with schedule := wrTurns 0x08 0x14000061 }, 0x14000061, [], by decide⟩,
   ⟨{ faultedState with schedule := wrTurns 0x08 0x01000000 }, 0x01000000, [], by decide⟩,
   ⟨{ stateA with schedule := issueTurns .encBegin }, 0x40000000, [], by decide⟩⟩

theorem witness_FaultsArePrecise :
    ∃ (i : Instr) (s t : State), s.err = .noFault ∧ exec i s = .next t ∧ t.err ≠ .noFault :=
  ⟨.decByte 0x40, decX, after (.decByte 0x40) decX, rfl, eq_next_of (by decide), by decide⟩

theorem witness_FirstFaultIsKept :
    ∃ s t : State, s.err ≠ .noFault ∧ step s = .next t ∧ t.err ≠ .noFault :=
  ⟨{ faultedState with busy := true, schedule := wrTurns 0x08 0x01000000 }, _, by decide,
    eq_next_of (by decide), by decide⟩

theorem witness_CommandsRaiseOnlyTheirFaults :
    ∃ (i : Instr) (s t : State), i.wellFormed = true ∧ s.err = .noFault ∧ exec i s = .next t ∧
      t.err = .protocol :=
  ⟨.encByte 0x63, encA, after (.encByte 0x63) encA, rfl, rfl, eq_next_of (by decide), by decide⟩

theorem witness_PhaseChecksRaiseSequence :
    (∃ (i : Instr) (s : State), i.wellFormed = true ∧ s.err = .noFault ∧ ¬ phaseCondition s i) ∧
    (∃ (i : Instr) (s t : State), s.err = .noFault ∧ phaseCondition s i ∧ exec i s = .next t) :=
  ⟨⟨.genCodes, State.reset, rfl, rfl, by simp [phaseCondition, State.reset, State.resetWith]⟩,
   ⟨.genCodes, stateA, after .genCodes stateA, rfl, ⟨rfl, rfl, rfl⟩, eq_next_of (by decide)⟩⟩

theorem witness_FreqClearEmptiesTable :
    (∃ s : State, s.encActive = false ∧ s.decState = .idle) ∧
    (∃ s : State, s.err = .noFault ∧ s.encActive = true) ∧
    (∃ s : State, s.err = .noFault ∧ s.decState ≠ .idle) :=
  ⟨⟨stateA, by decide⟩, ⟨encA, by decide⟩, ⟨decA, by decide⟩⟩

/-- A count one below full, and a full count. -/
theorem witness_AnaByteCountsByte :
    (∃ (b : Byte) (s : State), s.encActive = false ∧ s.decState = .idle ∧
      s.freq[byteIndex b] ≠ 0xFFFFFFFF) ∧
    (∃ (b : Byte) (s : State), s.encActive = false ∧ s.decState = .idle ∧ s.err = .noFault ∧
      s.freq[byteIndex b] = 0xFFFFFFFF) ∧
    (∃ s : State, s.err = .noFault ∧ (s.encActive = true ∨ s.decState ≠ .idle)) :=
  ⟨⟨255, { State.reset with freq := (Vector.replicate 257 0).set 255 0xFFFFFFFE }, by decide⟩,
   ⟨255, { State.reset with freq := (Vector.replicate 257 0).set 255 0xFFFFFFFF }, by decide⟩,
   ⟨encA, by decide⟩⟩

theorem witness_AnaEndSetsEofCount :
    (∃ s : State, s.encActive = false ∧ s.decState = .idle) ∧
    (∃ s : State, s.err = .noFault ∧ (s.encActive = true ∨ s.decState ≠ .idle)) :=
  ⟨⟨State.reset, by decide⟩, ⟨eosA, by decide⟩⟩

/-- SYM at 256, the last legal value, and at 257, the first illegal one. -/
theorem witness_FreqWriteSetsEntry :
    (∃ (a : BitVec 9) (e : Fin 257) (s : State), a.toNat = e.val ∧ e = 256 ∧ s.encActive = false ∧
      s.decState = .idle) ∧
    (∃ (a : BitVec 9) (s : State), a = 257 ∧ 256 < a.toNat ∧ s.err = .noFault) ∧
    (∃ (a : BitVec 9) (s : State), a.toNat ≤ 256 ∧ s.err = .noFault ∧
      (s.encActive = true ∨ s.decState ≠ .idle)) :=
  ⟨⟨256, 256, State.reset, by decide⟩, ⟨257, State.reset, by decide⟩, ⟨256, encA, by decide⟩⟩

theorem witness_FreqReadGivesCount :
    (∃ (a : BitVec 9) (e : Fin 257), a.toNat = e.val ∧ e = 256) ∧
    (∃ (a : BitVec 9) (s : State), a = 257 ∧ 256 < a.toNat ∧ s.err = .noFault) :=
  ⟨⟨256, 256, by decide⟩, ⟨257, State.reset, by decide⟩⟩

theorem witness_AnalyzeCountsOccurrences :
    ∃ (bytes : List Byte) (s : State), s.encActive = false ∧ s.decState = .idle ∧
      (∀ v : Byte, bytes.count v < 2 ^ 32) ∧ bytes = [0x61, 0x61, 0x61, 0x62] :=
  ⟨_, stateA, rfl, rfl, fun v => lt_of_le_of_lt (List.count_le_length) (by decide), rfl⟩

theorem witness_BuildTreeCompletes :
    (∃ s : State, s.encActive = false ∧ s.decState = .idle ∧ ∃ j : Fin 257, s.freq[j] ≠ 0) ∧
    (∃ s : State, s.encActive = false ∧ s.decState = .idle ∧ s.err = .noFault ∧
      ∀ j : Fin 257, s.freq[j] = 0) ∧
    (∃ s : State, s.err = .noFault ∧ (s.encActive = true ∨ s.decState ≠ .idle)) :=
  ⟨⟨stateA, rfl, rfl, 97, by decide⟩,
   ⟨State.reset, rfl, rfl, rfl, fun j => by simp [State.reset, State.resetWith]⟩,
   ⟨encA, by decide⟩⟩

theorem witness_CombineTakesTwoLowest :
    ∃ nodes nodes' pool pool', pool.Nodup ∧ combine nodes pool = some (nodes', pool') :=
  ⟨[leafNode 97 3, leafNode 98 1, leafNode 256 1], _, [0, 1, 2], [0, 3], by decide, by rfl⟩

theorem witness_BuiltTreeShape :
    (∃ t, treeOf tableA = some t) ∧ (∃ t, treeOf tableX = some t) :=
  ⟨⟨treeA, treeOf_tableA⟩, ⟨treeX, treeOf_tableX⟩⟩

/-- The first and the last internal entry of Scenario A's tree (R225 works out their children). -/
theorem witness_TreeJoinsTwoLowest :
    ∃ t, treeOf tableA = some t ∧ 2 ≤ symbolCount tableA ∧
      (∃ i : Fin 513, i = 3 ∧ i.val < t.nodeCount.toNat ∧ t.node[i].leaf = false) ∧
      (∃ i : Fin 513, i = 4 ∧ i.val < t.nodeCount.toNat ∧ t.node[i].leaf = false) :=
  ⟨treeA, treeOf_tableA, by decide, ⟨3, by decide⟩, ⟨4, by decide⟩⟩

/-- IDX at 512, the last legal value, and at 513, the first illegal one. -/
theorem witness_NodeReadGivesField :
    (∃ (x : BitVec 10) (e : Fin 513) (s : State), x.toNat = e.val ∧ e = 512 ∧ s.treeValid = true) ∧
    (∃ (x : BitVec 10) (s : State), x = 513 ∧ 512 < x.toNat ∧ s.err = .noFault) ∧
    (∃ (x : BitVec 10) (s : State), x.toNat ≤ 512 ∧ s.err = .noFault ∧ s.treeValid = false) :=
  ⟨⟨512, 512, stateA, by decide⟩, ⟨513, stateA, by decide⟩, ⟨512, State.reset, by decide⟩⟩

theorem witness_GenCodesCompletes :
    (∃ s : State, s.Inv ∧ s.treeValid = true ∧ s.encActive = false ∧ s.decState = .idle) ∧
    (∃ s : State, s.err = .noFault ∧ s.treeValid = false) ∧
    (∃ s : State, s.err = .noFault ∧ s.encActive = true) ∧
    (∃ s : State, s.err = .noFault ∧ s.decState ≠ .idle) :=
  ⟨⟨stateA, stateA_inv, rfl, rfl, rfl⟩, ⟨State.reset, by decide⟩, ⟨encA, by decide⟩,
   ⟨decA, by decide⟩⟩

theorem witness_CodesAreLeafPaths :
    ∃ t, treeOf tableA = some t ∧ ∃ c, codesOf t.node t.root = .ok c ∧ c.len[97] ≠ 0 ∧
      c.len[98] ≠ 0 :=
  ⟨treeA, treeOf_tableA, codesA, codesOf_treeA, by decide, by decide⟩

/-- A table of three symbols and a table of one. -/
theorem witness_CodeLengthsFillTree :
    (∃ t c, treeOf tableA = some t ∧ codesOf t.node t.root = .ok c ∧ symbolCount tableA = 3) ∧
    (∃ t c, treeOf tableX = some t ∧ codesOf t.node t.root = .ok c ∧ symbolCount tableX = 1) :=
  ⟨⟨treeA, codesA, treeOf_tableA, codesOf_treeA, by decide⟩,
   ⟨treeX, codesIn treeX, treeOf_tableX, codesOf_codesIn (by decide), by decide⟩⟩

theorem witness_CodeLenGivesLength :
    (∃ (a : BitVec 9) (e : Fin 257) (s : State), a.toNat = e.val ∧ e = 256 ∧ s.codesValid = true) ∧
    (∃ (a : BitVec 9) (s : State), a = 257 ∧ 256 < a.toNat ∧ s.err = .noFault) ∧
    (∃ (a : BitVec 9) (s : State), a.toNat ≤ 256 ∧ s.err = .noFault ∧ s.codesValid = false) :=
  ⟨⟨256, 256, stateA, by decide⟩, ⟨257, stateA, by decide⟩, ⟨256, State.reset, by decide⟩⟩

theorem witness_CodeBitsGivesChunk :
    (∃ (a : BitVec 9) (e : Fin 257) (s : State), a.toNat = e.val ∧ e = 256 ∧ s.codesValid = true ∧
      (codeOf s e).length = 2) ∧
    (∃ (a : BitVec 9) (s : State), a = 257 ∧ 256 < a.toNat ∧ s.err = .noFault) ∧
    (∃ (a : BitVec 9) (s : State), a.toNat ≤ 256 ∧ s.err = .noFault ∧ s.codesValid = false) :=
  ⟨⟨256, 256, encA, by decide⟩, ⟨257, stateA, by decide⟩, ⟨256, State.reset, by decide⟩⟩

theorem witness_EncBeginOpensEncode :
    (∃ s : State, s.codesValid = true ∧ s.encActive = false ∧ s.decState = .idle) ∧
    (∃ s : State, s.err = .noFault ∧ s.codesValid = false) ∧
    (∃ s : State, s.err = .noFault ∧ s.encActive = true) ∧
    (∃ s : State, s.err = .noFault ∧ s.decState ≠ .idle) :=
  ⟨⟨stateA, by decide⟩, ⟨State.reset, by decide⟩, ⟨encA, by decide⟩, ⟨decA, by decide⟩⟩

/-- The byte that fits exactly, and the full FIFO. -/
theorem witness_EncByteAppendsCode :
    (∃ (b : Byte) (s : State), s.encActive = true ∧ s.codeLen[byteIndex b] ≠ 0 ∧
      (encPend s ++ codeOf s (byteIndex b)).length / 8 = 1 ∧
      s.config.ofifoDepth.toNat - s.outFifo.length = 1) ∧
    (∃ (b : Byte) (s : State), s.encActive = true ∧ s.codeLen[byteIndex b] ≠ 0 ∧
      s.config.ofifoDepth.toNat - s.outFifo.length <
        ((encPend s).length + s.codeLen[byteIndex b].toNat) / 8) ∧
    (∃ (b : Byte) (s : State), s.encActive = true ∧ s.err = .noFault ∧
      s.codeLen[byteIndex b] = 0) ∧
    (∃ s : State, s.err = .noFault ∧ s.encActive = false) :=
  ⟨⟨98, { fullA with outFifo := List.replicate 32 0xFF }, by decide⟩, ⟨98, fullA, by decide⟩,
   ⟨99, encA, by decide⟩, ⟨stateA, by decide⟩⟩

/-- The end that fits exactly, and the full FIFO. -/
theorem witness_EncFinishPadsAndCloses :
    (∃ s : State, s.encActive = true ∧ s.codeLen[eofIndex] ≠ 0 ∧
      ((encPend s ++ codeOf s eofIndex).length + 7) / 8 = 1 ∧
      s.config.ofifoDepth.toNat - s.outFifo.length = 1) ∧
    (∃ s : State, s.encActive = true ∧ s.codeLen[eofIndex] ≠ 0 ∧
      s.config.ofifoDepth.toNat - s.outFifo.length <
        ((encPend s).length + s.codeLen[eofIndex].toNat + 7) / 8) ∧
    (∃ s : State, s.encActive = true ∧ s.err = .noFault ∧ s.codeLen[eofIndex] = 0) ∧
    (∃ s : State, s.err = .noFault ∧ s.encActive = false) :=
  ⟨⟨{ encA with outFifo := List.replicate 32 0xFF }, by decide⟩, ⟨fullA, by decide⟩,
   ⟨{ State.reset with encActive := true }, by decide⟩,
   ⟨State.reset, by decide⟩⟩

/-- Every condition of the encode and decode sequences: valid codes of the bytes and of EOF. -/
theorem witness_EncodeSequencePacksCodes :
    ∃ (bytes : List Byte) (s : State), s.Inv ∧ s.codesValid = true ∧ s.encActive = false ∧
      s.decState = .idle ∧ (∀ b ∈ bytes, s.codeLen[byteIndex b] ≠ 0) ∧ s.codeLen[eofIndex] ≠ 0 ∧
      bytes.length = 4 :=
  ⟨[0x61, 0x61, 0x61, 0x62], stateA, stateA_inv, rfl, rfl, rfl, by decide, by decide, rfl⟩

theorem witness_DecBeginOpensDecode :
    (∃ s : State, s.treeValid = true ∧ s.encActive = false ∧ s.decState = .idle) ∧
    (∃ s : State, s.err = .noFault ∧ s.treeValid = false) ∧
    (∃ s : State, s.err = .noFault ∧ s.encActive = true) ∧
    (∃ s : State, s.err = .noFault ∧ s.decState ≠ .idle) :=
  ⟨⟨stateA, by decide⟩, ⟨State.reset, by decide⟩, ⟨encA, by decide⟩, ⟨decA, by decide⟩⟩

/-- Each of the four arrivals: an absent child, EOF's leaf, a byte's leaf, an internal entry. -/
theorem witness_TakeBitWalksTree :
    (∃ (w : TreeWalk) (here : Node), nodeAt treeX.node w.cur = some here ∧ here.one = 0x3FF) ∧
    (∃ (w : TreeWalk) (here e : Node), nodeAt treeA.node w.cur = some here ∧ here.one ≠ 0x3FF ∧
      nodeAt treeA.node here.one = some e ∧ e.leaf = true ∧ e.sym = 256) ∧
    (∃ (w : TreeWalk) (here e : Node), nodeAt treeA.node w.cur = some here ∧ here.one ≠ 0x3FF ∧
      nodeAt treeA.node here.one = some e ∧ e.leaf = true ∧ e.sym ≠ 256) ∧
    (∃ (w : TreeWalk) (here e : Node), nodeAt treeA.node w.cur = some here ∧ here.zero ≠ 0x3FF ∧
      nodeAt treeA.node here.zero = some e ∧ e.leaf = false) :=
  ⟨⟨{ cur := 1, bitcnt := 0, state := .run, out := [] },
      { leaf := false, sym := 257, weight := 3, zero := 0, one := 0x3FF }, by decide⟩,
   ⟨{ cur := 3, bitcnt := 0, state := .run, out := [] },
      { leaf := false, sym := 257, weight := 2, zero := 1, one := 2 }, leafNode 256 1, by decide⟩,
   ⟨{ cur := 4, bitcnt := 0, state := .run, out := [] },
      { leaf := false, sym := 257, weight := 5, zero := 3, one := 0 }, leafNode 97 3, by decide⟩,
   ⟨{ cur := 4, bitcnt := 0, state := .run, out := [] },
      { leaf := false, sym := 257, weight := 5, zero := 3, one := 0 },
      { leaf := false, sym := 257, weight := 2, zero := 1, one := 2 }, by decide⟩⟩

/-- A walk that fits exactly, the same walk with room for one byte less, and BAD_PATH. -/
theorem witness_DecByteTakesBitsInOrder :
    (∃ (y : Byte) (s : State) (w : TreeWalk), s.decState = .run ∧
      takeBits s.node s.root (operandBits y)
        { cur := s.decCur, bitcnt := s.bitcnt, state := .run, out := [] } = .ok w ∧
      w.out.length = s.config.ofifoDepth.toNat - s.outFifo.length) ∧
    (∃ (y : Byte) (s : State) (w : TreeWalk), s.decState = .run ∧
      takeBits s.node s.root (operandBits y)
        { cur := s.decCur, bitcnt := s.bitcnt, state := .run, out := [] } = .ok w ∧
      s.config.ofifoDepth.toNat - s.outFifo.length + 1 = w.out.length) ∧
    (∃ (y : Byte) (s : State) (info : Word), s.decState = .run ∧ s.err = .noFault ∧
      takeBits s.node s.root (operandBits y)
        { cur := s.decCur, bitcnt := s.bitcnt, state := .run, out := [] } =
          .error (.raise .badPath info)) ∧
    (∃ s : State, s.err = .noFault ∧ s.decState = .idle) :=
  ⟨⟨0xE2, { decA with outFifo := List.replicate 29 0 },
      { cur := 4, bitcnt := 7, state := .eos, out := [0x61, 0x61, 0x61, 0x62] }, by decide⟩,
   ⟨0xE2, { decA with outFifo := List.replicate 30 0 },
      { cur := 4, bitcnt := 7, state := .eos, out := [0x61, 0x61, 0x61, 0x62] }, by decide⟩,
   ⟨0x40, decX, 0x00060001, by decide⟩, ⟨State.reset, by decide⟩⟩

theorem witness_DecByteCompletes :
    (∃ s : State, s.decState = .eos) ∧
    (∃ s : State, s.Inv ∧ s.decState = .run ∧ 2 < s.nodeCount.toNat ∧
      8 ≤ s.config.ofifoDepth.toNat - s.outFifo.length) :=
  ⟨⟨eosA, rfl⟩, ⟨decA, decA_inv, rfl, by decide, by decide⟩⟩

theorem witness_DecEndClosesOrTruncates :
    (∃ s : State, s.decState = .eos) ∧ (∃ s : State, s.decState = .run ∧ s.err = .noFault) ∧
    (∃ s : State, s.err = .noFault ∧ s.decState = .idle) :=
  ⟨⟨eosA, rfl⟩, ⟨decA, by decide⟩, ⟨State.reset, by decide⟩⟩

/-- The payload 0xE2 with its padding bit set, and a byte after it. -/
theorem witness_DecodePayloadGivesBytes :
    ∃ (bytes fed : List Byte) (s : State), s.Inv ∧ s.codesValid = true ∧ s.encActive = false ∧
      s.decState = .idle ∧ (∀ b ∈ bytes, s.codeLen[byteIndex b] ≠ 0) ∧ s.codeLen[eofIndex] ≠ 0 ∧
      (payloadBits s bytes).length ≤ 8 * fed.length ∧
      (∀ i < (payloadBits s bytes).length,
        (fed.getD (i / 8) 0).getMsbD (i % 8) = (payloadBits s bytes).getD i false) ∧
      fed = [0xE3, 0xFF] :=
  ⟨[0x61, 0x61, 0x61, 0x62], [0xE3, 0xFF], stateA, stateA_inv, rfl, rfl, rfl, by decide, by decide,
    by decide, by decide, rfl⟩

theorem witness_RoundTripRestoresBytes :
    ∃ (bytes : List Byte) (s : State), s.config.legal = true ∧ s.err = .noFault ∧
      s.encActive = false ∧ s.decState = .idle ∧ s.outFifo = [] ∧
      (∀ v : Byte, bytes.count v < 2 ^ 32) ∧ bytes = [0x61, 0x61, 0x61, 0x62] :=
  ⟨_, State.reset, rfl, rfl, rfl, rfl, rfl,
    fun v => lt_of_le_of_lt (List.count_le_length) (by decide), rfl⟩

theorem witness_FlagsWrittenAsTable :
    (∃ (i : Instr) (s t : State), s.err = .noFault ∧ s.busy = true ∧ exec i s = .next t ∧
      t.busy = false ∧ t.err = .noFault) ∧
    (∃ (i : Instr) (s t : State), s.err = .noFault ∧ s.busy = true ∧ exec i s = .next t ∧
      t.busy = false ∧ t.err ≠ .noFault) :=
  ⟨⟨.encBegin, { stateA with busy := true }, _, rfl, rfl, eq_next_of (by decide), by decide,
     by decide⟩,
   ⟨.encFinish, { stateA with busy := true }, _, rfl, rfl, eq_next_of (by decide), by decide,
     by decide⟩⟩

/-- A command that writes RESULT, and one that is not SOFT_RESET. -/
theorem witness_CommandsKeepHostRegisters :
    (∃ (i : Instr) (s t : State), exec i s = .next t ∧ t.result ≠ s.result) ∧
    (∃ (i : Instr) (s t : State), exec i s = .next t ∧ i ≠ .softReset) :=
  ⟨⟨.freqRead 97, stateA, after (.freqRead 97) stateA, eq_next_of (by decide), by decide⟩,
   ⟨.nop, stateA, after .nop stateA, eq_next_of (by decide), by decide⟩⟩

theorem witness_OpenOperationFixesTables :
    ∃ (i : Instr) (s t : State), s.encActive = true ∧ i ≠ .softReset ∧ exec i s = .next t :=
  ⟨.encByte 97, encA, after (.encByte 97) encA, rfl, by decide, eq_next_of (by decide)⟩

/-- A held ENC_BYTE, and a turn that does not end the hold. -/
theorem witness_HoldEndsOnlyByPop :
    ∃ (s t : State) (turn : Turn) (rest : List Turn), Held s ∧ s.schedule = turn :: rest ∧
      (∀ size, turn ≠ .host (.read size 0x14)) ∧ turn ≠ .host .drain ∧
      (∀ size w, turn ≠ .host (.write size 0x08 w)) ∧ turn ≠ .host .assertReset ∧
      step s = .next t :=
  ⟨{ fullA with busy := true, pendCmd := 0x41000062, schedule := [.core] }, _, .core, [],
    ⟨rfl, rfl⟩, rfl, by simp, by simp, by simp, by simp, eq_next_of (by decide)⟩

theorem witness_OutcomeIgnoresHostWrites :
    ∃ (i : Instr) (s t : State), i ≠ .softReset ∧ exec i s = .next t :=
  ⟨.freqWrite 256, stateA, after (.freqWrite 256) stateA, by decide, eq_next_of (by decide)⟩

theorem witness_MostBytesPushed :
    ∃ (i : Instr) (s t : State), s.Inv ∧ exec i s = .next t ∧ t.outFifo.length = 1 :=
  ⟨.encFinish, encA, after .encFinish encA, encA_inv, eq_next_of (by decide), by decide⟩

theorem witness_EmptyFifoEndsCommand :
    (∃ s : State, s.Inv ∧ s.busy = true ∧ s.outFifo = [] ∧ s.schedule = []) ∧
    (∃ (s : State) (rest : List Turn), s.Inv ∧ s.busy = true ∧ s.outFifo = [] ∧
      s.schedule = .core :: rest) :=
  ⟨⟨{ encA with busy := true, pendCmd := 0x42000000 },
    { encA_inv with
      fault_pending := fun h => absurd rfl h
      reset_idle := fun h => absurd h (by decide) }, rfl, rfl, rfl⟩,
   ⟨{ encA with busy := true, pendCmd := 0x42000000, schedule := [.core, .host .wait] },
    [.host .wait],
    { encA_inv with
      fault_pending := fun h => absurd rfl h
      reset_idle := fun h => absurd h (by decide) }, rfl, rfl, rfl⟩⟩

/-- A full FIFO meets STATUS's bound. -/
theorem witness_StatusFields :
    ∃ s : State, s.outFifo.length = s.config.ofifoDepth.toNat := ⟨fullA, by decide⟩

/-- The first and the last offset of the window. -/
theorem witness_ReadsReturnRegisters :
    (∃ (s : State) (rest : List Turn), s.resetIn = false ∧
      s.schedule = .host (.read .bits32 0x00) :: rest) ∧
    (∃ (s : State) (rest : List Turn), s.resetIn = false ∧
      s.schedule = .host (.read .bits32 0x3C) :: rest) ∧
    (∃ (s : State) (rest : List Turn), s.resetIn = false ∧ s.outFifo ≠ [] ∧
      s.schedule = .host (.read .bits32 0x14) :: rest) :=
  ⟨⟨{ stateA with schedule := rdTurns 0x00 }, [], by decide⟩,
   ⟨{ stateA with schedule := rdTurns 0x3C }, [], by decide⟩,
   ⟨{ fullA with schedule := popTurns }, [], by decide⟩⟩

theorem witness_WritesReachArgAndIntEn :
    (∃ (s : State) (w : Word), s.resetIn = false ∧
      s.schedule = [.host (.write .bits32 0x0C w)]) ∧
    (∃ (s : State) (w : Word), s.resetIn = false ∧
      s.schedule = [.host (.write .bits32 0x28 w)]) ∧
    (∃ (s : State) (w : Word), s.resetIn = false ∧
      s.schedule = [.host (.write .bits32 0x3C w)]) :=
  ⟨⟨{ State.reset with schedule := wrTurns 0x0C 3 }, 3, by decide⟩,
   ⟨{ State.reset with schedule := wrTurns 0x28 0xFFFFFFFF }, 0xFFFFFFFF, by decide⟩,
   ⟨{ State.reset with schedule := wrTurns 0x3C 1 }, 1, by decide⟩⟩

theorem witness_OnlyBadAccessesRefused :
    (∃ (s : State) (r : Refusal), step s = .refused r) ∧
    (∃ s : State, s.schedule = [.host (.read .bits32 0x40)]) ∧
    (∃ s : State, s.schedule = [.host (.write .bits8 0x00 1)]) ∧
    (∃ s : State, s.schedule = [.host (.read .bits32 0x02)]) ∧
    (∃ s : State, s.schedule = [.host (.read .bits32 0x04)] ∧ s.resetIn = true) :=
  ⟨⟨{ State.reset with schedule := rdTurns 0x40 }, .outsideWindow, rfl⟩,
   ⟨{ State.reset with schedule := rdTurns 0x40 }, rfl⟩,
   ⟨{ State.reset with schedule := [.host (.write .bits8 0x00 1)] }, rfl⟩,
   ⟨{ State.reset with schedule := rdTurns 0x02 }, rfl⟩,
   ⟨{ State.reset with schedule := rdTurns 0x04, resetIn := true }, rfl, rfl⟩⟩

theorem witness_HardwareResetValues :
    ∃ (s : State) (rest : List Turn), s.schedule = .host .assertReset :: rest ∧ s.encActive = true :=
  ⟨{ fullA with schedule := [.host .assertReset, .host .releaseReset] }, [.host .releaseReset],
    by decide⟩

theorem witness_ResetMeetsInvariant : ∃ c : Config, c.legal = true ∧ c.ofifoDepth = 65535 :=
  ⟨{ ofifoDepth := 65535 }, by decide⟩

theorem witness_StepKeepsInvariant : ∃ s t : State, s.Inv ∧ step s = .next t ∧ s.decState = .run :=
  ⟨decA, _, decA_inv, eq_next_of (by decide), rfl⟩

theorem witness_InvariantExcludesModelFaults :
    ∃ s : State, s.Inv ∧ s.decState = .run ∧ s.treeValid = true := ⟨decA, decA_inv, rfl, rfl⟩

theorem witness_ReachableStatesMeetR63 : Reachable State.reset ∧
    Reachable (nextOf (step { State.reset with schedule := wrTurns 0x08 0x10000000 })) :=
  ⟨.reset _ rfl, .step _ _ (.plan _ _ (.reset _ rfl)) (eq_next_of (by decide))⟩

end Sys2Proof.Machine.Tests
end

section
/-! SUPPORT. The shape of every tree BUILD_TREE builds (42_tree.md R221 to R223; 10_state.md R63 items 1 to
3): children stand below their parents, only the leaves given are leaves, and every node but those still in
the pool has a parent. -/

namespace Sys2Proof.Machine

/-- The entry e, made as node k, joins nodes made before it (R221), or is the wrapper over one (R223). -/
def JoinsBelow (nodes : List Node) (k : Nat) (e : Node) : Prop :=
  ∃ a < k, e.zero = BitVec.ofNat 10 a ∧
    (e.one = nilIdx ∨
      ∃ b < k, e.one = BitVec.ofNat 10 b ∧ e.weight = weightAt nodes a + weightAt nodes b)

/-- Node j is a child of an internal node made after it. -/
def HasParent (nodes : List Node) (j : Nat) : Prop :=
  ∃ (k : Nat) (e : Node), j < k ∧ nodes[k]? = some e ∧ e.leaf = false ∧
    (e.zero = BitVec.ofNat 10 j ∨ e.one = BitVec.ofNat 10 j)

/-- What the loop of R221 keeps: the nodes made so far are a forest over the leaves l whose roots are the
pool. -/
structure Forest (l nodes : List Node) (pool : List Nat) : Prop where
  /-- The pool holds nodes made. -/
  pool_lt : ∀ i ∈ pool, i < nodes.length
  /-- A leaf is one of the leaves given, at its place. -/
  leaf_given : ∀ (k : Nat) (e : Node), nodes[k]? = some e → e.leaf = true → l[k]? = some e
  /-- An internal node joins nodes made before it. -/
  internal_joins : ∀ (k : Nat) (e : Node), nodes[k]? = some e → e.leaf = false →
    JoinsBelow nodes k e
  /-- A node not in the pool has a parent. -/
  rooted : ∀ j < nodes.length, j ∈ pool ∨ HasParent nodes j

theorem getElem?_append_some {nodes : List Node} {k : Nat} {e : Node} (h : nodes[k]? = some e)
    (more : List Node) : (nodes ++ more)[k]? = some e := by
  rw [List.getElem?_append_left (List.getElem?_eq_some_iff.1 h).1, h]

theorem weightAt_append {nodes : List Node} {i : Nat} (h : i < nodes.length) (more : List Node) :
    weightAt (nodes ++ more) i = weightAt nodes i := by
  rw [weightAt, weightAt, List.getD_append _ _ _ _ h]

theorem JoinsBelow.append {nodes : List Node} {k : Nat} {e : Node} (h : JoinsBelow nodes k e)
    (hk : k ≤ nodes.length) (more : List Node) : JoinsBelow (nodes ++ more) k e := by
  obtain ⟨a, ha, hz, hone⟩ := h
  refine ⟨a, ha, hz, hone.imp_right fun ⟨b, hb, ho, hw⟩ => ⟨b, hb, ho, ?_⟩⟩
  rw [weightAt_append (by omega), weightAt_append (by omega), hw]

theorem HasParent.append {nodes : List Node} {j : Nat} (h : HasParent nodes j) (more : List Node) :
    HasParent (nodes ++ more) j := by
  obtain ⟨k, e, hk, he, hleaf, hc⟩ := h
  exact ⟨k, e, hk, getElem?_append_some he more, hleaf, hc⟩

/-- Before the loop every leaf is in the pool (R221). -/
theorem Forest.start {l : List Node} (h : ∀ e ∈ l, e.leaf = true) :
    Forest l l (List.range l.length) where
  pool_lt := fun _ hi => List.mem_range.1 hi
  leaf_given := fun _ _ he _ => he
  internal_joins := fun _ e he hleaf => by simp [h e (List.mem_of_getElem? he)] at hleaf
  rooted := fun _ hj => .inl (List.mem_range.2 hj)

/-- One turn of the loop keeps the forest (R221). -/
theorem Forest.combine {l nodes nodes' : List Node} {pool pool' : List Nat}
    (h : Forest l nodes pool) (hc : combine nodes pool = some (nodes', pool')) :
    Forest l nodes' pool' := by
  obtain ⟨first, second, hf, hs, -, -, rfl, rfl⟩ := combine_some hc
  have hfl := h.pool_lt first hf
  have hsl := h.pool_lt second (List.mem_of_mem_erase hs)
  have hnew : (nodes ++ [internalNode nodes first second])[nodes.length]? =
      some (internalNode nodes first second) := by simp
  have old_or_new : ∀ (k : Nat) (e : Node),
      (nodes ++ [internalNode nodes first second])[k]? = some e →
      nodes[k]? = some e ∨ (k = nodes.length ∧ e = internalNode nodes first second) := by
    intro k e he
    rcases Nat.lt_trichotomy k nodes.length with hk | rfl | hk
    · exact .inl (by rwa [List.getElem?_append_left hk] at he)
    · exact .inr ⟨rfl, Option.some.inj (he.symm.trans hnew)⟩
    · rw [List.getElem?_eq_none (by simp; omega)] at he; cases he
  refine ⟨?_, ?_, ?_, ?_⟩
  · intro i hi
    rcases List.mem_append.1 hi with hi | hi
    · have := h.pool_lt i (List.mem_of_mem_erase (List.mem_of_mem_erase hi))
      simp; omega
    · simp at hi; simp [hi]
  · intro k e he hleaf
    rcases old_or_new k e he with he | ⟨-, rfl⟩
    · exact h.leaf_given k e he hleaf
    · cases hleaf
  · intro k e he hleaf
    rcases old_or_new k e he with he | ⟨rfl, rfl⟩
    · exact (h.internal_joins k e he hleaf).append
        (List.getElem?_eq_some_iff.1 he).1.le _
    · refine ⟨first, hfl, rfl, .inr ⟨second, hsl, rfl, ?_⟩⟩
      rw [weightAt_append hfl, weightAt_append hsl]
      rfl
  · intro j hj
    by_cases hjn : j = nodes.length
    · exact .inl (by simp [hjn])
    by_cases hjf : j = first
    · exact .inr ⟨nodes.length, _, by omega, hnew, rfl, .inl (by rw [hjf]; rfl)⟩
    by_cases hjs : j = second
    · exact .inr ⟨nodes.length, _, by omega, hnew, rfl, .inr (by rw [hjs]; rfl)⟩
    rcases h.rooted j (by simp at hj; omega) with hp | hp
    · exact .inl (List.mem_append_left _
        ((List.mem_erase_of_ne hjs).2 ((List.mem_erase_of_ne hjf).2 hp)))
    · exact .inr (hp.append _)

/-- The loop ends with one tree, its root the last node made (R221). -/
theorem Forest.combineAll {l : List Node} (turns : Nat) (nodes : List Node) (pool : List Nat)
    (h : Forest l nodes pool) (hlast : nodes.length - 1 ∈ pool) (hturns : pool.length ≤ turns) :
    Forest l (combineAll turns nodes pool) [(combineAll turns nodes pool).length - 1] := by
  induction turns generalizing nodes pool with
  | zero =>
    have := List.length_pos_of_mem hlast
    omega
  | succ turns ih =>
    unfold Machine.combineAll
    split
    · rename_i hc
      have hone := combine_none hc
      have hpool : pool = [nodes.length - 1] := by
        have hpos := List.length_pos_of_mem hlast
        obtain ⟨x, rfl⟩ := List.length_eq_one_iff.1 (by omega : pool.length = 1)
        rw [List.mem_singleton.1 hlast]
      rwa [hpool] at h
    · rename_i nodes' pool' hc
      have hlen := combine_length hc
      refine ih _ _ (h.combine hc) ?_ (by omega)
      obtain ⟨_, _, -, -, -, -, rfl, rfl⟩ := combine_some hc
      simp

/-- The tree of a list of leaves is one tree over them, the one-symbol wrapper included (R221, R223). -/
theorem treeNodes_forest {l : List Node} (h : ∀ e ∈ l, e.leaf = true) (hne : l ≠ []) :
    Forest l (treeNodes l) [(treeNodes l).length - 1] := by
  match l with
  | [] => exact absurd rfl hne
  | [leaf] =>
    have hleaf : leaf.leaf = true := h leaf (by simp)
    refine ⟨by simp [treeNodes], ?_, ?_, ?_⟩
    · rintro (_ | _ | k) e he hl <;> simp [treeNodes] at he
      · simp [he]
      · subst he; cases hl
    · rintro (_ | _ | k) e he hl <;> simp [treeNodes] at he
      · subst he; simp [hleaf] at hl
      · subst he; exact ⟨0, by omega, rfl, .inl rfl⟩
    · rintro (_ | _ | j) hj
      · exact .inr ⟨1, wrapperNode leaf, by omega, rfl, rfl, .inl rfl⟩
      · exact .inl (by simp [treeNodes])
      · simp [treeNodes] at hj
  | l0 :: l1 :: rest =>
    exact Forest.combineAll _ _ _ (Forest.start h) (by simp) (by simp)

/-- The leaves made from a stretch of counts are leaves, each of a symbol of the stretch (R221). -/
theorem mem_leavesFrom {sym : Nat} {counts : List Word} {e : Node} (h : e ∈ leavesFrom sym counts)
    (hfit : sym + counts.length ≤ 512) :
    e.leaf = true ∧ sym ≤ e.sym.toNat ∧ e.sym.toNat < sym + counts.length := by
  induction counts generalizing sym with
  | nil => cases h
  | cons c counts ih =>
    simp only [List.length_cons] at hfit ⊢
    have rest : e ∈ leavesFrom (sym + 1) counts → e.leaf = true ∧ sym ≤ e.sym.toNat ∧
        e.sym.toNat < sym + (counts.length + 1) := fun h => by
      obtain ⟨hl, h1, h2⟩ := ih h (by omega)
      exact ⟨hl, by omega, by omega⟩
    unfold leavesFrom at h
    split at h
    · exact rest h
    · rcases List.mem_cons.1 h with rfl | h
      · have : (leafNode sym c).sym.toNat = sym := by
          simp only [leafNode, BitVec.toNat_ofNat]; omega
        exact ⟨rfl, by omega, by omega⟩
      · exact rest h

/-- The leaves stand in ascending symbol order (R222). -/
theorem leavesFrom_ascending (sym : Nat) (counts : List Word) (hfit : sym + counts.length ≤ 512) :
    (leavesFrom sym counts).Pairwise fun d e => d.sym.toNat < e.sym.toNat := by
  induction counts generalizing sym with
  | nil => exact .nil
  | cons c counts ih =>
    simp only [List.length_cons] at hfit
    unfold leavesFrom
    split
    · exact ih _ (by omega)
    · refine .cons (fun e he => ?_) (ih _ (by omega))
      have h1 := (mem_leavesFrom he (by omega)).2.1
      have : (leafNode sym c).sym.toNat = sym := by
        simp only [leafNode, BitVec.toNat_ofNat]; omega
      omega

theorem mem_leaves {freq : Vector Word 257} {e : Node} (h : e ∈ leaves freq) :
    e.leaf = true ∧ e.sym.toNat < 257 := by
  obtain ⟨hl, -, hs⟩ := mem_leavesFrom h (by simp)
  exact ⟨hl, by simpa using hs⟩

/-- No symbol has two leaves (R63 item 3). -/
theorem leaves_sym_inj {freq : Vector Word 257} {i j : Nat} {d e : Node}
    (hi : (leaves freq)[i]? = some d) (hj : (leaves freq)[j]? = some e) (hs : d.sym = e.sym) :
    i = j := by
  obtain ⟨hil, rfl⟩ := List.getElem?_eq_some_iff.1 hi
  obtain ⟨hjl, rfl⟩ := List.getElem?_eq_some_iff.1 hj
  have hp := List.pairwise_iff_getElem.1 (leavesFrom_ascending 0 freq.toList (by simp))
  rcases Nat.lt_trichotomy i j with h | h | h
  · have := hp i j hil hjl h
    have := congrArg BitVec.toNat hs
    simp only [leaves] at this
    omega
  · exact h
  · have := hp j i hjl hil h
    have := congrArg BitVec.toNat hs
    simp only [leaves] at this
    omega

/-! The same of the arena that BUILD_TREE writes. -/
section
variable {freq : Vector Word 257} {t : BuiltTree}

/-- An index that selects an entry is its number. -/
theorem nodeAt_some {arena : Vector Node 513} {x : BitVec 10} {e : Node}
    (h : nodeAt arena x = some e) : ∃ i : Fin 513, x.toNat = i.val ∧ arena[i] = e := by
  unfold nodeAt nodeIndex at h
  split at h
  · rename_i i hi
    split at hi
    · cases hi; cases h; exact ⟨_, rfl, rfl⟩
    · cases hi
  · cases h

theorem built_forest (h : treeOf freq = some t) :
    Forest (leaves freq) (treeNodes (leaves freq)) [(treeNodes (leaves freq)).length - 1] :=
  treeNodes_forest (fun _ he => (mem_leaves he).1) (treeOf_some h).1

/-- The entries below NODE_COUNT are the tree's nodes. -/
theorem built_entry (h : treeOf freq = some t) {i : Fin 513} (hi : i.val < t.nodeCount.toNat) :
    (treeNodes (leaves freq))[i.val]? = some t.node[i] := by
  obtain ⟨-, hn, hc, -⟩ := treeOf_some h
  have hlen : i.val < (treeNodes (leaves freq)).length := hc ▸ hi
  rw [hn, arenaOf_get, List.getD_eq_getElem _ _ hlen, List.getElem?_eq_getElem hlen]

theorem built_weight (h : treeOf freq = some t) (i : Fin 513) :
    weightAt (treeNodes (leaves freq)) i.val = t.node[i].weight := by
  rw [(treeOf_some h).2.1, arenaOf_get, weightAt]

/-- An internal entry joins entries below it (R63 item 2). -/
theorem built_joins (h : treeOf freq = some t) {i : Fin 513} (hi : i.val < t.nodeCount.toNat)
    (hleaf : t.node[i].leaf = false) : JoinsBelow (treeNodes (leaves freq)) i.val t.node[i] :=
  (built_forest h).internal_joins _ _ (built_entry h hi) hleaf

/-- Leaf symbols are unique (R63 item 3). -/
theorem built_leaf_unique (h : treeOf freq = some t) {i j : Fin 513}
    (hi : i.val < t.nodeCount.toNat) (hj : j.val < t.nodeCount.toNat)
    (hil : t.node[i].leaf = true) (hjl : t.node[j].leaf = true)
    (hs : t.node[i].sym = t.node[j].sym) : i = j :=
  Fin.ext (leaves_sym_inj ((built_forest h).leaf_given _ _ (built_entry h hi) hil)
    ((built_forest h).leaf_given _ _ (built_entry h hj) hjl) hs)

/-- The weight of an internal entry with two children is their sum (R63 item 2). -/
theorem built_weight_sum (h : treeOf freq = some t) {i a b : Fin 513}
    (hi : i.val < t.nodeCount.toNat) (hleaf : t.node[i].leaf = false)
    (hz : t.node[i].zero.toNat = a.val) (ho : t.node[i].one.toNat = b.val) :
    t.node[i].weight = t.node[a].weight + t.node[b].weight := by
  obtain ⟨a', ha', hz', hone⟩ := built_joins h hi hleaf
  have ha : a' = a.val := by rw [hz', BitVec.toNat_ofNat] at hz; omega
  rcases hone with hnil | ⟨b', hb', ho', hw⟩
  · have : nilIdx.toNat = 1023 := rfl
    rw [hnil] at ho; omega
  · have hb : b' = b.val := by rw [ho', BitVec.toNat_ofNat] at ho; omega
    rw [hw, ha, hb, built_weight h, built_weight h]

/-- A child that is there stands below its parent (R221). -/
theorem built_child_lt (h : treeOf freq = some t) {i : Fin 513} (hi : i.val < t.nodeCount.toNat)
    (hleaf : t.node[i].leaf = false) {x : Bool} (hx : childOf t.node[i] x ≠ nilIdx) :
    (childOf t.node[i] x).toNat < i.val := by
  obtain ⟨a, ha, hz, hone⟩ := built_joins h hi hleaf
  cases x with
  | false =>
    show t.node[i].zero.toNat < i.val
    rw [hz, BitVec.toNat_ofNat]
    exact (Nat.mod_le _ _).trans_lt ha
  | true =>
    rcases hone with hnil | ⟨b, hb, ho, -⟩
    · exact absurd hnil hx
    · show t.node[i].one.toNat < i.val
      rw [ho, BitVec.toNat_ofNat]
      exact (Nat.mod_le _ _).trans_lt hb

end

end Sys2Proof.Machine
end

section
/-! SUPPORT. What keeps the invariant of the block (10_state.md R63): each update of the state, each
command's effect, each turn. -/

namespace Sys2Proof.Machine

/-! ## The cursor of an open decode -/

/-- An arena index below the count that selects an internal entry (R310). -/
def InternalAt (arena : Vector Node 513) (count cur : BitVec 10) : Prop :=
  ∃ e, nodeAt arena cur = some e ∧ e.leaf = false ∧ cur.toNat < count.toNat

theorem cursorOnInternal_iff (s : State) :
    CursorOnInternal s ↔ InternalAt s.node s.nodeCount s.decCur := Iff.rfl

/-- The cursor after an arrival: the root after a leaf, else the entry arrived at (R310). -/
theorem arrive_cur (root nxt : BitVec 10) (e : Node) (w : TreeWalk) :
    (arrive root nxt e w).cur = if e.leaf then root else nxt := by
  unfold arrive
  cases e.leaf
  · rfl
  · simp only [if_true]; split <;> rfl

/-- One decoded bit leaves the cursor on an internal entry of a built tree (R310). -/
theorem takeBit_internal {freq : Vector Word 257} {t : BuiltTree} (ht : treeOf freq = some t)
    {n : BitVec 3} {x : Bool} {w w' : TreeWalk} (hw : InternalAt t.node t.nodeCount w.cur)
    (h : takeBit t.node t.root n x w = .ok w') : InternalAt t.node t.nodeCount w'.cur := by
  obtain ⟨here, e, hhere, hchild, he, rfl⟩ := takeBit_ok h
  rw [arrive_cur]
  cases hleaf : e.leaf with
  | true => exact treeOf_root ht
  | false =>
    obtain ⟨here', hhere', hint, hlt⟩ := hw
    obtain rfl : here' = here := Option.some.inj (hhere'.symm.trans hhere)
    obtain ⟨i, hi, rfl⟩ := nodeAt_some hhere
    have := built_child_lt ht (hi ▸ hlt) hint hchild
    exact ⟨e, he, hleaf, by simp only [Bool.false_eq_true, if_false]; omega⟩

/-- So do the bits of a DEC_BYTE (R312). -/
theorem takeBits_internal {freq : Vector Word 257} {t : BuiltTree} (ht : treeOf freq = some t)
    {bits : List (BitVec 3 × Bool)} {w w' : TreeWalk} (hw : InternalAt t.node t.nodeCount w.cur)
    (h : takeBits t.node t.root bits w = .ok w') : InternalAt t.node t.nodeCount w'.cur := by
  induction bits generalizing w with
  | nil => cases h; exact hw
  | cons b rest ih =>
    unfold takeBits at h
    split at h
    · cases h; exact hw
    · split at h
      · cases h
      · exact ih (takeBit_internal ht hw (by assumption)) h

/-! ## Reset -/

/-- The block after reset meets the invariant (R61, R63). -/
theorem resetWith_inv {c : Config} (h : c.legal = true) : (State.resetWith c).Inv where
  depth_legal := h
  fifo_fits := Nat.zero_le _
  err_raised := by simp [State.resetWith]
  codes_need_tree := id
  enc_needs_codes := fun h => absurd h (by simp [State.resetWith])
  dec_needs_tree := fun h => absurd rfl h
  tree_is_built := fun h => absurd h (by simp [State.resetWith])
  codes_are_generated := fun h => absurd h (by simp [State.resetWith])
  cursor_on_internal := fun h => absurd rfl h
  arena_built := .inl ⟨rfl, rfl, fun i => by simp [State.resetWith]⟩
  code_len_bound := fun i => by simp [State.resetWith]
  code_padded := fun i => by simp [State.resetWith, codeOf]
  acc_padded := by simp [State.resetWith, encPend]
  fault_pending := fun h => absurd rfl h
  reset_idle := fun _ => rfl

namespace State.Inv

variable {s : State}

/-! ## Updates of the state -/

theorem softReset (h : s.Inv) : (softResetState s).Inv :=
  { resetWith_inv h.depth_legal with reset_idle := fun _ => rfl }

theorem hardReset (h : s.Inv) : (hardResetState s).Inv :=
  { resetWith_inv h.depth_legal with reset_idle := fun _ => rfl }

/-- Taking a fault the block can raise keeps the invariant (R345). -/
theorem takeFault (h : s.Inv) {code : ErrCode} (hc : code ≠ .corruptHeader) (info w : Word) :
    (takeFault code info w s).Inv := by
  rw [takeFault_eq]
  exact { h with
    fifo_fits := Nat.zero_le _
    err_raised := by
      show (if s.err = .noFault then code else s.err) ≠ .corruptHeader
      split
      · exact hc
      · exact h.err_raised
    fault_pending := fun _ hb => absurd hb (by simp)
    reset_idle := fun _ => rfl }

/-- A write of FREQ, which clears TREE_VALID and CODES_VALID, while nothing is open (R130, R190). -/
theorem clearTables (h : s.Inv) (hopen : noneOpen s = true) (freq : Vector Word 257) :
    (clearTreeAndCodes { s with freq := freq }).Inv := by
  simp only [noneOpen, Bool.and_eq_true, Bool.not_eq_true', decide_eq_true_eq] at hopen
  obtain ⟨henc, hdec⟩ := hopen
  exact { h with
    codes_need_tree := id
    enc_needs_codes := fun he => absurd he (by simp [henc])
    dec_needs_tree := fun hd => absurd hdec hd
    tree_is_built := fun ht => absurd ht (by simp)
    codes_are_generated := fun hc => absurd hc (by simp) }

/-- The write of RESULT (R45). -/
theorem writeResult (h : s.Inv) (v : Word) : (writeResult v s).Inv := { h with }

/-- BITCNT is free (R47). -/
theorem withBitcnt (h : s.Inv) (n : BitVec 64) : State.Inv { s with bitcnt := n } := { h with }

/-- The end of an encode (R283). -/
theorem closeEncode (h : s.Inv) : State.Inv { s with encActive := false } :=
  { h with
    enc_needs_codes := fun he => absurd he (by simp)
    dec_needs_tree := fun hd => ⟨(h.dec_needs_tree hd).1, rfl⟩ }

/-- A write of fewer than 8 pending bits (R57, R280). -/
theorem setEncPend (h : s.Inv) {p : Bits} (hp : p.length < 8) : (setEncPend p s).Inv :=
  { h with acc_padded := by rw [encPend_setEncPend s hp]; rfl }

/-- The end of a command that completes: its bytes fit and BUSY is cleared (R161). -/
theorem commit (h : s.Inv) {out : List Byte}
    (hroom : s.outFifo.length + out.length ≤ s.config.ofifoDepth.toNat) :
    State.Inv { s with outFifo := s.outFifo ++ out, busy := false } :=
  { h with
    fifo_fits := by simpa using hroom
    fault_pending := fun _ hb => absurd hb (by simp)
    reset_idle := fun _ => rfl }

/-! ## Commands -/

/-- BUILD_TREE writes the tree of FREQ while nothing is open (R224). -/
theorem buildTree (h : s.Inv) (hopen : noneOpen s = true) {t : BuiltTree}
    (ht : treeOf s.freq = some t) :
    State.Inv { s with node := t.node, nodeCount := t.nodeCount, root := t.root, treeValid := true,
                       codesValid := false } := by
  simp only [noneOpen, Bool.and_eq_true, Bool.not_eq_true', decide_eq_true_eq] at hopen
  obtain ⟨henc, hdec⟩ := hopen
  exact { h with
    codes_need_tree := fun _ => rfl
    enc_needs_codes := fun he => absurd he (by simp [henc])
    dec_needs_tree := fun hd => absurd hdec hd
    tree_is_built := fun _ => ht
    codes_are_generated := fun hc => absurd hc (by simp)
    cursor_on_internal := fun hd => absurd hdec hd
    arena_built := .inr ⟨s.freq, ht⟩ }

/-- GEN_CODES writes the codes of the tree (R251). -/
theorem genCodes (h : s.Inv) (htree : s.treeValid = true) {c : CodeTable}
    (hc : codesOf s.node s.root = .ok c) :
    State.Inv { s with codeLen := c.len, code := c.code, codesValid := true } :=
  { h with
    codes_need_tree := fun _ => htree
    enc_needs_codes := fun he => ⟨rfl, (h.enc_needs_codes he).2⟩
    codes_are_generated := fun _ => hc
    code_len_bound := fun i => (codesOf_padded hc i).1
    code_padded := fun i => (codesOf_padded hc i).2 }

/-- ENC_BEGIN opens an encode when the codes are there and nothing is open (R281). -/
theorem openEncode (h : s.Inv) (hcodes : s.codesValid = true) (hdec : s.decState = .idle) :
    State.Inv { s with encActive := true } :=
  { h with
    enc_needs_codes := fun _ => ⟨hcodes, hdec⟩
    dec_needs_tree := fun hd => absurd hdec hd }

/-- DEC_BEGIN opens a decode at the root when the tree is there and nothing is open (R311). -/
theorem openDecode (h : s.Inv) (htree : s.treeValid = true) (henc : s.encActive = false) :
    State.Inv { s with decCur := s.root, decState := .run } :=
  { h with
    enc_needs_codes := fun he => absurd he (by simp [henc])
    dec_needs_tree := fun _ => ⟨htree, henc⟩
    cursor_on_internal := fun _ => treeOf_root (h.tree_is_built htree) }

/-- DEC_BYTE walks the tree of an open decode (R312). -/
theorem walkDecode (h : s.Inv) (hopen : s.decState ≠ .idle) {bits : List (BitVec 3 × Bool)}
    {w : TreeWalk} (hw : takeBits s.node s.root bits (walkStart s) = .ok w) :
    State.Inv { s with decCur := w.cur, decState := w.state } := by
  obtain ⟨htree, henc⟩ := h.dec_needs_tree hopen
  exact { h with
    enc_needs_codes := fun he => absurd he (by simp [henc])
    dec_needs_tree := fun _ => ⟨htree, henc⟩
    cursor_on_internal := fun _ =>
      takeBits_internal (w := walkStart s) (h.tree_is_built htree)
        ((cursorOnInternal_iff s).1 (h.cursor_on_internal hopen)) hw }

/-- DEC_END closes the decode (R315). -/
theorem closeDecode (h : s.Inv) : State.Inv { s with decState := .idle } :=
  { h with
    enc_needs_codes := fun he => ⟨(h.enc_needs_codes he).1, rfl⟩
    dec_needs_tree := fun hd => absurd rfl hd
    cursor_on_internal := fun hd => absurd rfl hd }

/-- The effect of every command keeps the invariant. -/
theorem effectOf {i : Instr} {s' : State} {out : List Byte} (h : s.Inv)
    (he : effectOf i s = .ok (s', out)) : s'.Inv := by
  obtain ⟨hp, he⟩ := effectOf_ok he
  cases i <;> simp only [phaseOk] at hp
  case nop => obtain ⟨rfl, -⟩ := he; exact h
  case softReset => obtain ⟨rfl, -⟩ := he; exact h.softReset
  case freqClear => obtain ⟨rfl, -⟩ := he; exact h.clearTables hp _
  case anaByte b => obtain ⟨-, rfl, -⟩ := he; exact h.clearTables hp _
  case anaEnd f =>
    obtain ⟨rfl, -⟩ := he
    split
    · exact h.clearTables hp _
    · exact h.clearTables hp s.freq
  case freqWrite a => obtain ⟨e, -, rfl, -⟩ := he; exact h.clearTables hp _
  case freqRead a => obtain ⟨e, -, rfl, -⟩ := he; exact h.writeResult _
  case buildTree => obtain ⟨t, ht, -, rfl⟩ := he; exact h.buildTree hp ht
  case nodeRead x f => obtain ⟨e, -, rfl, -⟩ := he; exact h.writeResult _
  case genCodes =>
    obtain ⟨c, hc, -, rfl⟩ := he
    exact h.genCodes (Bool.and_eq_true_iff.1 hp).1 hc
  case codeLen a => obtain ⟨e, -, rfl, -⟩ := he; exact h.writeResult _
  case codeBits a k => obtain ⟨e, -, rfl, -⟩ := he; exact h.writeResult _
  case encBegin =>
    obtain ⟨rfl, -⟩ := he
    simp only [noneOpen, Bool.and_eq_true, decide_eq_true_eq] at hp
    obtain ⟨hcodes, -, hdec⟩ := hp
    exact ((h.openEncode hcodes hdec).withBitcnt 0).setEncPend (by simp)
  case encByte b =>
    obtain ⟨-, -, rfl⟩ := he
    exact (h.withBitcnt _).setEncPend (putBits_spec _ _ (length_encPend_lt s)).1
  case encFinish =>
    obtain ⟨-, -, rfl⟩ := he
    refine (h.closeEncode.withBitcnt _).setEncPend ?_
    rw [(flush_spec _ (putBits_spec _ _ (length_encPend_lt s)).1).1]
    simp
  case decBegin =>
    obtain ⟨rfl, -⟩ := he
    simp only [noneOpen, Bool.and_eq_true, Bool.not_eq_true'] at hp
    obtain ⟨htree, henc, -⟩ := hp
    exact (h.openDecode htree henc).withBitcnt 0
  case decByte y =>
    obtain ⟨w, hw, -, rfl⟩ := he
    exact (h.walkDecode (by simpa using hp) hw).withBitcnt _
  case decEnd => obtain ⟨-, rfl, -⟩ := he; exact h.closeDecode

end State.Inv

/-! ## Turns -/

/-- No command raises CORRUPT_HEADER, and none raises "no fault" (R341, R342). -/
theorem effectOf_raise {i : Instr} {s : State} {code : ErrCode} {info : Word}
    (h : effectOf i s = .error (.raise code info)) : code ≠ .corruptHeader ∧ code ≠ .noFault := by
  rcases effectOf_error h with ⟨-, h⟩ | ⟨-, h⟩ | ⟨-, h⟩
  · cases h; decide
  · cases h; decide
  · cases i <;> simp only at h
    case genCodes => obtain ⟨f, -, h⟩ := h; cases h
    case decByte y =>
      obtain ⟨-, h | ⟨info', h⟩⟩ := h
      · cases h
      · cases h; decide
    all_goals (cases h; decide)

/-- The core step of every command keeps the invariant. -/
theorem exec_keeps_inv {i : Instr} {s t : State} (hs : s.Inv) (h : exec i s = .next t) : t.Inv := by
  rcases exec_next h with ⟨code, info, he, rfl⟩ | ⟨s', out, he, hroom, rfl⟩ | ⟨-, -, -, -, rfl⟩
  · exact hs.takeFault (effectOf_raise he).1 _ _
  · obtain ⟨hconfig, -, -, -, -, -, hkeep⟩ := effectOf_keeps he
    have hs' := hs.effectOf he
    refine hs'.commit ?_
    have hfits := hs.fifo_fits
    by_cases hi : i = .softReset
    · subst hi
      obtain ⟨-, rfl, rfl⟩ := effectOf_ok he
      simp
    · obtain ⟨-, -, -, -, -, -, hfifo⟩ := hkeep hi
      rw [hfifo, hconfig]
      simp only [room] at hroom
      omega
  · exact hs

/-- A core turn keeps the invariant (R161). -/
theorem coreTurn_keeps_inv {s t : State} (hs : s.Inv) (h : coreTurn s = .next t) : t.Inv := by
  unfold coreTurn at h
  split at h
  · split at h
    · exact exec_keeps_inv hs h
    · cases h; exact hs.takeFault (by decide) _ _
  · cases h; exact hs

/-- A write of CMD keeps the invariant (R160). -/
theorem issue_keeps_inv {s : State} (hs : s.Inv) (hreset : s.resetIn = false) (w : Word) :
    (issue w s).Inv := by
  have latch (hw : s.err ≠ .noFault → w = 0x01000000) : (latchCommand w s).Inv :=
    { hs with
      fault_pending := fun he _ => hw he
      reset_idle := fun hr => absurd hr (by simp [hreset]) }
  unfold issue
  split
  · exact hs.takeFault (by decide) _ _
  · split
    · split
      · exact latch fun _ => by assumption
      · exact hs
    · rename_i hf
      exact latch fun he => absurd (by simpa [inFault] using he) hf

/-- A write of any register keeps the invariant (R85). -/
theorem writeReg_keeps_inv {s : State} (hs : s.Inv) (hreset : s.resetIn = false) (r : Reg)
    (w : Word) : (writeReg r w s).Inv := by
  cases r
  case cmd => exact issue_keeps_inv hs hreset w
  case arg => exact { hs with }
  case intEn => exact { hs with }
  all_goals exact hs

/-- A turn of the host keeps the invariant (R94). -/
theorem hostTurn_keeps_inv {op : HostOp} {s t : State} (hs : s.Inv)
    (h : hostTurn op s = .next t) : t.Inv := by
  rcases hostTurn_next h with ⟨off, r, turns, -, -, rfl⟩ | ⟨off, w, r, -, hr, rfl⟩ | ⟨-, rfl⟩ |
    ⟨-, rfl⟩
  · refine { hs with fifo_fits := ?_ }
    have hfits := hs.fifo_fits
    show (if r = .outData then s.outFifo.tail else s.outFifo).length ≤ s.config.ofifoDepth.toNat
    split
    · rw [List.length_tail]; omega
    · exact hfits
  · obtain ⟨-, -, -, hreset, -⟩ := busTarget_ok hr
    exact writeReg_keeps_inv hs hreset r w
  · exact hs.hardReset
  · exact { hs with reset_idle := fun hr => absurd hr (by simp) }

/-- What a step is: a turn of the core or of the host, its turn taken from the schedule (R94). -/
theorem step_cases {s t : State} (h : step s = .next t) :
    ∃ rest, coreTurn { s with schedule := rest } = .next t ∨
      ∃ op, s.schedule = .host op :: rest ∧ hostTurn op { s with schedule := rest } = .next t := by
  unfold step at h
  split at h
  · rename_i hs
    refine ⟨[], .inl ?_⟩
    rwa [show ({ s with schedule := [] } : State) = s by rw [← hs]]
  · exact ⟨_, .inl h⟩
  · exact ⟨_, .inr ⟨_, by assumption, h⟩⟩

/-- Every step keeps the invariant (R63). -/
theorem step_keeps_inv {s t : State} (hs : s.Inv) (h : step s = .next t) : t.Inv := by
  obtain ⟨rest, h | ⟨op, -, h⟩⟩ := step_cases h
  · exact coreTurn_keeps_inv (hs.withSchedule rest) h
  · exact hostTurn_keeps_inv (hs.withSchedule rest) h

end Sys2Proof.Machine

open Sys2Proof.Machine

/-- Settles O54: every field of the reset state meets its clause. -/
theorem resetMeetsInvariant : Obligations.ResetMeetsInvariant := by
  unfold Obligations.ResetMeetsInvariant
  exact ⟨fun _ => resetWith_inv, resetWith_inv rfl⟩

/-- Settles O55, turn by turn: the commands' effects, faults, the host's accesses, the reset input. -/
theorem stepKeepsInvariant : Obligations.StepKeepsInvariant := by
  unfold Obligations.StepKeepsInvariant
  exact fun _ _ => step_keeps_inv
end

section
/-! SUPPORT. What the decoder can answer: one lemma for each format (30_encoding.md R122,
R129), and the one word it reads as SOFT_RESET (R125). -/

namespace Sys2Proof

variable {w : Word} {i : Instr}

theorem decodeN_ok {j : Instr} (h : decodeN w j = .ok i) : w.extractLsb' 0 24 = 0 ∧ i = j := by
  unfold decodeN at h
  split at h
  · cases h; exact ⟨by assumption, rfl⟩
  · cases h

theorem decodeB_ok {mk : Byte → Instr} (h : decodeB w mk = .ok i) :
    w.extractLsb' 8 16 = 0 ∧ i = mk (w.extractLsb' 0 8) := by
  unfold decodeB at h
  split at h
  · cases h; exact ⟨by assumption, rfl⟩
  · cases h

theorem decodeF_ok {mk : Bool → Instr} (h : decodeF w mk = .ok i) :
    w.extractLsb' 1 23 = 0 ∧ i = mk (w.getLsbD 0) := by
  unfold decodeF at h
  split at h
  · cases h; exact ⟨by assumption, rfl⟩
  · cases h

theorem decodeS_ok {mk : BitVec 9 → Instr} (h : decodeS w mk = .ok i) :
    w.extractLsb' 9 15 = 0 ∧ symLegal (w.extractLsb' 0 9) = true ∧ i = mk (w.extractLsb' 0 9) := by
  unfold decodeS at h
  split at h
  · split at h
    · cases h; exact ⟨by assumption, by assumption, rfl⟩
    · cases h
  · cases h

theorem decodeSK_ok {mk : BitVec 9 → BitVec 3 → Instr} (h : decodeSK w mk = .ok i) :
    (w.extractLsb' 15 9 = 0 ∧ w.extractLsb' 9 3 = 0) ∧ symLegal (w.extractLsb' 0 9) = true ∧
      i = mk (w.extractLsb' 0 9) (w.extractLsb' 12 3) := by
  unfold decodeSK at h
  split at h
  · split at h
    · cases h; exact ⟨by assumption, by assumption, rfl⟩
    · cases h
  · cases h

theorem decodeNI_ok {mk : BitVec 10 → BitVec 2 → Instr} (h : decodeNI w mk = .ok i) :
    (w.extractLsb' 14 10 = 0 ∧ w.extractLsb' 10 2 = 0) ∧ idxLegal (w.extractLsb' 0 10) = true ∧
      i = mk (w.extractLsb' 0 10) (w.extractLsb' 12 2) := by
  unfold decodeNI at h
  split at h
  · split at h
    · cases h; exact ⟨by assumption, by assumption, rfl⟩
    · cases h
  · cases h

theorem ite_ne_of_ne {c : Prop} [Decidable c] {a b x : Except DecodeError Instr} (ha : a ≠ x)
    (hb : b ≠ x) : (if c then a else b) ≠ x := by
  split
  · exact ha
  · exact hb

/-- Only the word 0x01000000 is SOFT_RESET (R125, R160). -/
theorem decode_eq_softReset (h : decode w = .ok .softReset) : w = 0x01000000 := by
  have hop : opcodeOf w = 0x01 := by
    by_contra hne
    unfold decode at h
    rw [if_neg hne] at h
    -- one branch for each other opcode, in the order of R125; none gives SOFT_RESET
    refine absurd h ?_
    refine ite_ne_of_ne (fun h => nomatch (decodeN_ok h).2) ?_
    refine ite_ne_of_ne (fun h => nomatch (decodeN_ok h).2) ?_
    refine ite_ne_of_ne (fun h => nomatch (decodeB_ok h).2) ?_
    refine ite_ne_of_ne (fun h => nomatch (decodeF_ok h).2) ?_
    refine ite_ne_of_ne (fun h => nomatch (decodeS_ok h).2.2) ?_
    refine ite_ne_of_ne (fun h => nomatch (decodeS_ok h).2.2) ?_
    refine ite_ne_of_ne (fun h => nomatch (decodeN_ok h).2) ?_
    refine ite_ne_of_ne (fun h => nomatch (decodeNI_ok h).2.2) ?_
    refine ite_ne_of_ne (fun h => nomatch (decodeN_ok h).2) ?_
    refine ite_ne_of_ne (fun h => nomatch (decodeS_ok h).2.2) ?_
    refine ite_ne_of_ne (fun h => nomatch (decodeSK_ok h).2.2) ?_
    refine ite_ne_of_ne (fun h => nomatch (decodeN_ok h).2) ?_
    refine ite_ne_of_ne (fun h => nomatch (decodeB_ok h).2) ?_
    refine ite_ne_of_ne (fun h => nomatch (decodeN_ok h).2) ?_
    refine ite_ne_of_ne (fun h => nomatch (decodeN_ok h).2) ?_
    refine ite_ne_of_ne (fun h => nomatch (decodeB_ok h).2) ?_
    refine ite_ne_of_ne (fun h => nomatch (decodeN_ok h).2) ?_
    nofun
  have hlow : w.extractLsb' 0 24 = 0 := by
    unfold decode at h
    rw [if_neg (by rw [hop]; decide), if_pos hop] at h
    exact (decodeN_ok h).1
  have h1 := congrArg BitVec.toNat hop
  have h2 := congrArg BitVec.toNat hlow
  rw [opcodeOf, toNat_slice] at h1
  rw [toNat_slice] at h2
  have hw := w.isLt
  refine BitVec.eq_of_toNat_eq ?_
  simp at h1 h2 ⊢
  omega

end Sys2Proof
end

section
/-! SUPPORT. What a turn does to the fault record, the phase flags and the host's registers (10_state.md R40
to R62; 60_exceptions.md R345, R349). -/

namespace Sys2Proof.Machine

/-! ## The fault record -/

/-- ERR, ERR_CMD and ERR_INFO are as before (R40). -/
def RecordKept (s t : State) : Prop :=
  t.err = s.err ∧ t.errCmd = s.errCmd ∧ t.errInfo = s.errInfo

/-- ERR, ERR_CMD and ERR_INFO are cleared (R349). -/
def RecordCleared (t : State) : Prop := t.err = .noFault ∧ t.errCmd = 0 ∧ t.errInfo = 0

/-- A later fault is not recorded (R345). -/
theorem takeFault_recordKept {s : State} (hs : s.err ≠ .noFault) (code : ErrCode) (info w : Word) :
    RecordKept s (takeFault code info w s) := by
  rw [takeFault_kept hs]; exact ⟨rfl, rfl, rfl⟩

/-- A core step in the FAULT state keeps the record, unless it is SOFT_RESET's (R349). -/
theorem exec_record {i : Instr} {s t : State} (hs : s.err ≠ .noFault) (h : exec i s = .next t) :
    RecordKept s t ∨ (RecordCleared t ∧ i = .softReset) := by
  rcases exec_next h with ⟨code, info, -, rfl⟩ | ⟨s', out, he, -, rfl⟩ | ⟨-, -, -, -, rfl⟩
  · exact .inl (takeFault_recordKept hs _ _ _)
  · by_cases hi : i = .softReset
    · subst hi
      obtain ⟨-, rfl, -⟩ := effectOf_ok he
      exact .inr ⟨⟨rfl, rfl, rfl⟩, rfl⟩
    · obtain ⟨-, -, -, -, -, -, hkeep⟩ := effectOf_keeps he
      obtain ⟨herr, hcmd, hinfo, -⟩ := hkeep hi
      exact .inl ⟨herr, hcmd, hinfo⟩
  · exact .inl ⟨rfl, rfl, rfl⟩

/-- So does the core's turn; SOFT_RESET is then the pending command. -/
theorem coreTurn_record {s t : State} (hs : s.err ≠ .noFault) (h : coreTurn s = .next t) :
    RecordKept s t ∨ (RecordCleared t ∧ s.busy = true ∧ s.pendCmd = 0x01000000) := by
  unfold coreTurn at h
  split at h
  · rename_i hbusy
    split at h
    · rename_i i hi
      rcases exec_record hs h with hkept | ⟨hclear, rfl⟩
      · exact .inl hkept
      · exact .inr ⟨hclear, hbusy, decode_eq_softReset hi⟩
    · cases h; exact .inl (takeFault_recordKept hs _ _ _)
  · cases h; exact .inl ⟨rfl, rfl, rfl⟩

/-- No write of a register touches the record in the FAULT state (R347). -/
theorem writeReg_record {s : State} (hs : s.err ≠ .noFault) (r : Reg) (w : Word) :
    RecordKept s (writeReg r w s) := by
  cases r
  case cmd =>
    show RecordKept s (issue w s)
    unfold issue
    split
    · exact takeFault_recordKept hs _ _ _
    · split
      · split <;> exact ⟨rfl, rfl, rfl⟩
      · exact ⟨rfl, rfl, rfl⟩
  all_goals exact ⟨rfl, rfl, rfl⟩

/-- The host's turn clears the record only by hardware reset (R351). -/
theorem hostTurn_record {op : HostOp} {s t : State} (hs : s.err ≠ .noFault)
    (h : hostTurn op s = .next t) :
    RecordKept s t ∨ (RecordCleared t ∧ op = .assertReset) := by
  rcases hostTurn_next h with ⟨off, r, turns, -, -, rfl⟩ | ⟨off, w, r, -, -, rfl⟩ | ⟨rfl, rfl⟩ |
    ⟨-, rfl⟩
  · exact .inl ⟨rfl, rfl, rfl⟩
  · exact .inl (writeReg_record hs r w)
  · exact .inr ⟨⟨rfl, rfl, rfl⟩, rfl⟩
  · exact .inl ⟨rfl, rfl, rfl⟩

/-! ## The phase flags -/

/-- What a command that completes writes of the phase flags, by the table of R62; the FIFO and BUSY, which
its end writes, are no phase flags. -/
theorem effectOf_flags {i : Instr} {s s' : State} {out : List Byte}
    (h : effectOf i s = .ok (s', out)) (fifo : List Byte) (busy : Bool) :
    flagsAfter s { s' with outFifo := fifo, busy := busy } i := by
  obtain ⟨hp, hi⟩ := effectOf_ok h
  cases i <;> simp only [flagsAfter]
  case nop => obtain ⟨rfl, -⟩ := hi; simp
  case softReset => obtain ⟨rfl, -⟩ := hi; simp
  case freqClear => obtain ⟨rfl, -⟩ := hi; simp
  case anaByte b => obtain ⟨-, rfl, -⟩ := hi; simp
  case anaEnd f => obtain ⟨rfl, -⟩ := hi; split <;> simp
  case freqWrite a => obtain ⟨e, -, rfl, -⟩ := hi; simp
  case freqRead a => obtain ⟨e, -, rfl, -⟩ := hi; simp
  case buildTree => obtain ⟨t, -, -, rfl⟩ := hi; simp
  case nodeRead x f => obtain ⟨e, -, rfl, -⟩ := hi; simp
  case genCodes => obtain ⟨c, -, -, rfl⟩ := hi; simp
  case codeLen a => obtain ⟨e, -, rfl, -⟩ := hi; simp
  case codeBits a k => obtain ⟨e, -, rfl, -⟩ := hi; simp
  case encBegin => obtain ⟨rfl, -⟩ := hi; simp
  case encByte b => obtain ⟨-, -, rfl⟩ := hi; simp
  case encFinish => obtain ⟨-, -, rfl⟩ := hi; simp
  case decBegin => obtain ⟨rfl, -⟩ := hi; simp
  case decByte y =>
    obtain ⟨w, hw, -, rfl⟩ := hi
    obtain ⟨-, -, -, -, -, -, hstate, -⟩ := takeBits_ok hw
    refine ⟨rfl, rfl, rfl, ?_⟩
    rcases hstate with hstate | hstate
    · have hopen : s.decState ≠ .idle := by simpa [phaseOk] using hp
      show w.state = .run ∨ w.state = .eos
      rw [hstate]
      show s.decState = .run ∨ s.decState = .eos
      cases hd : s.decState
      · exact absurd hd hopen
      · exact .inl rfl
      · exact .inr rfl
    · exact .inr hstate
  case decEnd => obtain ⟨-, rfl, -⟩ := hi; simp

/-! ## The host's registers -/

/-- The commands that write RESULT (R45, R61). -/
def WritesResult (i : Instr) : Prop :=
  i = .softReset ∨ (∃ a, i = .freqRead a) ∨ (∃ x f, i = .nodeRead x f) ∨ (∃ a, i = .codeLen a) ∨
    (∃ a k, i = .codeBits a k)

/-- Every other command that completes leaves RESULT (R45). -/
theorem effectOf_result {i : Instr} {s s' : State} {out : List Byte}
    (h : effectOf i s = .ok (s', out)) : WritesResult i ∨ s'.result = s.result := by
  obtain ⟨-, hi⟩ := effectOf_ok h
  cases i
  case softReset => exact .inl (.inl rfl)
  case freqRead a => exact .inl (.inr (.inl ⟨a, rfl⟩))
  case nodeRead x f => exact .inl (.inr (.inr (.inl ⟨x, f, rfl⟩)))
  case codeLen a => exact .inl (.inr (.inr (.inr (.inl ⟨a, rfl⟩))))
  case codeBits a k => exact .inl (.inr (.inr (.inr (.inr ⟨a, k, rfl⟩))))
  case nop => obtain ⟨rfl, -⟩ := hi; exact .inr rfl
  case freqClear => obtain ⟨rfl, -⟩ := hi; exact .inr rfl
  case anaByte b => obtain ⟨-, rfl, -⟩ := hi; exact .inr rfl
  case anaEnd f => obtain ⟨rfl, -⟩ := hi; right; split <;> rfl
  case freqWrite a => obtain ⟨e, -, rfl, -⟩ := hi; exact .inr rfl
  case buildTree => obtain ⟨t, -, -, rfl⟩ := hi; exact .inr rfl
  case genCodes => obtain ⟨c, -, -, rfl⟩ := hi; exact .inr rfl
  case encBegin => obtain ⟨rfl, -⟩ := hi; exact .inr rfl
  case encByte b => obtain ⟨-, -, rfl⟩ := hi; exact .inr rfl
  case encFinish => obtain ⟨-, -, rfl⟩ := hi; exact .inr rfl
  case decBegin => obtain ⟨rfl, -⟩ := hi; exact .inr rfl
  case decByte y => obtain ⟨w, -, -, rfl⟩ := hi; exact .inr rfl
  case decEnd => obtain ⟨-, rfl, -⟩ := hi; exact .inr rfl

end Sys2Proof.Machine

open Sys2Proof Sys2Proof.Machine

/-- Settles O10: the core's turn clears the record only by SOFT_RESET, the host's only by the reset
input. -/
theorem firstFaultIsKept : Obligations.FirstFaultIsKept := by
  unfold Obligations.FirstFaultIsKept
  intro s t hs h
  obtain ⟨rest, h | ⟨op, hop, h⟩⟩ := step_cases h
  · rcases coreTurn_record (s := { s with schedule := rest }) hs h with
      hkept | ⟨⟨herr, hcmd, hinfo⟩, hsoft⟩
    · exact .inl hkept
    · exact .inr ⟨herr, hcmd, hinfo, .inl hsoft⟩
  · rcases hostTurn_record (s := { s with schedule := rest }) hs h with
      hkept | ⟨⟨herr, hcmd, hinfo⟩, rfl⟩
    · exact .inl hkept
    · exact .inr ⟨herr, hcmd, hinfo, .inr (by rw [hop]; rfl)⟩

/-- Settles O41: a command that faults changes no flag, one that completes writes its row of R62, and a
held one does not end. -/
theorem flagsWrittenAsTable : Obligations.FlagsWrittenAsTable := by
  unfold Obligations.FlagsWrittenAsTable
  intro i s t hs hbusy h hend
  rcases exec_next h with ⟨code, info, he, rfl⟩ | ⟨s', out, he, -, rfl⟩ | ⟨-, -, -, -, rfl⟩
  · rw [commandFault_first hs]
    exact ⟨fun hn => absurd hn (effectOf_raise he).2, fun _ => ⟨rfl, rfl, rfl, rfl⟩⟩
  · refine ⟨fun _ => effectOf_flags he _ _, fun hfault => absurd ?_ hfault⟩
    by_cases hi : i = .softReset
    · subst hi
      obtain ⟨-, rfl, -⟩ := effectOf_ok he
      rfl
    · obtain ⟨-, -, -, -, -, -, hkeep⟩ := effectOf_keeps he
      exact (hkeep hi).1.trans hs
  · simp [hbusy] at hend

/-- Settles O42: a fault and a hold change none of these registers, and no effect but those named. -/
theorem commandsKeepHostRegisters : Obligations.CommandsKeepHostRegisters := by
  unfold Obligations.CommandsKeepHostRegisters
  intro i s t h
  rcases exec_next h with ⟨code, info, -, rfl⟩ | ⟨s', out, he, -, rfl⟩ | ⟨-, -, -, -, rfl⟩
  · rw [commandFault, takeFault_eq]
    exact ⟨fun hr => absurd rfl hr, fun _ => ⟨rfl, rfl, rfl⟩, rfl, rfl, rfl, rfl, rfl, rfl⟩
  · obtain ⟨hconfig, herrIe, heosIe, hreset, hschedule, hlog, hkeep⟩ := effectOf_keeps he
    refine ⟨fun hr => (effectOf_result he).resolve_right hr, fun hi => ?_, herrIe, heosIe, hconfig,
      hreset, hschedule, hlog⟩
    obtain ⟨-, -, -, harg, hcmd, hparg, -⟩ := hkeep hi
    exact ⟨harg, hcmd, hparg⟩
  · exact ⟨fun hr => absurd rfl hr, fun _ => ⟨rfl, rfl, rfl⟩, rfl, rfl, rfl, rfl, rfl, rfl⟩
end

section
/-! SUPPORT. The register window (10_state.md R33, R34, R42 to R52) and hardware reset (R61). -/

namespace Sys2Proof.Machine

/-! ## STATUS -/

/-- STATUS as a number: its fields at their places (R34). -/
theorem toNat_statusWord (s : State) :
    (statusWord s).toNat =
      s.busy.toNat + 2 * s.treeValid.toNat + 4 * s.codesValid.toNat + 8 * s.encActive.toNat +
        16 * (decNumber s.decState).toNat + 64 * (inFault s).toNat + 128 * (outValid s).toNat +
        256 * (errNumber s.err).toNat + 65536 * (outLevel s).toNat := by
  simp only [statusWord, toNat_concat, BitVec.toNat_ofBool]
  omega

/-- A bit of a word, from the word's number. -/
theorem bit_eq {w : Word} {k : Nat} {b : Bool} (h : w.toNat / 2 ^ k % 2 = b.toNat) :
    w.getLsbD k = b := by
  rw [BitVec.getLsbD, Nat.testBit_eq_decide_div_mod_eq, h]
  cases b <;> rfl

/-- The fields of STATUS read back (R34). -/
theorem statusWord_fields (s : State) :
    (statusWord s).getLsbD 0 = s.busy ∧ (statusWord s).getLsbD 1 = s.treeValid ∧
      (statusWord s).getLsbD 2 = s.codesValid ∧ (statusWord s).getLsbD 3 = s.encActive ∧
      (statusWord s).extractLsb' 4 2 = decNumber s.decState ∧
      (statusWord s).getLsbD 6 = inFault s ∧ (statusWord s).getLsbD 7 = outValid s ∧
      (statusWord s).extractLsb' 8 8 = errNumber s.err ∧
      (statusWord s).extractLsb' 16 16 = outLevel s := by
  have hword := toNat_statusWord s
  have hbusy := s.busy.toNat_lt
  have htree := s.treeValid.toNat_lt
  have hcodes := s.codesValid.toNat_lt
  have henc := s.encActive.toNat_lt
  have hdec := (decNumber s.decState).isLt
  have hfault := (inFault s).toNat_lt
  have hvalid := (outValid s).toNat_lt
  have herr := (errNumber s.err).isLt
  have hlevel := (outLevel s).isLt
  refine ⟨bit_eq ?_, bit_eq ?_, bit_eq ?_, bit_eq ?_, slice_eq ?_, bit_eq ?_, bit_eq ?_,
    slice_eq ?_, slice_eq ?_⟩ <;> rw [hword] <;> omega

/-! ## Reads and writes of the window -/

/-- An aligned offset of the window names a register, and what a read of it returns (R33). -/
theorem regAt_window {off : Nat} (hoff : off < 0x40) (halign : off % 4 = 0) :
    ∃ r, regAt off = some r ∧ (r = .outData ↔ off = 0x14) ∧ (r = .cmd ↔ off = 0x08) ∧
      (r = .arg ↔ off = 0x0C) ∧ (r = .intEn ↔ off = 0x28) ∧
      ∀ s, regValue s r = windowWord s off := by
  have lo (s : State) : s.bitcnt.extractLsb' 0 32 = BitVec.ofNat 32 s.bitcnt.toNat :=
    BitVec.eq_of_toNat_eq (by simp)
  have hi (s : State) : s.bitcnt.extractLsb' 32 32 = BitVec.ofNat 32 (s.bitcnt.toNat / 2 ^ 32) :=
    BitVec.eq_of_toNat_eq (by simp [Nat.shiftRight_eq_div_pow])
  have out (s : State) : outDataWord s.outFifo = windowWord s 0x14 := rfl
  interval_cases off <;> simp at halign <;>
    exact ⟨_, rfl, by decide, by decide, by decide, by decide, fun s => by
      simp [regValue, windowWord, lo, hi, out]⟩

/-- A read that is answered (R80): the word in the log, and OUT_DATA's byte removed. -/
theorem hostTurn_read {s : State} {off : Nat} {r : Reg} (hr : regAt off = some r)
    (hreset : s.resetIn = false) :
    hostTurn (.read .bits32 off) s = .next { s with
      outFifo := if r = .outData then s.outFifo.tail else s.outFifo
      readLog := s.readLog ++ [{ off := off, data := regValue s r }] } := by
  simp only [hostTurn, busRead, busTarget_of_regAt hr hreset]
  cases r <;> rfl

/-- A write that is answered (R80). -/
theorem hostTurn_write {s : State} {off : Nat} {r : Reg} (hr : regAt off = some r)
    (hreset : s.resetIn = false) (w : Word) :
    hostTurn (.write .bits32 off w) s = .next (writeReg r w s) := by
  simp only [hostTurn, busWrite, busTarget_of_regAt hr hreset]

/-- Only writes of CMD, ARG and INT_EN have an effect (R85). -/
theorem writeReg_other {r : Reg} (hcmd : r ≠ .cmd) (harg : r ≠ .arg) (hint : r ≠ .intEn) (w : Word)
    (s : State) : writeReg r w s = s := by
  cases r
  case cmd => exact absurd rfl hcmd
  case arg => exact absurd rfl harg
  case intEn => exact absurd rfl hint
  all_goals rfl

/-- The host's turn, when the schedule gives it one (R94). -/
theorem step_host {s : State} {op : HostOp} {rest : List Turn} (h : s.schedule = .host op :: rest) :
    step s = hostTurn op { s with schedule := rest } := by
  rw [step, h]

end Sys2Proof.Machine

open Sys2Proof Sys2Proof.Machine

/-- Settles O48, field by field. -/
theorem statusFields : Obligations.StatusFields := by
  unfold Obligations.StatusFields
  intro s hfits
  obtain ⟨hbusy, htree, hcodes, henc, hdec, hfault, hvalid, herr, hlevel⟩ := statusWord_fields s
  refine ⟨hbusy, htree, hcodes, henc, ?_, ?_, ?_, ?_, ?_⟩
  · rw [hdec]; cases s.decState <;> rfl
  · rw [hfault]; simp [inFault]
  · rw [hvalid]; simp [outValid, List.length_pos_iff]
  · rw [herr]; cases s.err <;> rfl
  · have hdepth := s.config.ofifoDepth.isLt
    rw [hlevel, outLevel, BitVec.toNat_ofNat]
    omega

/-- Settles O49: the register the offset names is read, and only OUT_DATA has a side effect. -/
theorem readsReturnRegisters : Obligations.ReadsReturnRegisters := by
  unfold Obligations.ReadsReturnRegisters
  intro s off rest hreset hoff halign hs
  obtain ⟨r, hr, hout, -, -, -, hvalue⟩ := regAt_window hoff halign
  rw [step_host hs, hostTurn_read (s := { s with schedule := rest }) hr hreset, hvalue]
  simp only [hout]
  rfl

/-- Settles O50: the register the offset names is written. -/
theorem writesReachArgAndIntEn : Obligations.WritesReachArgAndIntEn := by
  unfold Obligations.WritesReachArgAndIntEn
  intro s off w rest hreset hoff halign hs
  obtain ⟨r, hr, -, hcmd, harg, hint, -⟩ := regAt_window hoff halign
  rw [step_host hs, hostTurn_write (s := { s with schedule := rest }) hr hreset w]
  refine ⟨fun h => ?_, fun h => ?_, fun h1 h2 h3 => ?_⟩
  · rw [harg.2 h]; rfl
  · rw [hint.2 h]; rfl
  · rw [writeReg_other (mt hcmd.1 h1) (mt harg.1 h2) (mt hint.1 h3)]

/-- Settles O53: every field of the state after the reset input is asserted is the column's value. -/
theorem hardwareResetValues : Obligations.HardwareResetValues := by
  unfold Obligations.HardwareResetValues
  intro s rest hs
  refine ⟨hardResetState { s with schedule := rest }, by rw [step_host hs]; rfl, ?_, ?_, ?_, ?_⟩
  · simp [encPend, irq]
  · intro j; simp [codeOf]
  · intro j; simp [Node.unused]
  · exact ⟨rfl, rfl, rfl, rfl⟩
end

section
/-! SUPPORT. The paths of a built tree and the codes GEN_CODES records (43_codes.md R250, R252): every entry is
reached from the root, the codes are the paths to the leaves, and no code begins another. -/

namespace Sys2Proof.Machine

/-! ## Paths -/

section
variable {arena : Vector Node 513} {i x : BitVec 10} {e : Node} {b : Bool} {p q : Bits}

/-- One bit of a path: through an internal entry to the child it chooses, when that is there. -/
theorem followPath_bit (he : nodeAt arena i = some e) :
    followPath arena i (b :: p) =
      if e.leaf = true ∨ childOf e b = nilIdx then none else followPath arena (childOf e b) p := by
  simp only [followPath, he]
  show (if (e.leaf || decide (childOf e b = nilIdx)) = true then none
    else followPath arena (childOf e b) p) = _
  simp only [Bool.or_eq_true, decide_eq_true_eq]

theorem followPath_nowhere (he : nodeAt arena i = none) : followPath arena i (b :: p) = none := by
  simp only [followPath, he]

theorem followPath_cons (he : nodeAt arena i = some e) (hleaf : e.leaf = false)
    (hchild : childOf e b ≠ nilIdx) :
    followPath arena i (b :: p) = followPath arena (childOf e b) p := by
  rw [followPath_bit he, if_neg (by simp [hleaf, hchild])]

theorem followPath_cons_some (h : followPath arena i (b :: p) = some x) :
    ∃ e, nodeAt arena i = some e ∧ e.leaf = false ∧ childOf e b ≠ nilIdx ∧
      followPath arena (childOf e b) p = some x := by
  cases he : nodeAt arena i with
  | none => rw [followPath_nowhere he] at h; cases h
  | some e =>
    rw [followPath_bit he] at h
    split at h
    · cases h
    · rename_i hgo
      obtain ⟨hleaf, hchild⟩ := not_or.1 hgo
      exact ⟨e, rfl, by simpa using hleaf, hchild, h⟩

theorem followPath_append :
    followPath arena i (p ++ q) = (followPath arena i p).bind fun y => followPath arena y q := by
  induction p generalizing i with
  | nil => rfl
  | cons b p ih =>
    rw [List.cons_append]
    cases he : nodeAt arena i with
    | none => rw [followPath_nowhere he, followPath_nowhere he]; rfl
    | some e =>
      rw [followPath_bit he, followPath_bit he]
      split
      · rfl
      · exact ih

end

/-- The path p leads from index i to the leaf of symbol number s (R250). -/
def LeadsToLeaf (arena : Vector Node 513) (i : BitVec 10) (p : Bits) (s : Fin 257) : Prop :=
  ∃ x l, followPath arena i p = some x ∧ nodeAt arena x = some l ∧ l.leaf = true ∧
    l.sym.toNat = s.val

section
variable {arena : Vector Node 513} {i : BitVec 10} {e : Node} {p q : Bits} {s s' : Fin 257}

/-- From a leaf only the empty path leads to a leaf, to that of its symbol. -/
theorem LeadsToLeaf.at_leaf (h : LeadsToLeaf arena i p s) (he : nodeAt arena i = some e)
    (hleaf : e.leaf = true) : p = [] ∧ e.sym.toNat = s.val := by
  obtain ⟨x, l, hp, hl, -, hs⟩ := h
  cases p with
  | nil =>
    obtain rfl : i = x := Option.some.inj hp
    obtain rfl : e = l := Option.some.inj (he.symm.trans hl)
    exact ⟨rfl, hs⟩
  | cons b p =>
    obtain ⟨e', he', hint, -⟩ := followPath_cons_some hp
    obtain rfl : e = e' := Option.some.inj (he.symm.trans he')
    simp [hint] at hleaf

/-- From an internal entry a path to a leaf goes through a child. -/
theorem LeadsToLeaf.at_internal (h : LeadsToLeaf arena i p s) (he : nodeAt arena i = some e)
    (hleaf : e.leaf = false) :
    ∃ b q, p = b :: q ∧ childOf e b ≠ nilIdx ∧ LeadsToLeaf arena (childOf e b) q s := by
  obtain ⟨x, l, hp, hl, hll, hs⟩ := h
  cases p with
  | nil =>
    obtain rfl : i = x := Option.some.inj hp
    obtain rfl : e = l := Option.some.inj (he.symm.trans hl)
    simp [hleaf] at hll
  | cons b q =>
    obtain ⟨e', he', -, hchild, hq⟩ := followPath_cons_some hp
    obtain rfl : e = e' := Option.some.inj (he.symm.trans he')
    exact ⟨b, q, rfl, hchild, x, l, hq, hl, hll, hs⟩

theorem LeadsToLeaf.cons {b : Bool} (h : LeadsToLeaf arena (childOf e b) p s)
    (he : nodeAt arena i = some e) (hleaf : e.leaf = false) (hchild : childOf e b ≠ nilIdx) :
    LeadsToLeaf arena i (b :: p) s := by
  obtain ⟨x, l, hp, hl⟩ := h
  exact ⟨x, l, by rw [followPath_cons he hleaf hchild, hp], hl⟩

/-- A path to a leaf begins no path to another leaf (R252 item 3). -/
theorem LeadsToLeaf.prefix_free (h : LeadsToLeaf arena i p s) (h' : LeadsToLeaf arena i q s')
    (hpq : p <+: q) : s = s' := by
  obtain ⟨r, rfl⟩ := hpq
  obtain ⟨x, l, hp, hl, hll, hs⟩ := h
  obtain ⟨y, l', hq, hl'⟩ := h'
  rw [followPath_append, hp] at hq
  obtain ⟨-, hs'⟩ := LeadsToLeaf.at_leaf (p := r) (s := s') ⟨y, l', hq, hl'⟩ hl hll
  exact Fin.ext (hs.symm.trans hs')

end

/-! ## What a walk records -/

/-- The code of a symbol in a table (R56). -/
def CodeTable.bits (t : CodeTable) (s : Fin 257) : Bits := unpackMsb t.code[s] t.len[s].toNat

theorem CodeTable.bits_eq_nil {t : CodeTable} {s : Fin 257} : t.bits s = [] ↔ t.len[s] = 0 := by
  rw [← List.length_eq_zero_iff, CodeTable.bits, length_unpackMsb, ← BitVec.toNat_inj]
  rfl

theorem emptyCodes_bits (s : Fin 257) : emptyCodes.bits s = [] :=
  CodeTable.bits_eq_nil.2 (by simp [emptyCodes])

theorem recordCode_bits {i : Fin 257} {path : Bits} (hp : path.length ≤ 256) (t : CodeTable)
    (j : Fin 257) : (recordCode i path t).bits j = if j = i then path else t.bits j := by
  rw [CodeTable.bits, recordCode_len, recordCode_code]
  split
  · have hlen : (BitVec.ofNat 9 path.length).toNat = path.length := by
      rw [BitVec.toNat_ofNat]; omega
    rw [hlen, unpackMsb_packMsb hp]
  · rfl

section
variable {arena : Vector Node 513} {depth : Nat} {i : BitVec 10} {path : Bits} {t t' : CodeTable}

/-- What a walk does at the entry it comes to (R250): it records a leaf's path, or goes through the
zero-child and then through the one-child. -/
theorem walk_cases (h : walk arena (depth + 1) i path t = .ok t') (hi : i ≠ nilIdx) :
    ∃ e, nodeAt arena i = some e ∧
      ((e.leaf = true ∧ ∃ s : Fin 257, e.sym.toNat = s.val ∧ t' = recordCode s path t) ∨
       (e.leaf = false ∧ ∃ t1, walk arena depth (childOf e false) (path ++ [false]) t = .ok t1 ∧
          walk arena depth (childOf e true) (path ++ [true]) t1 = .ok t')) := by
  unfold walk at h
  rw [if_neg hi] at h
  split at h
  · cases h
  · rename_i e he
    refine ⟨e, he, ?_⟩
    split at h
    · split at h
      · cases h
        exact .inl ⟨by assumption, _, symIndex_some (by assumption), rfl⟩
      · cases h
    · split at h
      · cases h
      · exact .inr ⟨by simpa using (by assumption : ¬ e.leaf = true), _, by assumption, h⟩

/-- Where there is no entry a walk records nothing. -/
theorem walk_nil (h : walk arena depth nilIdx path t = .ok t') : t' = t := by
  cases depth with
  | zero => cases h
  | succ depth => unfold walk at h; cases h; rfl

/-- Every code a walk changes is the path of a leaf it came to (R250). -/
theorem walk_records (h : walk arena depth i path t = .ok t') (hd : path.length + depth ≤ 257)
    (s : Fin 257) :
    t'.bits s = t.bits s ∨
      (i ≠ nilIdx ∧ ∃ q, t'.bits s = path ++ q ∧ LeadsToLeaf arena i q s) := by
  induction depth generalizing i path t t' with
  | zero => cases h
  | succ depth ih =>
    by_cases hi : i = nilIdx
    · subst hi; rw [walk_nil h]; exact .inl rfl
    obtain ⟨e, he, ⟨hleaf, s0, hs0, rfl⟩ | ⟨hleaf, t1, h0, h1⟩⟩ := walk_cases h hi
    · rw [recordCode_bits (by omega)]
      split
      · rename_i hs; subst hs
        exact .inr ⟨hi, [], by simp, i, e, rfl, he, hleaf, hs0⟩
      · exact .inl rfl
    · rcases ih h1 (by simp; omega) with hsame | ⟨hchild, q, hq, hl⟩
      · rw [hsame]
        rcases ih h0 (by simp; omega) with hsame | ⟨hchild, q, hq, hl⟩
        · exact .inl hsame
        · exact .inr ⟨hi, false :: q, by simp [hq], hl.cons he hleaf hchild⟩
      · exact .inr ⟨hi, true :: q, by simp [hq], hl.cons he hleaf hchild⟩

/-- A code once recorded stays one: below the root a walk records no empty path. -/
theorem walk_keeps_recorded (h : walk arena depth i path t = .ok t')
    (hd : path.length + depth ≤ 257) (hpath : path ≠ []) {s : Fin 257} (ht : t.bits s ≠ []) :
    t'.bits s ≠ [] := by
  rcases walk_records h hd s with hsame | ⟨-, q, hq, -⟩
  · rwa [hsame]
  · simp [hq, hpath]

/-- Below the root a walk records a code for every leaf it can come to (R250). -/
theorem walk_reaches (h : walk arena depth i path t = .ok t') (hd : path.length + depth ≤ 257)
    (hpath : path ≠ []) (hi : i ≠ nilIdx) {q : Bits} {s : Fin 257} (hq : LeadsToLeaf arena i q s) :
    t'.bits s ≠ [] := by
  induction depth generalizing i path t t' q with
  | zero => cases h
  | succ depth ih =>
    obtain ⟨e, he, ⟨hleaf, s0, hs0, rfl⟩ | ⟨hleaf, t1, h0, h1⟩⟩ := walk_cases h hi
    · obtain ⟨-, hs⟩ := hq.at_leaf he hleaf
      rw [recordCode_bits (by omega), if_pos (Fin.ext (hs.symm.trans hs0))]
      exact hpath
    · obtain ⟨b, q', rfl, hchild, hq'⟩ := hq.at_internal he hleaf
      cases b with
      | false =>
        exact walk_keeps_recorded h1 (by simp; omega) (by simp)
          (ih h0 (by simp; omega) (by simp) hchild hq')
      | true => exact ih h1 (by simp; omega) (by simp) hchild hq'

end

/-! ## The codes of a built tree -/

section
variable {freq : Vector Word 257} {t : BuiltTree} {c : CodeTable}

/-- Every code of a table GEN_CODES wrote leads from the root to the leaf of its symbol (R252). -/
theorem codesOf_leads {arena : Vector Node 513} {root : BitVec 10}
    (hc : codesOf arena root = .ok c) {s : Fin 257} (hs : c.bits s ≠ []) :
    LeadsToLeaf arena root (c.bits s) s := by
  rcases walk_records hc (by simp) s with hsame | ⟨-, q, hq, hl⟩
  · exact absurd (hsame.trans (emptyCodes_bits s)) hs
  · rw [hq, List.nil_append]; exact hl

/-- Every leaf that the root leads to has a code (R250). -/
theorem codesOf_reaches (ht : treeOf freq = some t) (hc : codesOf t.node t.root = .ok c)
    {q : Bits} {s : Fin 257} (hq : LeadsToLeaf t.node t.root q s) : c.bits s ≠ [] := by
  obtain ⟨e, he, hleaf, -⟩ := treeOf_root ht
  have hroot : t.root ≠ nilIdx := by
    intro hn
    obtain ⟨k, hk, -⟩ := nodeAt_some he
    have : nilIdx.toNat = 1023 := rfl
    rw [hn] at hk; omega
  obtain ⟨e', he', ⟨hleaf', -⟩ | ⟨-, t1, h0, h1⟩⟩ := walk_cases hc hroot
  · obtain rfl : e = e' := Option.some.inj (he.symm.trans he')
    simp [hleaf] at hleaf'
  · obtain rfl : e = e' := Option.some.inj (he.symm.trans he')
    obtain ⟨b, q', -, hchild, hq'⟩ := hq.at_internal he hleaf
    cases b with
    | false =>
      exact walk_keeps_recorded h1 (by simp) (by simp)
        (walk_reaches h0 (by simp) (by simp) hchild hq')
    | true => exact walk_reaches h1 (by simp) (by simp) hchild hq'

/-- The root leads to every entry below NODE_COUNT: the last has no parent, each other has one above it
(R221). -/
theorem built_reached (ht : treeOf freq = some t) (j : Nat) (hj : j < t.nodeCount.toNat) :
    ∃ p, followPath t.node t.root p = some (BitVec.ofNat 10 j) := by
  obtain ⟨-, -, hcount, hroot, -, hmax⟩ := treeOf_some ht
  by_cases hlast : j = t.root.toNat
  · exact ⟨[], by rw [hlast, BitVec.ofNat_toNat, BitVec.setWidth_eq]; rfl⟩
  obtain hpool | ⟨k, e, hjk, he, hleaf, hchild⟩ := (built_forest ht).rooted j (by omega)
  · exact absurd (List.mem_singleton.1 hpool) (by omega)
  have hk : k < t.nodeCount.toNat := by
    rw [hcount]; exact (List.getElem?_eq_some_iff.1 he).1
  obtain ⟨p, hp⟩ := built_reached ht k hk
  have hnode : nodeAt t.node (BitVec.ofNat 10 k) = some e := by
    rw [nodeAt_of_val t.node (e := ⟨k, by omega⟩) (by rw [BitVec.toNat_ofNat]; simp; omega)]
    exact (built_entry ht (i := ⟨k, by omega⟩) hk).symm.trans he
  have hnil : BitVec.ofNat 10 j ≠ nilIdx := by
    intro hn
    have h1 := congrArg BitVec.toNat hn
    have h2 : nilIdx.toNat = 1023 := rfl
    rw [BitVec.toNat_ofNat] at h1; omega
  obtain ⟨b, hb⟩ : ∃ b, childOf e b = BitVec.ofNat 10 j :=
    hchild.elim (fun h => ⟨false, h⟩) fun h => ⟨true, h⟩
  refine ⟨p ++ [b], ?_⟩
  rw [followPath_append, hp]
  show followPath t.node (BitVec.ofNat 10 k) [b] = _
  rw [followPath_cons hnode hleaf (hb ▸ hnil), hb]
  rfl
termination_by t.nodeCount.toNat - j

/-- A leaf entry is one of the tree's: the entries above NODE_COUNT are unused (R221). -/
theorem built_leaf_lt (ht : treeOf freq = some t) {i : Fin 513} (hleaf : t.node[i].leaf = true) :
    i.val < t.nodeCount.toNat := by
  obtain ⟨-, hn, hc, -⟩ := treeOf_some ht
  by_contra hge
  rw [hn, arenaOf_get, List.getD_eq_default _ _ (by omega)] at hleaf
  cases hleaf

/-- Exactly the symbols of the tree's leaves have a code (R63 item 4, R252 item 1). -/
theorem built_code_iff (ht : treeOf freq = some t) (hc : codesOf t.node t.root = .ok c)
    (s : Fin 257) :
    c.len[s] ≠ 0 ↔ ∃ i : Fin 513, i.val < t.nodeCount.toNat ∧ t.node[i].leaf = true ∧
      t.node[i].sym.toNat = s.val := by
  rw [ne_eq, ← CodeTable.bits_eq_nil]
  constructor
  · intro hs
    obtain ⟨x, l, -, hx, hleaf, hsym⟩ := codesOf_leads hc hs
    obtain ⟨i, -, rfl⟩ := nodeAt_some hx
    exact ⟨i, built_leaf_lt ht hleaf, hleaf, hsym⟩
  · rintro ⟨i, hi, hleaf, hsym⟩
    obtain ⟨p, hp⟩ := built_reached ht i.val hi
    refine codesOf_reaches ht hc (q := p) ⟨_, t.node[i], hp, nodeAt_of_val _ ?_, hleaf, hsym⟩
    rw [BitVec.toNat_ofNat]; omega

end

/-! ## What the invariant says of the tree and the codes (R63) -/

namespace State.Inv

variable {s : State}

/-- What BUILD_TREE wrote last, as a tree; none after reset. -/
theorem tree_of_count (h : s.Inv) (hc : 0 < s.nodeCount.toNat) :
    ∃ freq, treeOf freq = some { node := s.node, nodeCount := s.nodeCount, root := s.root } := by
  rcases h.arena_built with ⟨hzero, -⟩ | hbuilt
  · rw [hzero] at hc; exact absurd hc (by decide)
  · exact hbuilt

/-- R63 item 1. -/
theorem root_internal (h : s.Inv) (hv : s.treeValid = true) :
    2 ≤ s.nodeCount.toNat ∧ s.root.toNat = s.nodeCount.toNat - 1 ∧
      ∃ r : Fin 513, s.root.toNat = r.val ∧ s.node[r].leaf = false := by
  have ht := h.tree_is_built hv
  obtain ⟨-, -, hcount, hroot, h2, -⟩ := treeOf_some ht
  obtain ⟨e, he, hleaf, -⟩ := treeOf_root ht
  obtain ⟨r, hr, rfl⟩ := nodeAt_some he
  dsimp only at hcount hroot
  exact ⟨by omega, by omega, r, hr, hleaf⟩

/-- R51: ROOT is the last entry. -/
theorem root_last (h : s.Inv) (hc : 0 < s.nodeCount.toNat) :
    s.root.toNat = s.nodeCount.toNat - 1 := by
  obtain ⟨freq, ht⟩ := h.tree_of_count hc
  obtain ⟨-, -, hcount, hroot, -⟩ := treeOf_some ht
  exact hroot.trans (by rw [← hcount])

/-- R63 item 4. -/
theorem codes_of_leaves (h : s.Inv) (hv : s.codesValid = true) :
    (∀ e : Fin 257, s.codeLen[e] ≠ 0 ↔ ∃ i : Fin 513, i.val < s.nodeCount.toNat ∧
      s.node[i].leaf = true ∧ s.node[i].sym.toNat = e.val) ∧
    (∀ e f : Fin 257, e ≠ f → s.codeLen[e] ≠ 0 → s.codeLen[f] ≠ 0 →
      ¬ codeOf s e <+: codeOf s f) := by
  have hc := h.codes_are_generated hv
  refine ⟨built_code_iff (h.tree_is_built (h.codes_need_tree hv)) hc, fun e f hne he hf hpre => ?_⟩
  exact hne ((codesOf_leads hc (mt CodeTable.bits_eq_nil.1 he)).prefix_free
    (codesOf_leads hc (mt CodeTable.bits_eq_nil.1 hf)) hpre)

end State.Inv

/-- Every reachable state meets the invariant. -/
theorem Reachable.inv {s : State} (h : Reachable s) : s.Inv := by
  induction h with
  | reset c legal => exact resetWith_inv legal
  | plan s turns _ ih => exact ih.withSchedule turns
  | step s t _ hs ih => exact step_keeps_inv ih hs

end Sys2Proof.Machine

open Sys2Proof Sys2Proof.Machine

/-- Settles O57: each item follows from the invariant, those on the tree from what BUILD_TREE builds. -/
theorem reachableStatesMeetR63 : Obligations.ReachableStatesMeetR63 := by
  unfold Obligations.ReachableStatesMeetR63
  intro s hreach
  have h := hreach.inv
  refine ⟨h.root_internal, fun i a b hi hleaf hz ho => ?_, fun i j hi hj hil hjl hsym => ?_,
    fun hv => ⟨h.codes_need_tree hv, h.codes_of_leaves hv⟩, h.enc_needs_codes, h.dec_needs_tree,
    h.root_last, h.fifo_fits, h.err_raised⟩
  · obtain ⟨freq, ht⟩ := h.tree_of_count (by omega)
    exact built_weight_sum ht hi hleaf hz ho
  · obtain ⟨freq, ht⟩ := h.tree_of_count (by omega)
    exact built_leaf_unique ht hi hj hil hjl hsym
end

section
/-! SUPPORT. Which steps are refused (20_memory.md R81, R83; 70_reset_and_hazards.md R380). -/

namespace Sys2Proof.Machine

/-- A step is a turn of the core or of the host, its turn taken from the schedule (R94), whatever it
answers. -/
theorem step_turn (s : State) :
    ∃ rest, step s = coreTurn { s with schedule := rest } ∨
      ∃ op, s.schedule = .host op :: rest ∧ step s = hostTurn op { s with schedule := rest } := by
  match hs : s.schedule with
  | [] =>
    refine ⟨[], .inl ?_⟩
    rw [show ({ s with schedule := [] } : State) = s by rw [← hs], step, hs]
  | .core :: rest => exact ⟨rest, .inl (by rw [step, hs])⟩
  | .host op :: rest => exact ⟨rest, .inr ⟨op, rfl, step_host hs⟩⟩

/-- The core's turn is no bus access, and every command has a meaning: it is never refused. -/
theorem coreTurn_not_refused (s : State) (r : Refusal) : coreTurn s ≠ .refused r := by
  unfold coreTurn
  split
  · split
    · rw [exec_eq_finish]; exact finish_not_refused _ _ _
    · nofun
  · nofun

/-- An aligned 32-bit access inside the window is refused only during reset (R380). -/
theorem busTarget_error_window {off : Nat} {s : State} {r : Refusal}
    (h : busTarget .bits32 off s = .error r) (hoff : off < 0x40) (halign : off % 4 = 0) :
    s.resetIn = true := by
  obtain hsize | hmis | hout | hreset := busTarget_error h
  · exact absurd rfl hsize
  · exact absurd halign hmis
  · omega
  · exact hreset

/-- A read or a write is refused exactly when its access is. -/
theorem hostTurn_read_refused {size : AccessSize} {off : Nat} {s : State} {r : Refusal} :
    hostTurn (.read size off) s = .refused r ↔ busTarget size off s = .error r := by
  simp only [hostTurn, busRead]
  cases busTarget size off s <;> simp

theorem hostTurn_write_refused {size : AccessSize} {off : Nat} {w : Word} {s : State}
    {r : Refusal} :
    hostTurn (.write size off w) s = .refused r ↔ busTarget size off s = .error r := by
  simp only [hostTurn, busWrite]
  cases busTarget size off s <;> simp

/-- A round of one of the host's loops is refused when its read is. -/
theorem readThen_refused {off : Nat} {next : Word → List Turn} {s : State} {r : Refusal}
    (h : readThen off next s = .refused r) : busTarget .bits32 off s = .error r := by
  simp only [readThen, busRead] at h
  cases hb : busTarget .bits32 off s with
  | error r' => rw [hb] at h; cases h; rfl
  | ok reg => rw [hb] at h; cases h

/-- The read or write operations whose access R81 and R83 do not allow. -/
def BadAccess (op : HostOp) : Prop :=
  ∃ size off, (op = .read size off ∨ ∃ w, op = .write size off w) ∧
    (size ≠ .bits32 ∨ off % 4 ≠ 0 ∨ 0x40 ≤ off)

/-- A turn of the host is refused only during reset or for a bad access: the loops poll STATUS and
OUT_DATA, and the reset input is always answered. -/
theorem hostTurn_refused {op : HostOp} {s : State} {r : Refusal} (h : hostTurn op s = .refused r) :
    s.resetIn = true ∨ BadAccess op := by
  cases op with
  | read size off =>
    obtain hsize | hmis | hout | hreset := busTarget_error (hostTurn_read_refused.1 h)
    · exact .inr ⟨size, off, .inl rfl, .inl hsize⟩
    · exact .inr ⟨size, off, .inl rfl, .inr (.inl hmis)⟩
    · exact .inr ⟨size, off, .inl rfl, .inr (.inr hout)⟩
    · exact .inl hreset
  | write size off w =>
    obtain hsize | hmis | hout | hreset := busTarget_error (hostTurn_write_refused.1 h)
    · exact .inr ⟨size, off, .inr ⟨w, rfl⟩, .inl hsize⟩
    · exact .inr ⟨size, off, .inr ⟨w, rfl⟩, .inr (.inl hmis)⟩
    · exact .inr ⟨size, off, .inr ⟨w, rfl⟩, .inr (.inr hout)⟩
    · exact .inl hreset
  | wait => exact .inl (busTarget_error_window (readThen_refused h) (by decide) rfl)
  | drain => exact .inl (busTarget_error_window (readThen_refused h) (by decide) rfl)
  | safeWait => exact .inl (busTarget_error_window (readThen_refused h) (by decide) rfl)
  | assertReset => cases h
  | releaseReset => cases h

end Sys2Proof.Machine

open Sys2Proof Sys2Proof.Machine

/-- Settles O51: only the host's turns are refused, and those exactly as their bus access is. -/
theorem onlyBadAccessesRefused : Obligations.OnlyBadAccessesRefused := by
  unfold Obligations.OnlyBadAccessesRefused
  refine ⟨fun s r h => ?_, fun s size off w rest op hs hop hbad => ?_⟩
  · obtain ⟨rest, hcore | ⟨op, hop, hhost⟩⟩ := step_turn s
    · exact absurd (hcore.symm.trans h) (coreTurn_not_refused _ r)
    · exact ⟨op, rest, hop,
      hostTurn_refused (s := { s with schedule := rest }) (hhost.symm.trans h)⟩
  · obtain ⟨r, hr⟩ := busTarget_refused (s := { s with schedule := rest }) hbad
    refine ⟨r, (step_host hs).trans ?_⟩
    obtain rfl | rfl := hop
    · exact hostTurn_read_refused.2 hr
    · exact hostTurn_write_refused.2 hr
end

section
/-! SUPPORT. Why no command reaches an entry outside the internal memories (20_memory.md R86; 42_tree.md
R228): in a built tree every child that is there is an entry, every leaf's symbol is in the alphabet, and
no path is longer than 256 bits. -/

namespace Sys2Proof.Machine

/-! ## Paths of a built tree are short (R228) -/

/-- The leaves come first in the arena (R221, R222). -/
theorem leaves_prefix_treeNodes (l : List Node) : l <+: treeNodes l := by
  match l with
  | [] => exact List.prefix_rfl
  | [leaf] => exact List.prefix_append [leaf] [wrapperNode leaf]
  | l0 :: l1 :: rest => exact combineAll_extends _ _ _

section
variable {freq : Vector Word 257} {t : BuiltTree}

/-- An internal entry stands behind all leaves (R222). -/
theorem built_internal_ge (ht : treeOf freq = some t) {k : Fin 513}
    (hk : k.val < t.nodeCount.toNat) (hint : t.node[k].leaf = false) :
    (leaves freq).length ≤ k.val := by
  by_contra hlt
  obtain ⟨_, hentry⟩ := List.getElem?_eq_some_iff.1 (built_entry ht hk)
  have hleaf := (mem_leaves (List.getElem_mem (Nat.lt_of_not_le hlt))).1
  rw [(leaves_prefix_treeNodes _).getElem, hentry, hint] at hleaf
  cases hleaf

/-- A leaf's symbol is in the alphabet (R221). -/
theorem built_leaf_sym (ht : treeOf freq = some t) {k : Fin 513} (hk : k.val < t.nodeCount.toNat)
    (hleaf : t.node[k].leaf = true) : ∃ sym : Fin 257, t.node[k].sym.toNat = sym.val := by
  have hget := (built_forest ht).leaf_given _ _ (built_entry ht hk) hleaf
  exact ⟨⟨_, (mem_leaves (List.mem_of_getElem? hget)).2⟩, rfl⟩

/-- An index below NODE_COUNT selects an entry, and is not NIL (R54). -/
theorem built_nodeAt (ht : treeOf freq = some t) {i : BitVec 10}
    (hi : i.toNat < t.nodeCount.toNat) :
    i ≠ nilIdx ∧ ∃ k : Fin 513, i.toNat = k.val ∧ nodeAt t.node i = some t.node[k] := by
  obtain ⟨-, -, hcount, -, -, hmax⟩ := treeOf_some ht
  refine ⟨?_, ⟨i.toNat, by omega⟩, rfl, nodeAt_of_val _ rfl⟩
  rintro rfl
  have : nilIdx.toNat = 1023 := rfl
  omega

/-- The root is an entry, and its index leaves room for the walk's 257 levels: over n leaves it is 2n − 2,
or 1 over one leaf (R222, R223). -/
theorem built_root_fits (ht : treeOf freq = some t) :
    t.root.toNat < t.nodeCount.toNat ∧ t.root.toNat + 2 ≤ 257 + (leaves freq).length := by
  obtain ⟨-, -, hcount, hroot, h2, -⟩ := treeOf_some ht
  have hlen := length_treeNodes (leaves freq)
  have hle := length_leaves_le freq
  refine ⟨by omega, ?_⟩
  split at hlen
  · omega
  · split at hlen <;> omega

/-- Index i is where a walk of a tree of n leaves and `count` nodes can come to with `depth` levels left:
NIL, or an entry with levels enough for every internal entry from i down to the last leaf, for a path
passes each at most once. -/
def WalkFits (n count depth : Nat) (i : BitVec 10) : Prop :=
  0 < depth ∧ (i = nilIdx ∨ (i.toNat < count ∧ i.toNat + 2 ≤ depth + n))

/-- What fits at an internal entry fits one level lower at its children (R221). -/
theorem walkFits_child (ht : treeOf freq = some t) {k : Fin 513} (hk : k.val < t.nodeCount.toNat)
    (hint : t.node[k].leaf = false) {depth : Nat}
    (hfit : k.val + 2 ≤ depth + 1 + (leaves freq).length) (x : Bool) :
    WalkFits (leaves freq).length t.nodeCount.toNat depth (childOf t.node[k] x) := by
  have hge := built_internal_ge ht hk hint
  refine ⟨by omega, ?_⟩
  by_cases hx : childOf t.node[k] x = nilIdx
  · exact .inl hx
  · have hlt := built_child_lt ht hk hint hx
    exact .inr ⟨by omega, by omega⟩

end

section
variable {arena : Vector Node 513} {i : BitVec 10} {e : Node} {depth : Nat} {path : Bits}
  {c : CodeTable}

/-- At a leaf the walk records its symbol's code (R250). -/
theorem walk_leaf (hi : i ≠ nilIdx) (he : nodeAt arena i = some e) (hleaf : e.leaf = true)
    {sym : Fin 257} (hsym : e.sym.toNat = sym.val) :
    walk arena (depth + 1) i path c = .ok (recordCode sym path c) := by
  simp [walk, hi, he, hleaf, symIndex_of_val hsym]

/-- At an internal entry it goes on to the one-child with the table the zero-child left (R250). -/
theorem walk_internal (hi : i ≠ nilIdx) (he : nodeAt arena i = some e) (hint : e.leaf = false)
    {c1 : CodeTable} (hzero : walk arena depth (childOf e false) (path ++ [false]) c = .ok c1) :
    walk arena (depth + 1) i path c = walk arena depth (childOf e true) (path ++ [true]) c1 := by
  have hzero' : walk arena depth e.zero (path ++ [false]) c = .ok c1 := hzero
  simp [walk, hi, he, hint, hzero', childOf]

end

section
variable {freq : Vector Word 257} {t : BuiltTree}

/-- The walk of a built tree completes (R250, R228). -/
theorem walk_completes (ht : treeOf freq = some t) {depth : Nat} {i : BitVec 10}
    (hfit : WalkFits (leaves freq).length t.nodeCount.toNat depth i) (path : Bits) (c : CodeTable) :
    ∃ c', walk t.node depth i path c = .ok c' := by
  induction depth generalizing i path c with
  | zero => exact absurd hfit.1 (Nat.lt_irrefl 0)
  | succ depth ih =>
    obtain ⟨-, rfl | ⟨hi, hroom⟩⟩ := hfit
    · exact ⟨c, by simp [walk]⟩
    obtain ⟨hne, k, hk, he⟩ := built_nodeAt ht hi
    rw [hk] at hi hroom
    cases hleaf : t.node[k].leaf with
    | true =>
      obtain ⟨sym, hsym⟩ := built_leaf_sym ht hi hleaf
      exact ⟨_, walk_leaf hne he hleaf hsym⟩
    | false =>
      have hchild := walkFits_child ht hi hleaf hroom
      obtain ⟨c1, hzero⟩ := ih (hchild false) (path ++ [false]) c
      rw [walk_internal hne he hleaf hzero]
      exact ih (hchild true) (path ++ [true]) c1

/-- GEN_CODES finds the codes of every built tree (R251). -/
theorem codesOf_completes (ht : treeOf freq = some t) : ∃ c, codesOf t.node t.root = .ok c :=
  walk_completes ht ⟨by omega, .inr (built_root_fits ht)⟩ [] emptyCodes

/-! ## The decoder stays inside the arena (R310) -/

/-- The model stops a bit only where the cursor or the child it goes to is no entry (R310). -/
theorem takeBit_stop {arena : Vector Node 513} {root : BitVec 10} {n : BitVec 3} {x : Bool}
    {w : TreeWalk} {f : Fault} (h : takeBit arena root n x w = .error (.stop f)) :
    nodeAt arena w.cur = none ∨
      ∃ here, nodeAt arena w.cur = some here ∧ childOf here x ≠ nilIdx ∧
        nodeAt arena (childOf here x) = none := by
  unfold takeBit at h
  split at h
  · exact .inl (by assumption)
  · rename_i here hhere
    split at h
    · cases h
    · split at h
      · exact .inr ⟨here, hhere, by assumption, by assumption⟩
      · cases h

/-- From an internal entry of a built tree a bit leads to an entry or to BAD_PATH. -/
theorem takeBit_not_stop (ht : treeOf freq = some t) {n : BitVec 3} {x : Bool} {w : TreeWalk}
    (hw : InternalAt t.node t.nodeCount w.cur) (f : Fault) :
    takeBit t.node t.root n x w ≠ .error (.stop f) := by
  intro h
  obtain ⟨e, he, hint, hlt⟩ := hw
  obtain hnone | ⟨here, hhere, hchild, hnone⟩ := takeBit_stop h
  · cases he.symm.trans hnone
  · obtain rfl : e = here := Option.some.inj (he.symm.trans hhere)
    obtain ⟨k, hk, rfl⟩ := nodeAt_some he
    have hbelow := built_child_lt ht (hk ▸ hlt) hint hchild
    obtain ⟨-, j, -, hsome⟩ := built_nodeAt ht (i := childOf t.node[k] x) (by omega)
    cases hsome.symm.trans hnone

/-- So do the bits of a DEC_BYTE (R312). -/
theorem takeBits_not_stop (ht : treeOf freq = some t) {bits : List (BitVec 3 × Bool)}
    {w : TreeWalk} (hw : InternalAt t.node t.nodeCount w.cur) (f : Fault) :
    takeBits t.node t.root bits w ≠ .error (.stop f) := by
  induction bits generalizing w with
  | nil => nofun
  | cons b rest ih =>
    unfold takeBits
    split
    · nofun
    · split
      · rename_i hbit
        rintro ⟨⟩
        exact takeBit_not_stop ht hw f hbit
      · exact ih (takeBit_internal ht hw (by assumption))

end

/-! ## No turn stops with a fault of the model -/

variable {s : State}

/-- No command of a state that meets the invariant is stopped: GEN_CODES and DEC_BYTE, the only two that
could be, run on a built tree (R130). -/
theorem State.Inv.effectOf_not_stop (h : s.Inv) (i : Instr) (f : Fault) :
    Machine.effectOf i s ≠ .error (.stop f) := by
  intro he
  rcases effectOf_error he with ⟨-, he⟩ | ⟨-, he⟩ | ⟨hp, he⟩
  · cases he
  · cases he
  · cases i <;> simp only [phaseOk] at hp he
    case genCodes =>
      obtain ⟨f', hcodes, -⟩ := he
      obtain ⟨c, hc⟩ := codesOf_completes (h.tree_is_built (Bool.and_eq_true_iff.1 hp).1)
      cases hcodes.symm.trans hc
    case decByte y =>
      have hopen : s.decState ≠ .idle := by simpa using hp
      exact takeBits_not_stop (w := walkStart s) (h.tree_is_built (h.dec_needs_tree hopen).1)
        ((cursorOnInternal_iff s).1 (h.cursor_on_internal hopen)) f he.1
    all_goals cases he

/-- A core step stops with a fault of the model only when its command's effect does. -/
theorem exec_fault {i : Instr} {f : Fault} (h : exec i s = .fault f) :
    effectOf i s = .error (.stop f) := by
  rw [exec_eq_finish] at h
  match he : effectOf i s with
  | .error (.raise code info) => rw [he] at h; cases h
  | .error (.stop f') => rw [he] at h; cases h; rfl
  | .ok (s', pushed) =>
    rw [he] at h
    by_cases hroom : pushed.length ≤ room s
    · rw [finish_commit hroom] at h; cases h
    · rw [finish_hold (by omega)] at h; cases h

/-- The core's turn does not stop in a state that meets the invariant. -/
theorem State.Inv.coreTurn_not_fault (h : s.Inv) (f : Fault) : coreTurn s ≠ .fault f := by
  unfold coreTurn
  split
  · split
    · exact fun he => h.effectOf_not_stop _ f (exec_fault he)
    · nofun
  · nofun

end Sys2Proof.Machine

open Sys2Proof Sys2Proof.Machine

/-- Settles O56: the host's turn has no model fault, and the core's runs its tree commands on a built
tree. -/
theorem invariantExcludesModelFaults : Obligations.InvariantExcludesModelFaults := by
  unfold Obligations.InvariantExcludesModelFaults
  intro s f hs
  obtain ⟨rest, hcore | ⟨op, -, hhost⟩⟩ := step_turn s
  · rw [hcore]; exact (hs.withSchedule rest).coreTurn_not_fault f
  · rw [hhost]; exact hostTurn_not_fault op _ f
end

section
/-! SUPPORT. The six formats both ways (30_encoding.md R122): a word whose MBZ bits are 0 is the word of its
fields, and the decoder of a format gives back the operands its encoder took. -/

namespace Sys2Proof

/-! ## A word with its MBZ bits 0 is the word of its fields -/

section
variable {w : Word} {opc : BitVec 8}

theorem slice_zero {lo n : Nat} (h : w.extractLsb' lo n = 0) : w.toNat / 2 ^ lo % 2 ^ n = 0 := by
  rw [← toNat_slice, h]; rfl

theorem encodeN_of_mbz (hop : opcodeOf w = opc) (hmbz : w.extractLsb' 0 24 = 0) :
    encodeN opc = w := by
  have hlow := slice_zero hmbz
  refine BitVec.eq_of_toNat_eq ?_
  rw [toNat_encodeN, ← hop, opcodeOf, toNat_slice]
  omega

theorem encodeB_of_mbz (hop : opcodeOf w = opc) (hmbz : w.extractLsb' 8 16 = 0) :
    encodeB opc (w.extractLsb' 0 8) = w := by
  have hmid := slice_zero hmbz
  refine BitVec.eq_of_toNat_eq ?_
  rw [toNat_encodeB, ← hop, opcodeOf, toNat_slice, toNat_slice]
  omega

theorem encodeF_of_mbz (hop : opcodeOf w = opc) (hmbz : w.extractLsb' 1 23 = 0) :
    encodeF opc (w.getLsbD 0) = w := by
  have hmid := slice_zero hmbz
  have hbit : w.toNat % 2 = (w.getLsbD 0).toNat := by
    rw [BitVec.getLsbD, Nat.toNat_testBit]; simp
  refine BitVec.eq_of_toNat_eq ?_
  rw [toNat_encodeF, ← hop, opcodeOf, toNat_slice, ← hbit]
  omega

theorem encodeS_of_mbz (hop : opcodeOf w = opc) (hmbz : w.extractLsb' 9 15 = 0) :
    encodeS opc (w.extractLsb' 0 9) = w := by
  have hmid := slice_zero hmbz
  refine BitVec.eq_of_toNat_eq ?_
  rw [toNat_encodeS, ← hop, opcodeOf, toNat_slice, toNat_slice]
  omega

theorem encodeSK_of_mbz (hop : opcodeOf w = opc)
    (hmbz : w.extractLsb' 15 9 = 0 ∧ w.extractLsb' 9 3 = 0) :
    encodeSK opc (w.extractLsb' 0 9) (w.extractLsb' 12 3) = w := by
  have hhigh := slice_zero hmbz.1
  have hmid := slice_zero hmbz.2
  refine BitVec.eq_of_toNat_eq ?_
  rw [toNat_encodeSK, ← hop, opcodeOf, toNat_slice, toNat_slice, toNat_slice]
  omega

theorem encodeNI_of_mbz (hop : opcodeOf w = opc)
    (hmbz : w.extractLsb' 14 10 = 0 ∧ w.extractLsb' 10 2 = 0) :
    encodeNI opc (w.extractLsb' 0 10) (w.extractLsb' 12 2) = w := by
  have hhigh := slice_zero hmbz.1
  have hmid := slice_zero hmbz.2
  refine BitVec.eq_of_toNat_eq ?_
  rw [toNat_encodeNI, ← hop, opcodeOf, toNat_slice, toNat_slice, toNat_slice]
  omega

end

/-! ## The opcode and the operands of an encoded word -/

section
variable (opc : BitVec 8)

@[simp] theorem opcodeOf_encodeN : opcodeOf (encodeN opc) = opc :=
  opcodeOf_eq ((toNat_encodeN opc).trans (Nat.add_zero _).symm) (Nat.two_pow_pos 24)

@[simp] theorem opcodeOf_encodeB (byte : Byte) : opcodeOf (encodeB opc byte) = opc :=
  opcodeOf_eq (toNat_encodeB opc byte) (by have := byte.isLt; omega)

@[simp] theorem opcodeOf_encodeF (f : Bool) : opcodeOf (encodeF opc f) = opc :=
  opcodeOf_eq (toNat_encodeF opc f) (by have := f.toNat_lt; omega)

@[simp] theorem opcodeOf_encodeS (sym : BitVec 9) : opcodeOf (encodeS opc sym) = opc :=
  opcodeOf_eq (toNat_encodeS opc sym) (by have := sym.isLt; omega)

@[simp] theorem opcodeOf_encodeSK (sym : BitVec 9) (k : BitVec 3) :
    opcodeOf (encodeSK opc sym k) = opc :=
  opcodeOf_eq ((toNat_encodeSK opc sym k).trans (Nat.add_assoc _ _ _))
    (by have := sym.isLt; have := k.isLt; omega)

@[simp] theorem opcodeOf_encodeNI (idx : BitVec 10) (fsel : BitVec 2) :
    opcodeOf (encodeNI opc idx fsel) = opc :=
  opcodeOf_eq ((toNat_encodeNI opc idx fsel).trans (Nat.add_assoc _ _ _))
    (by have := idx.isLt; have := fsel.isLt; omega)

@[simp] theorem decodeN_encodeN (i : Instr) : decodeN (encodeN opc) i = .ok i :=
  if_pos (slice_eq (by rw [toNat_encodeN]; simp))

@[simp] theorem decodeB_encodeB (byte : Byte) (mk : Byte → Instr) :
    decodeB (encodeB opc byte) mk = .ok (mk byte) := by
  have hb := byte.isLt
  have hmbz : (encodeB opc byte).extractLsb' 8 16 = 0 := slice_eq (by rw [toNat_encodeB]; simp; omega)
  have hbyte : (encodeB opc byte).extractLsb' 0 8 = byte := slice_eq (by rw [toNat_encodeB]; omega)
  rw [decodeB, if_pos hmbz, hbyte]

@[simp] theorem decodeF_encodeF (f : Bool) (mk : Bool → Instr) :
    decodeF (encodeF opc f) mk = .ok (mk f) := by
  have hf := f.toNat_lt
  have hmbz : (encodeF opc f).extractLsb' 1 23 = 0 := slice_eq (by rw [toNat_encodeF]; simp; omega)
  have hbit : (encodeF opc f).getLsbD 0 = f :=
    Machine.bit_eq (by rw [toNat_encodeF]; omega)
  rw [decodeF, if_pos hmbz, hbit]

theorem decodeS_encodeS {sym : BitVec 9} (h : symLegal sym = true) (mk : BitVec 9 → Instr) :
    decodeS (encodeS opc sym) mk = .ok (mk sym) := by
  have hs := sym.isLt
  have hmbz : (encodeS opc sym).extractLsb' 9 15 = 0 := slice_eq (by rw [toNat_encodeS]; simp; omega)
  have hsym : (encodeS opc sym).extractLsb' 0 9 = sym := slice_eq (by rw [toNat_encodeS]; omega)
  rw [decodeS, if_pos hmbz, hsym, if_pos h]

theorem decodeSK_encodeSK {sym : BitVec 9} (h : symLegal sym = true) (k : BitVec 3)
    (mk : BitVec 9 → BitVec 3 → Instr) : decodeSK (encodeSK opc sym k) mk = .ok (mk sym k) := by
  have hs := sym.isLt
  have hk := k.isLt
  have hhigh : (encodeSK opc sym k).extractLsb' 15 9 = 0 :=
    slice_eq (by rw [toNat_encodeSK]; simp; omega)
  have hmid : (encodeSK opc sym k).extractLsb' 9 3 = 0 :=
    slice_eq (by rw [toNat_encodeSK]; simp; omega)
  have hsym : (encodeSK opc sym k).extractLsb' 0 9 = sym :=
    slice_eq (by rw [toNat_encodeSK]; omega)
  have hchunk : (encodeSK opc sym k).extractLsb' 12 3 = k :=
    slice_eq (by rw [toNat_encodeSK]; omega)
  rw [decodeSK, if_pos ⟨hhigh, hmid⟩, hsym, if_pos h, hchunk]

theorem decodeNI_encodeNI {idx : BitVec 10} (h : idxLegal idx = true) (fsel : BitVec 2)
    (mk : BitVec 10 → BitVec 2 → Instr) :
    decodeNI (encodeNI opc idx fsel) mk = .ok (mk idx fsel) := by
  have hi := idx.isLt
  have hf := fsel.isLt
  have hhigh : (encodeNI opc idx fsel).extractLsb' 14 10 = 0 :=
    slice_eq (by rw [toNat_encodeNI]; simp; omega)
  have hmid : (encodeNI opc idx fsel).extractLsb' 10 2 = 0 :=
    slice_eq (by rw [toNat_encodeNI]; simp; omega)
  have hidx : (encodeNI opc idx fsel).extractLsb' 0 10 = idx :=
    slice_eq (by rw [toNat_encodeNI]; omega)
  have hfsel : (encodeNI opc idx fsel).extractLsb' 12 2 = fsel :=
    slice_eq (by rw [toNat_encodeNI]; omega)
  rw [decodeNI, if_pos ⟨hhigh, hmid⟩, hidx, if_pos h, hfsel]

end

/-- The row of each opcode (R125), and then the operands of its format. -/
theorem decode_encode {i : Instr} (h : i.wellFormed = true) : decode (encode i) = .ok i := by
  cases i with
  | freqWrite sym => simpa [encode, decode] using decodeS_encodeS 0x13 h .freqWrite
  | freqRead sym => simpa [encode, decode] using decodeS_encodeS 0x14 h .freqRead
  | codeLen sym => simpa [encode, decode] using decodeS_encodeS 0x31 h .codeLen
  | codeBits sym k => simpa [encode, decode] using decodeSK_encodeSK 0x32 h k .codeBits
  | nodeRead idx fsel => simpa [encode, decode] using decodeNI_encodeNI 0x21 h fsel .nodeRead
  | _ => simp [encode, decode]

end Sys2Proof

open Sys2Proof

/-- Settles O1, command by command. -/
theorem decodeInvertsEncode : Obligations.DecodeInvertsEncode := by
  unfold Obligations.DecodeInvertsEncode
  exact fun _ => decode_encode
end

section
/-! SUPPORT. The opcode map (30_encoding.md R125, R128, R129): what it says of a word that a row selects it,
and that the decoder accepts the words of the rows whose index operand is in range, and no others. -/

namespace Sys2Proof

/-! ## A row selects the words of its opcode and its format -/

/-- The MBZ bits of a format are 0 in a word (R122). -/
def Format.MbzClear (w : Word) : Format → Prop
  | .n => w.extractLsb' 0 24 = 0
  | .b => w.extractLsb' 8 16 = 0
  | .f => w.extractLsb' 1 23 = 0
  | .s => w.extractLsb' 9 15 = 0
  | .sk => w.extractLsb' 15 9 = 0 ∧ w.extractLsb' 9 3 = 0
  | .ni => w.extractLsb' 14 10 = 0 ∧ w.extractLsb' 10 2 = 0

/-- The fixed bits of a format, OPC and the MBZ bits, laid out field by field (R122). -/
def Format.mask : Format → Word
  | .n => BitVec.allOnes 32
  | .b => BitVec.allOnes 8 ++ BitVec.allOnes 16 ++ 0#8
  | .f => BitVec.allOnes 8 ++ BitVec.allOnes 23 ++ 0#1
  | .s => BitVec.allOnes 8 ++ BitVec.allOnes 15 ++ 0#9
  | .sk => BitVec.allOnes 8 ++ BitVec.allOnes 9 ++ 0#3 ++ BitVec.allOnes 3 ++ 0#9
  | .ni => BitVec.allOnes 8 ++ BitVec.allOnes 10 ++ 0#2 ++ BitVec.allOnes 2 ++ 0#10

/-- A row's mask is its format's, and its match word is its opcode alone (R125). -/
theorem row_of_format :
    ∀ r ∈ opcodeMap, r.mask = r.format.mask ∧ r.value = encodeN (opcodeOf r.value) := by
  decide

/-- No two rows have the same opcode (R125). -/
theorem row_eq_of_opcode :
    ∀ r ∈ opcodeMap, ∀ q ∈ opcodeMap, opcodeOf r.value = opcodeOf q.value → r = q := by
  decide

section
variable {w m v : Word} {opc : BitVec 8} {lo n : Nat}

/-- Where the mask has only ones, the match word fixes the field. -/
theorem slice_of_and_eq (h : w &&& m = v) (hm : m.extractLsb' lo n = BitVec.allOnes n) :
    w.extractLsb' lo n = v.extractLsb' lo n := by
  rw [← h, BitVec.extractLsb'_and, hm, BitVec.and_allOnes]

/-- The low bits of a match word are 0. -/
theorem slice_encodeN (hfit : lo + n ≤ 24) : (encodeN opc).extractLsb' lo n = 0 := by
  rw [encodeN, BitVec.extractLsb'_append_eq_of_add_le hfit]; simp

theorem mbzClear_of_and_mask {fmt : Format} (h : w &&& fmt.mask = encodeN opc) :
    fmt.MbzClear w := by
  have field {lo n : Nat} (hm : fmt.mask.extractLsb' lo n = BitVec.allOnes n)
      (hfit : lo + n ≤ 24) : w.extractLsb' lo n = 0 :=
    (slice_of_and_eq h hm).trans (slice_encodeN hfit)
  cases fmt with
  | n => exact field (by decide) (by decide)
  | b => exact field (by decide) (by decide)
  | f => exact field (by decide) (by decide)
  | s => exact field (by decide) (by decide)
  | sk => exact ⟨field (by decide) (by decide), field (by decide) (by decide)⟩
  | ni => exact ⟨field (by decide) (by decide), field (by decide) (by decide)⟩

end

section
variable (opc : BitVec 8)

theorem encodeB_and_mask (byte : Byte) : encodeB opc byte &&& Format.b.mask = encodeN opc := by
  have hv : encodeB opc 0 = encodeN opc :=
    BitVec.eq_of_toNat_eq (by simp [toNat_encodeB, toNat_encodeN])
  rw [← hv, encodeB, encodeB, Format.mask, BitVec.and_append, BitVec.and_append, BitVec.and_allOnes,
    BitVec.and_allOnes, BitVec.and_zero]; rfl

theorem encodeF_and_mask (f : Bool) : encodeF opc f &&& Format.f.mask = encodeN opc := by
  have hv : encodeF opc false = encodeN opc :=
    BitVec.eq_of_toNat_eq (by simp [toNat_encodeF, toNat_encodeN])
  rw [← hv, encodeF, encodeF, Format.mask, BitVec.and_append, BitVec.and_append, BitVec.and_allOnes,
    BitVec.and_allOnes, BitVec.and_zero]; rfl

theorem encodeS_and_mask (sym : BitVec 9) : encodeS opc sym &&& Format.s.mask = encodeN opc := by
  have hv : encodeS opc 0 = encodeN opc :=
    BitVec.eq_of_toNat_eq (by simp [toNat_encodeS, toNat_encodeN])
  rw [← hv, encodeS, encodeS, Format.mask, BitVec.and_append, BitVec.and_append, BitVec.and_allOnes,
    BitVec.and_allOnes, BitVec.and_zero]; rfl

theorem encodeSK_and_mask (sym : BitVec 9) (k : BitVec 3) :
    encodeSK opc sym k &&& Format.sk.mask = encodeN opc := by
  have hv : encodeSK opc 0 0 = encodeN opc :=
    BitVec.eq_of_toNat_eq (by simp [toNat_encodeSK, toNat_encodeN])
  rw [← hv, encodeSK, encodeSK, Format.mask, BitVec.and_append, BitVec.and_append, BitVec.and_append,
    BitVec.and_append, BitVec.and_allOnes, BitVec.and_allOnes, BitVec.and_allOnes, BitVec.and_zero,
    BitVec.and_zero]; rfl

theorem encodeNI_and_mask (idx : BitVec 10) (fsel : BitVec 2) :
    encodeNI opc idx fsel &&& Format.ni.mask = encodeN opc := by
  have hv : encodeNI opc 0 0 = encodeN opc :=
    BitVec.eq_of_toNat_eq (by simp [toNat_encodeNI, toNat_encodeN])
  rw [← hv, encodeNI, encodeNI, Format.mask, BitVec.and_append, BitVec.and_append, BitVec.and_append,
    BitVec.and_append, BitVec.and_allOnes, BitVec.and_allOnes, BitVec.and_allOnes, BitVec.and_zero,
    BitVec.and_zero]; rfl

end

theorem and_mask_of_mbzClear {w : Word} {fmt : Format} (h : fmt.MbzClear w) :
    w &&& fmt.mask = encodeN (opcodeOf w) := by
  have of_word {x : Word} (hx : x = w) (hm : x &&& fmt.mask = encodeN (opcodeOf w)) :
      w &&& fmt.mask = encodeN (opcodeOf w) := by rw [← hm, hx]
  cases fmt with
  | n => exact BitVec.and_allOnes.trans (encodeN_of_mbz rfl h).symm
  | b => exact of_word (encodeB_of_mbz rfl h) (encodeB_and_mask _ _)
  | f => exact of_word (encodeF_of_mbz rfl h) (encodeF_and_mask _ _)
  | s => exact of_word (encodeS_of_mbz rfl h) (encodeS_and_mask _ _)
  | sk => exact of_word (encodeSK_of_mbz rfl h) (encodeSK_and_mask _ _ _)
  | ni => exact of_word (encodeNI_of_mbz rfl h) (encodeNI_and_mask _ _ _)

/-- A row selects the words with its opcode and the MBZ bits of its format 0 (R125). -/
theorem selects_iff {r : OpRow} (hr : r ∈ opcodeMap) (w : Word) :
    r.selects w = true ↔ opcodeOf w = opcodeOf r.value ∧ r.format.MbzClear w := by
  obtain ⟨hmask, hvalue⟩ := row_of_format r hr
  rw [OpRow.selects, decide_eq_true_eq, hmask, hvalue, opcodeOf_encodeN]
  constructor
  · intro h
    have hcovers : opcodeOf r.format.mask = BitVec.allOnes 8 := by cases r.format <;> decide
    exact ⟨(slice_of_and_eq h hcovers).trans (opcodeOf_encodeN _), mbzClear_of_and_mask h⟩
  · rintro ⟨hop, hmbz⟩
    rw [← hop]; exact and_mask_of_mbzClear hmbz

/-- Two rows that select one word are the same row (R125). -/
theorem row_eq_of_selects {r q : OpRow} {w : Word} (hr : r ∈ opcodeMap) (hq : q ∈ opcodeMap)
    (h : r.selects w = true) (h' : q.selects w = true) : r = q :=
  row_eq_of_opcode r hr q hq
    (((selects_iff hr w).1 h).1.symm.trans ((selects_iff hq w).1 h').1)

/-! ## The decoder accepts the words of the rows in range, and no others -/

section
variable {w : Word}

/-- A word of a row, its index operand in range, is the word of a well-formed command of that row: by
row, in the order of R125. -/
theorem encode_of_row :
    ∀ r ∈ opcodeMap, opcodeOf w = opcodeOf r.value → r.format.MbzClear w → r.inRange w = true →
      ∃ i : Instr, i.wellFormed = true ∧ mnemonicOf i = r.mnemonic ∧ encode i = w := by
  simp only [opcodeMap, List.forall_mem_cons]
  exact
    ⟨fun hop hmbz _ => ⟨.nop, rfl, rfl, encodeN_of_mbz hop hmbz⟩,
     fun hop hmbz _ => ⟨.softReset, rfl, rfl, encodeN_of_mbz hop hmbz⟩,
     fun hop hmbz _ => ⟨.freqClear, rfl, rfl, encodeN_of_mbz hop hmbz⟩,
     fun hop hmbz _ => ⟨.anaByte _, rfl, rfl, encodeB_of_mbz hop hmbz⟩,
     fun hop hmbz _ => ⟨.anaEnd _, rfl, rfl, encodeF_of_mbz hop hmbz⟩,
     fun hop hmbz hrange => ⟨.freqWrite _, hrange, rfl, encodeS_of_mbz hop hmbz⟩,
     fun hop hmbz hrange => ⟨.freqRead _, hrange, rfl, encodeS_of_mbz hop hmbz⟩,
     fun hop hmbz _ => ⟨.buildTree, rfl, rfl, encodeN_of_mbz hop hmbz⟩,
     fun hop hmbz hrange => ⟨.nodeRead _ _, hrange, rfl, encodeNI_of_mbz hop hmbz⟩,
     fun hop hmbz _ => ⟨.genCodes, rfl, rfl, encodeN_of_mbz hop hmbz⟩,
     fun hop hmbz hrange => ⟨.codeLen _, hrange, rfl, encodeS_of_mbz hop hmbz⟩,
     fun hop hmbz hrange => ⟨.codeBits _ _, hrange, rfl, encodeSK_of_mbz hop hmbz⟩,
     fun hop hmbz _ => ⟨.encBegin, rfl, rfl, encodeN_of_mbz hop hmbz⟩,
     fun hop hmbz _ => ⟨.encByte _, rfl, rfl, encodeB_of_mbz hop hmbz⟩,
     fun hop hmbz _ => ⟨.encFinish, rfl, rfl, encodeN_of_mbz hop hmbz⟩,
     fun hop hmbz _ => ⟨.decBegin, rfl, rfl, encodeN_of_mbz hop hmbz⟩,
     fun hop hmbz _ => ⟨.decByte _, rfl, rfl, encodeB_of_mbz hop hmbz⟩,
     fun hop hmbz _ => ⟨.decEnd, rfl, rfl, encodeN_of_mbz hop hmbz⟩, nofun⟩

/-- A word a row selects, its index operand in range, decodes to the well-formed command of that row it is
the word of. -/
theorem decode_of_selects {r : OpRow} (hr : r ∈ opcodeMap) (hsel : r.selects w = true)
    (hrange : r.inRange w = true) :
    ∃ i : Instr, i.wellFormed = true ∧ mnemonicOf i = r.mnemonic ∧ encode i = w ∧
      decode w = .ok i := by
  obtain ⟨hop, hmbz⟩ := (selects_iff hr w).1 hsel
  obtain ⟨i, hwf, hname, rfl⟩ := encode_of_row r hr hop hmbz hrange
  exact ⟨i, hwf, hname, rfl, decode_encode hwf⟩

/-- The two ways through one test of the opcode. -/
theorem of_ite_eq {c : Prop} [Decidable c] {a b x : Except DecodeError Instr} {P : Prop}
    (h : (if c then a else b) = x) (ht : c → a = x → P) (hf : b = x → P) : P := by
  split at h
  · exact ht (by assumption) h
  · exact hf h

/-- A word the decoder accepts is one of a row of R125, its index operand in range: by opcode, in the order
of `decode`. -/
theorem selects_of_decode {i : Instr} (h : decode w = .ok i) :
    ∃ r ∈ opcodeMap, r.selects w = true ∧ r.inRange w = true := by
  have row (n : Fin 18) (hop : opcodeOf w = opcodeOf opcodeMap[n].value)
      (hmbz : opcodeMap[n].format.MbzClear w) (hrange : opcodeMap[n].inRange w = true) :
      ∃ r ∈ opcodeMap, r.selects w = true ∧ r.inRange w = true :=
    have hr : opcodeMap[n] ∈ opcodeMap := List.getElem_mem _
    ⟨opcodeMap[n], hr, (selects_iff hr w).2 ⟨hop, hmbz⟩, hrange⟩
  unfold decode at h
  refine of_ite_eq h (fun hop h => row 0 hop (decodeN_ok h).1 rfl) fun h => ?_
  refine of_ite_eq h (fun hop h => row 1 hop (decodeN_ok h).1 rfl) fun h => ?_
  refine of_ite_eq h (fun hop h => row 2 hop (decodeN_ok h).1 rfl) fun h => ?_
  refine of_ite_eq h (fun hop h => row 3 hop (decodeB_ok h).1 rfl) fun h => ?_
  refine of_ite_eq h (fun hop h => row 4 hop (decodeF_ok h).1 rfl) fun h => ?_
  refine of_ite_eq h (fun hop h => row 5 hop (decodeS_ok h).1 (decodeS_ok h).2.1) fun h => ?_
  refine of_ite_eq h (fun hop h => row 6 hop (decodeS_ok h).1 (decodeS_ok h).2.1) fun h => ?_
  refine of_ite_eq h (fun hop h => row 7 hop (decodeN_ok h).1 rfl) fun h => ?_
  refine of_ite_eq h (fun hop h => row 8 hop (decodeNI_ok h).1 (decodeNI_ok h).2.1) fun h => ?_
  refine of_ite_eq h (fun hop h => row 9 hop (decodeN_ok h).1 rfl) fun h => ?_
  refine of_ite_eq h (fun hop h => row 10 hop (decodeS_ok h).1 (decodeS_ok h).2.1) fun h => ?_
  refine of_ite_eq h (fun hop h => row 11 hop (decodeSK_ok h).1 (decodeSK_ok h).2.1) fun h => ?_
  refine of_ite_eq h (fun hop h => row 12 hop (decodeN_ok h).1 rfl) fun h => ?_
  refine of_ite_eq h (fun hop h => row 13 hop (decodeB_ok h).1 rfl) fun h => ?_
  refine of_ite_eq h (fun hop h => row 14 hop (decodeN_ok h).1 rfl) fun h => ?_
  refine of_ite_eq h (fun hop h => row 15 hop (decodeN_ok h).1 rfl) fun h => ?_
  refine of_ite_eq h (fun hop h => row 16 hop (decodeB_ok h).1 rfl) fun h => ?_
  refine of_ite_eq h (fun hop h => row 17 hop (decodeN_ok h).1 rfl) nofun

/-- The decoder rejects every illegal word (R128, R129). -/
theorem decode_of_illegal (hw : IllegalWord w) : ∃ e, decode w = .error e := by
  match hdec : decode w with
  | .error e => exact ⟨e, rfl⟩
  | .ok i =>
    obtain ⟨r, hr, hsel, hrange⟩ := selects_of_decode hdec
    rcases hw with hnone | ⟨q, hq, hqsel, hqrange⟩
    · exact absurd hsel (by simp [hnone r hr])
    · obtain rfl := row_eq_of_selects hr hq hsel hqsel
      exact absurd hrange (by simp [hqrange])

end

end Sys2Proof

open Sys2Proof

/-- Settles O2: an accepted word is one of a row, so the word of a well-formed command, and the decoder
gives that command back. -/
theorem encodeInvertsDecode : Obligations.EncodeInvertsDecode := by
  unfold Obligations.EncodeInvertsDecode
  intro w i h
  obtain ⟨r, hr, hsel, hrange⟩ := selects_of_decode h
  obtain ⟨j, hwf, -, henc, hdec⟩ := decode_of_selects hr hsel hrange
  obtain rfl : j = i := Except.ok.inj (hdec.symm.trans h)
  exact ⟨hwf, henc⟩

/-- Settles O3: every mask covers the opcode, no two rows share one, and a row's words are those its
commands encode to. -/
theorem wordsSelectRows : Obligations.WordsSelectRows := by
  unfold Obligations.WordsSelectRows
  refine ⟨fun w r hr q hq => row_eq_of_selects hr hq, fun w r hr hsel hrange => ?_⟩
  obtain ⟨i, -, hname, -, hdec⟩ := decode_of_selects hr hsel hrange
  exact ⟨i, hdec, hname⟩

/-- Settles O5, by running the decoder. -/
theorem tableWordsDecode : Obligations.TableWordsDecode := by
  unfold Obligations.TableWordsDecode
  decide
end

section
/-! SUPPORT. The core's turn on an illegal word (30_encoding.md R128, R129; 40_control.md R161). -/

namespace Sys2Proof.Machine

variable {s : State}

/-- With no host operation left the core has the turn (R392). -/
theorem step_idle (h : s.schedule = []) : step s = coreTurn s := by rw [step, h]

theorem step_core {rest : List Turn} (h : s.schedule = .core :: rest) :
    step s = coreTurn { s with schedule := rest } := by rw [step, h]

/-- An illegal word pending, and no fault yet: the core takes ILLEGAL_CMD (R161). -/
theorem coreTurn_of_illegal (hbusy : s.busy = true) (herr : s.err = .noFault)
    (hw : IllegalWord s.pendCmd) : coreTurn s = .next (faulted .illegalCmd 0 s) := by
  obtain ⟨e, he⟩ := decode_of_illegal hw
  rw [coreTurn, if_pos hbusy, he, ← commandFault_first herr]
  rfl

end Sys2Proof.Machine

open Sys2Proof Sys2Proof.Machine

/-- Settles O4: the decoder rejects the word, whichever way the core got its turn. -/
theorem illegalWordsRaiseIllegalCmd : Obligations.IllegalWordsRaiseIllegalCmd := by
  unfold Obligations.IllegalWordsRaiseIllegalCmd
  exact ⟨fun s hs hbusy herr hw => (step_idle hs).trans (coreTurn_of_illegal hbusy herr hw),
    fun s rest hs hbusy herr hw => (step_core hs).trans (coreTurn_of_illegal hbusy herr hw)⟩
end

section
/-! SUPPORT. The phase checks (30_encoding.md R130): which commands they stop, and what they protect while
an encode or a decode is open. -/

namespace Sys2Proof.Machine

variable {i : Instr} {s s' : State} {out : List Byte}

/-- Neither an encode nor a decode is open (R130's condition of the commands that write the tables). -/
theorem noneOpen_iff : noneOpen s = true ↔ s.encActive = false ∧ s.decState = .idle := by
  simp [noneOpen]

theorem decOpen_iff : s.decState ≠ .idle ↔ s.decState = .run ∨ s.decState = .eos := by
  cases s.decState <;> decide

/-- The phase check computes the condition of R130's table. -/
theorem phaseOk_iff : phaseOk i s = true ↔ phaseCondition s i := by
  cases i <;> simp [phaseOk, phaseCondition, noneOpen_iff, decOpen_iff]

/-! ## SEQUENCE exactly out of phase -/

/-- Out of phase a well-formed command ends in SEQUENCE: it neither completes nor meets another check. -/
theorem effectOf_of_phase (hwf : i.wellFormed = true) (hp : phaseOk i s = false) :
    effectOf i s = .error (.raise .sequence 0) := by
  match he : effectOf i s with
  | .ok (s', out) => exact absurd (effectOf_ok he).1 (by simp [hp])
  | .error a =>
    rcases effectOf_error he with ⟨hill, -⟩ | ⟨-, rfl⟩ | ⟨hok, -⟩
    · exact absurd hwf (by simp [hill])
    · rfl
    · exact absurd hok (by simp [hp])

/-- No command's own pseudocode raises SEQUENCE (R343). -/
theorem phase_of_effectOf_sequence {info : Word}
    (h : effectOf i s = .error (.raise .sequence info)) : phaseOk i s = false := by
  rcases effectOf_error h with ⟨-, h⟩ | ⟨hp, -⟩ | ⟨-, h⟩
  · cases h
  · exact hp
  · cases i <;> simp at h

/-- A command that completes takes no fault: the record stays empty. -/
theorem effectOf_err (h : effectOf i s = .ok (s', out)) (herr : s.err = .noFault) :
    s'.err = .noFault := by
  by_cases hi : i = .softReset
  · subst hi
    obtain ⟨-, rfl, -⟩ := effectOf_ok h
    rfl
  · obtain ⟨-, -, -, -, -, -, hkeep⟩ := effectOf_keeps h
    exact (hkeep hi).1.trans herr

/-! ## The tables of an open operation -/

/-- The frequency table, the tree, the codes and their flags are the same in two states. -/
def SameTables (s t : State) : Prop :=
  t.freq = s.freq ∧ t.node = s.node ∧ t.nodeCount = s.nodeCount ∧ t.root = s.root ∧
    t.codeLen = s.codeLen ∧ t.code = s.code ∧ t.treeValid = s.treeValid ∧
    t.codesValid = s.codesValid

theorem takeFault_sameTables (code : ErrCode) (info w : Word) (s : State) :
    SameTables s (takeFault code info w s) := by
  rw [takeFault_eq]
  exact ⟨rfl, rfl, rfl, rfl, rfl, rfl, rfl, rfl⟩

/-- While an operation is open, a command that completes changes no table: those that write one have
"none open" in their phase condition (R130). -/
theorem effectOf_sameTables (h : effectOf i s = .ok (s', out)) (hopen : noneOpen s = false)
    (hi : i ≠ .softReset) : SameTables s s' := by
  obtain ⟨hp, h⟩ := effectOf_ok h
  cases i
  case softReset => exact absurd rfl hi
  case nop => obtain ⟨rfl, -⟩ := h; simp [SameTables]
  case freqRead a => obtain ⟨e, -, rfl, -⟩ := h; simp [SameTables]
  case nodeRead x f => obtain ⟨e, -, rfl, -⟩ := h; simp [SameTables]
  case codeLen a => obtain ⟨e, -, rfl, -⟩ := h; simp [SameTables]
  case codeBits a k => obtain ⟨e, -, rfl, -⟩ := h; simp [SameTables]
  case encByte b => obtain ⟨-, -, rfl⟩ := h; simp [SameTables]
  case encFinish => obtain ⟨-, -, rfl⟩ := h; simp [SameTables]
  case decByte y => obtain ⟨w, -, -, rfl⟩ := h; simp [SameTables]
  case decEnd => obtain ⟨-, rfl, -⟩ := h; simp [SameTables]
  all_goals exact absurd hp (by simp [phaseOk, hopen])

end Sys2Proof.Machine

open Sys2Proof Sys2Proof.Machine

/-- Settles O12: the phase check is R130's condition, and nothing but the check raises SEQUENCE. -/
theorem phaseChecksRaiseSequence : Obligations.PhaseChecksRaiseSequence := by
  unfold Obligations.PhaseChecksRaiseSequence
  refine ⟨fun i s hwf herr hcond => ?_, fun i s t herr hcond h => ?_⟩
  · have hp : phaseOk i s = false := by simpa [← phaseOk_iff] using hcond
    rw [exec_eq_finish, effectOf_of_phase hwf hp, finish_raise, commandFault_first herr]
  · rcases exec_next h with ⟨code, info, he, rfl⟩ | ⟨s', out, he, -, rfl⟩ | ⟨-, -, -, -, rfl⟩
    · rw [commandFault_first herr]
      rintro rfl
      exact absurd (phaseOk_iff.2 hcond) (by simp [phase_of_effectOf_sequence he])
    · simp [effectOf_err he herr]
    · simp [herr]

/-- Settles O43: a fault and a hold change no table, and while an operation is open no completion does. -/
theorem openOperationFixesTables : Obligations.OpenOperationFixesTables := by
  unfold Obligations.OpenOperationFixesTables
  intro i s t hopen hi h
  have hnone : noneOpen s = false := by
    rcases hopen with hopen | hopen <;> simp [noneOpen, hopen]
  rcases exec_next h with ⟨code, info, -, rfl⟩ | ⟨s', out, he, -, rfl⟩ | ⟨-, -, -, -, rfl⟩
  · exact takeFault_sameTables code info s.pendCmd s
  · have hsame := effectOf_sameTables he hnone hi
    exact hsame
  · exact ⟨rfl, rfl, rfl, rfl, rfl, rfl, rfl, rfl⟩
end

section
/-! SUPPORT. The command cycle (40_control.md R160, R161): what a write of CMD does, and the core steps of
NOP and SOFT_RESET (R166, R167). -/

namespace Sys2Proof.Machine

variable {s : State} {w : Word}

/-- A legal word pending: the core's turn is its command's core step (R161). -/
theorem coreTurn_of_decode {i : Instr} (hbusy : s.busy = true) (hi : decode s.pendCmd = .ok i) :
    coreTurn s = exec i s := by
  rw [coreTurn, if_pos hbusy, hi]

/-- NOP ends and does nothing else (R166). -/
theorem exec_nop (s : State) : exec .nop s = .next { s with busy := false } :=
  (exec_eq_finish .nop s).trans (finish_quiet s s)

/-- SOFT_RESET ends in every state, and leaves the column "after SOFT_RESET" of R61 (R167). -/
theorem exec_softReset (s : State) : exec .softReset s = .next (softResetState s) :=
  (exec_eq_finish .softReset s).trans (finish_quiet s (softResetState s))

/-! The four cases of a write of CMD (R160). -/

theorem issue_overrun (hbusy : s.busy = true) (herr : s.err = .noFault) :
    issue w s = { s with err := .cmdOverrun, errCmd := w, errInfo := 0, outFifo := [],
                         busy := false } := by
  rw [issue, if_pos hbusy, takeFault_first herr]

theorem issue_overrun_kept (hbusy : s.busy = true) (herr : s.err ≠ .noFault) :
    issue w s = { s with outFifo := [], busy := false } := by
  rw [issue, if_pos hbusy, takeFault_kept herr]

theorem issue_discarded (hbusy : s.busy = false) (herr : s.err ≠ .noFault)
    (hw : w ≠ softResetWord) : issue w s = s := by
  simp [issue, inFault, hbusy, herr, hw]

theorem issue_latched (hbusy : s.busy = false) (hw : s.err = .noFault ∨ w = softResetWord) :
    issue w s = latchCommand w s := by
  obtain herr | rfl := hw
  · simp [issue, inFault, hbusy, herr]
  · simp [issue, hbusy]

/-- The host's turn writes CMD (R80, R94): the word is issued. -/
theorem step_writeCmd {rest : List Turn} {t : State} (hreset : s.resetIn = false)
    (hs : s.schedule = .host (.write .bits32 0x08 w) :: rest)
    (ht : issue w { s with schedule := rest } = t) : step s = .next t := by
  rw [step_host hs, hostTurn_write (s := { s with schedule := rest }) (r := .cmd) rfl hreset, ← ht]
  rfl

end Sys2Proof.Machine

open Sys2Proof Sys2Proof.Machine

/-- Settles O6: the core decodes the pending word, whichever way it got its turn. -/
theorem stepRunsPendingCommand : Obligations.StepRunsPendingCommand := by
  unfold Obligations.StepRunsPendingCommand
  exact ⟨fun s i hs hbusy hi => (step_idle hs).trans (coreTurn_of_decode hbusy hi),
    fun s i rest hs hbusy hi => (step_core hs).trans (coreTurn_of_decode hbusy hi)⟩

/-- Settles O8: the step issues the word, in each of R160's cases. -/
theorem cmdWriteIssues : Obligations.CmdWriteIssues := by
  unfold Obligations.CmdWriteIssues
  intro s w rest hreset hs
  exact ⟨fun hbusy herr => step_writeCmd hreset hs (issue_overrun hbusy herr),
    fun hbusy herr => step_writeCmd hreset hs (issue_overrun_kept hbusy herr),
    fun hbusy herr hw => step_writeCmd hreset hs (issue_discarded hbusy herr hw),
    fun hbusy hw => step_writeCmd hreset hs (issue_latched hbusy hw)⟩

/-- Settles O13: NOP's effect is the state itself. -/
theorem nopOnlyCompletes : Obligations.NopOnlyCompletes := by
  unfold Obligations.NopOnlyCompletes
  exact ⟨by decide, exec_nop⟩

/-- Settles O14: the state SOFT_RESET leaves, field by field. -/
theorem softResetResets : Obligations.SoftResetResets := by
  unfold Obligations.SoftResetResets
  refine ⟨by decide, fun s => ⟨softResetState s, exec_softReset s, ?_, ?_, ?_, ?_⟩⟩
  · simp [encPend, irq, inFault]
  · intro j; simp [codeOf]
  · intro j; simp [Node.unused]
  · exact ⟨rfl, rfl, rfl, rfl, rfl, rfl⟩
end

section
/-! SUPPORT. What a command's core step and a hold do not depend on (40_control.md R163; 10_state.md R44):
the host's registers ARG and INT_EN, and what stands outside the block. -/

namespace Sys2Proof.Machine

/-- The state s with the ARG, INT_EN, reset input, turns to come and read log of u: all that the host and
the platform can write without a command. -/
def State.withOutside (s u : State) : State :=
  { s with arg := u.arg, errIe := u.errIe, eosIe := u.eosIe, resetIn := u.resetIn,
           schedule := u.schedule, readLog := u.readLog }

section
variable {i : Instr} {s s' t : State}

theorem effectOf_withOutside_ok {out : List Byte} (hi : i ≠ .softReset)
    (h : effectOf i s = .ok (s', out)) (u : State) :
    effectOf i (s.withOutside u) = .ok (s'.withOutside u, out) :=
  (effectOf_outside s hi ..).trans (by rw [h]; rfl)

theorem effectOf_withOutside_error {a : Abort} (hi : i ≠ .softReset)
    (h : effectOf i s = .error a) (u : State) : effectOf i (s.withOutside u) = .error a :=
  (effectOf_outside s hi ..).trans (by rw [h])

theorem commandFault_withOutside (code : ErrCode) (info : Word) (s u : State) :
    commandFault code info (s.withOutside u) = (commandFault code info s).withOutside u := by
  rw [commandFault, takeFault_eq, commandFault, takeFault_eq]
  rfl

/-- A core step answers the same with other values outside, and carries them along: it faults, completes
or is held alike (R163). -/
theorem exec_withOutside (hi : i ≠ .softReset) (h : exec i s = .next t) (u : State) :
    exec i (s.withOutside u) = .next (t.withOutside u) := by
  rw [exec_eq_finish]
  rcases exec_next h with ⟨code, info, he, rfl⟩ | ⟨s', out, he, hfit, rfl⟩ |
    ⟨s', out, he, hfull, ht⟩
  · rw [effectOf_withOutside_error hi he, finish_raise, commandFault_withOutside]
  · rw [effectOf_withOutside_ok hi he]
    exact finish_commit (s := s.withOutside u) hfit
  · rw [effectOf_withOutside_ok hi he, ht]
    exact finish_hold (s := s.withOutside u) hfull

end

variable {s t : State}

/-- A fault ends the pending command (R345). -/
theorem commandFault_ends (code : ErrCode) (info : Word) (s : State) :
    (commandFault code info s).busy = false ∧
      (commandFault code info s).schedule = s.schedule := by
  rw [commandFault, takeFault_eq]
  exact ⟨rfl, rfl⟩

/-- A held state has a command pending, not SOFT_RESET, whose core step answers the state itself. -/
theorem Held.pending (h : Held s) :
    ∃ i, decode s.pendCmd = .ok i ∧ i ≠ .softReset ∧ exec i s = .next s := by
  obtain ⟨hbusy, hturn⟩ := h
  match hd : decode s.pendCmd with
  | .ok i =>
    rw [coreTurn_of_decode hbusy hd] at hturn
    refine ⟨i, rfl, ?_, hturn⟩
    rintro rfl
    have hidle := softResetState_busy s
    rw [Host.Outcome.next.inj ((exec_softReset s).symm.trans hturn), hbusy] at hidle
    cases hidle
  | .error e =>
    rw [coreTurn, if_pos hbusy, hd] at hturn
    have hidle : (illegalCommand s).busy = false := (commandFault_ends .illegalCmd 0 s).1
    rw [Host.Outcome.next.inj hturn, hbusy] at hidle
    cases hidle

/-- What stands outside the command does not end its hold (R163). -/
theorem Held.withOutside (h : Held s) (u : State) : Held (s.withOutside u) := by
  obtain ⟨i, hd, hi, hexec⟩ := h.pending
  exact ⟨h.1, (coreTurn_of_decode (s := s.withOutside u) h.1 hd).trans
    (exec_withOutside hi hexec u)⟩

/-- The core's turn keeps a hold: it answers the state itself. -/
theorem coreTurn_keeps_held (h : Held s) (ht : coreTurn s = .next t) : Held t := by
  obtain rfl : s = t := Host.Outcome.next.inj (h.2.symm.trans ht)
  exact h

/-- A write of any register but CMD keeps a hold (R85). -/
theorem writeReg_keeps_held (h : Held s) {r : Reg} (hr : r ≠ .cmd) (w : Word) :
    Held (writeReg r w s) := by
  cases r
  case cmd => exact absurd rfl hr
  case arg => exact h.withOutside (writeReg .arg w s)
  case intEn => exact h.withOutside (writeReg .intEn w s)
  all_goals exact h

/-- A turn of the host keeps a hold, unless it reads OUT_DATA, writes CMD or asserts reset. -/
theorem hostTurn_keeps_held {op : HostOp} (h : Held s) (ht : hostTurn op s = .next t)
    (hread : ∀ size, op ≠ .read size 0x14) (hdrain : op ≠ .drain)
    (hcmd : ∀ size w, op ≠ .write size 0x08 w) (hreset : op ≠ .assertReset) : Held t := by
  rcases hostTurn_next ht with ⟨off, r, turns, -, hout, rfl⟩ | ⟨off, w, r, rfl, hr, rfl⟩ |
    ⟨rfl, -⟩ | ⟨-, rfl⟩
  · have hr : r ≠ .outData := fun hr => (hout hr).elim (hread _) hdrain
    rw [if_neg hr]
    exact h.withOutside { s with readLog := _, schedule := turns }
  · obtain ⟨-, -, -, -, hreg⟩ := busTarget_ok hr
    refine writeReg_keeps_held h ?_ w
    rintro rfl
    obtain rfl := regAt_cmd hreg
    exact hcmd _ _ rfl
  · exact absurd rfl hreset
  · exact h.withOutside { s with resetIn := false }

end Sys2Proof.Machine

open Sys2Proof Sys2Proof.Machine

/-- Settles O44: the core's turn answers the held state, and every other turn left writes only what a hold
does not depend on. -/
theorem holdEndsOnlyByPop : Obligations.HoldEndsOnlyByPop := by
  unfold Obligations.HoldEndsOnlyByPop
  intro s t turn rest hheld hs hread hdrain hcmd hreset ht
  have hheld' : Held { s with schedule := rest } := hheld.withOutside { s with schedule := rest }
  cases turn with
  | core => exact coreTurn_keeps_held hheld' ((step_core hs).symm.trans ht)
  | host op =>
    refine hostTurn_keeps_held hheld' ((step_host hs).symm.trans ht) ?_ ?_ ?_ ?_
    · rintro size rfl; exact hread size rfl
    · rintro rfl; exact hdrain rfl
    · rintro size w rfl; exact hcmd size w rfl
    · rintro rfl; exact hreset rfl

/-- Settles O45: the core step carries the values along, and itself writes nothing outside (O42). -/
theorem outcomeIgnoresHostWrites : Obligations.OutcomeIgnoresHostWrites := by
  unfold Obligations.OutcomeIgnoresHostWrites
  intro i s t a e o hi h
  obtain ⟨-, -, -, -, -, hresetIn, hschedule, hlog⟩ := commandsKeepHostRegisters i s t h
  have ht : ({ t with arg := a, errIe := e, eosIe := o } : State) =
      t.withOutside { s with arg := a, errIe := e, eosIe := o } := by
    rw [State.withOutside, ← hresetIn, ← hschedule, ← hlog]
  rw [ht]
  exact exec_withOutside hi h { s with arg := a, errIe := e, eosIe := o }
end

section
/-! SUPPORT. How many bytes a command pushes (40_control.md R164), and why an empty FIFO ends it. -/

namespace Sys2Proof.Machine

/-- The most bytes a command pushes (R164). -/
def mostBytes : Instr → Nat
  | .encByte _ => 32
  | .encFinish => 33
  | .decByte _ => 8
  | _ => 0

theorem mostBytes_le (i : Instr) : mostBytes i ≤ 33 := by
  unfold mostBytes
  split <;> decide

variable {i : Instr} {s s' t : State} {out : List Byte}

/-- A code of at most 256 bits behind at most 7 pending ones gives at most 32 bytes (R282). -/
theorem length_putBits_code_le (h : s.Inv) (j : Fin 257) :
    (putBits { pend := encPend s, out := [] } (codeOf s j)).out.length ≤ 32 := by
  have hpend := length_encPend_lt s
  have hcode : (codeOf s j).length ≤ 256 := by
    rw [codeOf, length_unpackMsb]; exact h.code_len_bound j
  rw [(putBits_from_empty _ _ hpend).1, List.length_append]
  omega

/-- The padding of the last byte is one byte more (R283). -/
theorem length_flush_code_le (h : s.Inv) (j : Fin 257) :
    (flush (putBits { pend := encPend s, out := [] } (codeOf s j))).out.length ≤ 33 := by
  have hcode := length_putBits_code_le h j
  rw [(flush_spec _ (putBits_spec _ _ (length_encPend_lt s)).1).2.1]
  split <;> omega

/-- A command that completes pushes at most the bytes of R164's table. -/
theorem effectOf_pushes (h : s.Inv) (he : effectOf i s = .ok (s', out)) :
    out.length ≤ mostBytes i := by
  obtain ⟨-, hi⟩ := effectOf_ok he
  cases i
  case encByte b => obtain ⟨-, rfl, -⟩ := hi; exact length_putBits_code_le h _
  case encFinish => obtain ⟨-, rfl, -⟩ := hi; exact length_flush_code_le h _
  case decByte y =>
    obtain ⟨w, hw, rfl, -⟩ := hi
    obtain ⟨taken, o, htaken, -, hout, ho, -⟩ := takeBits_ok hw
    rw [hout]
    exact ho.trans htaken
  case nop | softReset | freqClear | anaEnd | encBegin | decBegin =>
    obtain ⟨-, rfl⟩ := hi; exact Nat.zero_le _
  case anaByte | decEnd => obtain ⟨-, -, rfl⟩ := hi; exact Nat.zero_le _
  case buildTree | genCodes => obtain ⟨-, -, rfl, -⟩ := hi; exact Nat.zero_le _
  case freqWrite | freqRead | nodeRead | codeLen | codeBits =>
    obtain ⟨-, -, -, rfl⟩ := hi; exact Nat.zero_le _

/-- No command that completes lengthens the FIFO itself: its bytes are pushed at its end (R161). -/
theorem effectOf_fifo_le (he : effectOf i s = .ok (s', out)) :
    s'.outFifo.length ≤ s.outFifo.length := by
  by_cases hi : i = .softReset
  · subst hi
    obtain ⟨-, rfl, -⟩ := effectOf_ok he
    exact Nat.zero_le _
  · obtain ⟨-, -, -, -, -, -, hkeep⟩ := effectOf_keeps he
    obtain ⟨-, -, -, -, -, -, hfifo⟩ := hkeep hi
    rw [hfifo]

/-- The FIFO grows by at most the bytes of R164's table. -/
theorem exec_fifo_le (h : s.Inv) (ht : exec i s = .next t) :
    t.outFifo.length ≤ s.outFifo.length + mostBytes i := by
  rcases exec_next ht with ⟨code, info, -, rfl⟩ | ⟨s', out, he, -, rfl⟩ | ⟨-, -, -, -, rfl⟩
  · rw [commandFault, takeFault_eq]
    exact Nat.zero_le _
  · rw [List.length_append]
    exact Nat.add_le_add (effectOf_fifo_le he) (effectOf_pushes h he)
  · exact Nat.le_add_right _ _

/-- With an empty FIFO every command ends, in a fault or in completion: the bytes of R164's table fit into
the least FIFO (R8), and the model stops no command of a state that meets the invariant. -/
theorem exec_ends (h : s.Inv) (hfifo : s.outFifo = []) (i : Instr) :
    ∃ t, exec i s = .next t ∧ t.busy = false ∧ t.schedule = s.schedule := by
  rw [exec_eq_finish]
  match he : effectOf i s with
  | .error (.stop f) => exact absurd he (h.effectOf_not_stop i f)
  | .error (.raise code info) =>
    exact ⟨_, finish_raise s code info, commandFault_ends code info s⟩
  | .ok (s', out) =>
    obtain ⟨-, -, -, -, hschedule, -⟩ := effectOf_keeps he
    have hfit : out.length ≤ room s := by
      have hdepth : 33 ≤ s.config.ofifoDepth.toNat := by
        simpa [Config.legal] using h.depth_legal
      rw [room, hfifo]
      exact (effectOf_pushes h he).trans ((mostBytes_le i).trans hdepth)
    exact ⟨_, finish_commit hfit, rfl, hschedule⟩

/-- So the core's turn ends the pending command, legal or not (R164). -/
theorem coreTurn_ends (h : s.Inv) (hbusy : s.busy = true) (hfifo : s.outFifo = []) :
    ∃ t, coreTurn s = .next t ∧ t.busy = false ∧ t.schedule = s.schedule := by
  rw [coreTurn, if_pos hbusy]
  cases decode s.pendCmd with
  | ok i => exact exec_ends h hfifo i
  | error e => exact ⟨_, rfl, commandFault_ends .illegalCmd 0 s⟩

end Sys2Proof.Machine

open Sys2Proof Sys2Proof.Machine

/-- Settles O46: what a command that completes pushes is bounded by the lengths of the codes, of the pending
bits and of DEC_BYTE's operand. -/
theorem mostBytesPushed : Obligations.MostBytesPushed := by
  unfold Obligations.MostBytesPushed
  exact fun i s t h ht => exec_fifo_le h ht

/-- Settles O47: whichever way the core got its turn, the pending command's bytes fit. -/
theorem emptyFifoEndsCommand : Obligations.EmptyFifoEndsCommand := by
  unfold Obligations.EmptyFifoEndsCommand
  refine ⟨fun s h hbusy hfifo hs => ?_, fun s rest h hbusy hfifo hs => ?_⟩
  · obtain ⟨t, ht, hend, -⟩ := coreTurn_ends h hbusy hfifo
    exact ⟨t, (step_idle hs).trans ht, hend⟩
  · obtain ⟨t, ht, hend⟩ := coreTurn_ends (h.withSchedule rest) hbusy hfifo
    exact ⟨t, (step_core hs).trans ht, hend⟩
end

section
/-! SUPPORT. The core steps of the frequency analyzer's commands (41_frequency.md R191 to R195): each one's
next state, or the fault it takes. -/

namespace Sys2Proof.Machine

variable {i : Instr} {s : State}

theorem noneOpen_eq_false_iff : noneOpen s = false ↔ s.encActive = true ∨ s.decState ≠ .idle := by
  rw [← Bool.not_eq_true, noneOpen_iff, not_and_or, Bool.not_eq_false]

/-! ## How a core step ends -/

/-- A command that pushes nothing completes, whatever room the FIFO has. -/
theorem exec_quiet {s' : State} (h : effectOf i s = .ok (s', [])) :
    exec i s = .next { s' with busy := false } := by
  rw [exec_eq_finish, h, finish_quiet]

/-- The first fault is taken on the state before the command (R345, R346). -/
theorem exec_raise {code : ErrCode} {info : Word} (herr : s.err = .noFault)
    (h : effectOf i s = .error (.raise code info)) :
    exec i s = .next (faulted code info s) := by
  rw [exec_eq_finish, h, finish_raise, commandFault_first herr]

/-- A well-formed command out of phase raises SEQUENCE (R130). -/
theorem exec_out_of_phase (hwf : i.wellFormed = true) (herr : s.err = .noFault)
    (hp : phaseOk i s = false) : exec i s = .next (faulted .sequence 0 s) :=
  exec_raise herr (effectOf_of_phase hwf hp)

theorem checkedSym_of_val {a : BitVec 9} {e : Fin 257} {effect : Fin 257 → State → Effect}
    (ha : a.toNat = e.val) : checkedSym i a effect s = checked i (effect e) s := by
  rw [checkedSym, symIndex_of_val ha]

theorem checkedSym_out_of_range {a : BitVec 9} {effect : Fin 257 → State → Effect}
    (ha : 256 < a.toNat) : checkedSym i a effect s = .error (.raise .illegalCmd 0) := by
  rw [checkedSym, symIndex_none ha]

/-! ## The commands that write FREQ (R190)

The phase check of each is noneOpen (R130), so `if_pos hopen` passes it. -/

/-- The state a command that writes FREQ leaves when it completes (R190): the new table, TREE_VALID,
CODES_VALID and BUSY clear, nothing else changed. -/
def State.withFreq (s : State) (freq : Vector Word 257) : State :=
  { s with freq := freq, treeValid := false, codesValid := false, busy := false }

@[simp] theorem State.withFreq_freq (s : State) (freq : Vector Word 257) :
    (s.withFreq freq).freq = freq := rfl

/-- A command whose effect is a write of FREQ and of its flags leaves that state. -/
theorem exec_of_freq_write {freq : Vector Word 257}
    (h : effectOf i s = .ok (clearTreeAndCodes { s with freq := freq }, [])) :
    exec i s = .next (s.withFreq freq) := exec_quiet h

theorem exec_freqClear (hopen : noneOpen s = true) :
    exec .freqClear s = .next (s.withFreq (Vector.replicate 257 0)) :=
  exec_of_freq_write (if_pos hopen)

theorem exec_anaByte {b : Byte} (hopen : noneOpen s = true)
    (hroom : s.freq[byteIndex b] ≠ 0xFFFFFFFF) :
    exec (.anaByte b) s =
      .next (s.withFreq (s.freq.set (byteIndex b).val (s.freq[byteIndex b] + 1))) :=
  exec_of_freq_write ((if_pos hopen).trans (if_neg hroom))

/-- A full count raises COUNT_OVERFLOW, with the byte in ERR_INFO (R192). -/
theorem exec_anaByte_full {b : Byte} (hopen : noneOpen s = true) (herr : s.err = .noFault)
    (hfull : s.freq[byteIndex b] = 0xFFFFFFFF) :
    exec (.anaByte b) s = .next (faulted .countOverflow (b.zeroExtend 32) s) :=
  exec_raise herr ((if_pos hopen).trans (if_pos hfull))

theorem exec_anaEnd_eof (hopen : noneOpen s = true) :
    exec (.anaEnd true) s = .next (s.withFreq (s.freq.set eofIndex.val 1)) :=
  exec_of_freq_write (if_pos hopen)

theorem exec_anaEnd_noEof (hopen : noneOpen s = true) :
    exec (.anaEnd false) s = .next (s.withFreq s.freq) :=
  exec_of_freq_write (if_pos hopen)

theorem exec_freqWrite {a : BitVec 9} {e : Fin 257} (ha : a.toNat = e.val)
    (hopen : noneOpen s = true) :
    exec (.freqWrite a) s = .next (s.withFreq (s.freq.set e.val s.pendArg)) :=
  exec_of_freq_write ((checkedSym_of_val (i := .freqWrite a) ha).trans (if_pos hopen))

/-- A completed write of one entry, as R192 to R194 say it: the entry, and every other entry kept. -/
theorem State.withFreq_set (s : State) (e : Fin 257) (v : Word) :
    (s.withFreq (s.freq.set e.val v)).freq[e] = v ∧
      (∀ j : Fin 257, j ≠ e → (s.withFreq (s.freq.set e.val v)).freq[j] = s.freq[j]) := by
  constructor
  · rw [State.withFreq_freq, freq_set_get, if_pos rfl]
  · intro j hj
    rw [State.withFreq_freq, freq_set_get, if_neg hj]

/-! ## FREQ_READ (R195) -/

theorem exec_freqRead {a : BitVec 9} {e : Fin 257} (ha : a.toNat = e.val) :
    exec (.freqRead a) s = .next { s with result := s.freq[e], busy := false } :=
  exec_quiet (s' := writeResult s.freq[e] s)
    ((checkedSym_of_val (i := .freqRead a) ha).trans (if_pos rfl))

/-! ## Words as numbers -/

/-- Zero extension puts the byte below 24 zero bits (R11). -/
theorem zeroExtend_byte (b : Byte) : b.zeroExtend 32 = 0#24 ++ b := by
  apply BitVec.eq_of_toNat_eq
  have hb : b.toNat < 2 ^ 32 := b.isLt.trans (by decide)
  rw [toNat_concat]
  simpa using hb

/-- A count that is not full grows by 1 as a number (R192). -/
theorem toNat_count_succ {c : Word} (h : c ≠ 0xFFFFFFFF) : (c + 1).toNat = c.toNat + 1 := by
  bv_omega

end Sys2Proof.Machine

open Sys2Proof Sys2Proof.Machine

/-- Settles O15: FREQ_CLEAR's table is 257 zeros, and its phase condition is R191's. -/
theorem freqClearEmptiesTable : Obligations.FreqClearEmptiesTable := by
  unfold Obligations.FreqClearEmptiesTable
  refine ⟨rfl, fun s henc hdec => ?_, fun s herr hopen => ?_⟩
  · exact ⟨_, exec_freqClear (noneOpen_iff.2 ⟨henc, hdec⟩), fun j => Vector.getElem_replicate _, rfl⟩
  · exact exec_out_of_phase rfl herr (noneOpen_eq_false_iff.2 hopen)

/-- Settles O16: a count that is not full grows by 1 without wrapping, and a full one faults. -/
theorem anaByteCountsByte : Obligations.AnaByteCountsByte := by
  unfold Obligations.AnaByteCountsByte
  refine ⟨fun b => rfl, fun b s henc hdec hroom => ?_, fun b s henc hdec herr hfull => ?_,
    fun b s herr hopen => ?_⟩
  · obtain ⟨hentry, hothers⟩ := s.withFreq_set (byteIndex b) (s.freq[byteIndex b] + 1)
    exact ⟨_, exec_anaByte (noneOpen_iff.2 ⟨henc, hdec⟩) hroom,
      (congrArg BitVec.toNat hentry).trans (toNat_count_succ hroom), hothers, rfl⟩
  · rw [exec_anaByte_full (noneOpen_iff.2 ⟨henc, hdec⟩) herr hfull, zeroExtend_byte]
  · exact exec_out_of_phase rfl herr (noneOpen_eq_false_iff.2 hopen)

/-- Settles O17: F = 1 writes the EOF entry, F = 0 no entry. -/
theorem anaEndSetsEofCount : Obligations.AnaEndSetsEofCount := by
  unfold Obligations.AnaEndSetsEofCount
  refine ⟨fun f => rfl, fun s henc hdec => ?_, fun s henc hdec => ?_, fun f s herr hopen => ?_⟩
  · obtain ⟨hentry, hothers⟩ := s.withFreq_set eofIndex 1
    exact ⟨_, exec_anaEnd_eof (noneOpen_iff.2 ⟨henc, hdec⟩), hentry, hothers, rfl⟩
  · exact exec_anaEnd_noEof (noneOpen_iff.2 ⟨henc, hdec⟩)
  · exact exec_out_of_phase rfl herr (noneOpen_eq_false_iff.2 hopen)

/-- Settles O18: a SYM in range selects its entry, and the range is checked before the phase. -/
theorem freqWriteSetsEntry : Obligations.FreqWriteSetsEntry := by
  unfold Obligations.FreqWriteSetsEntry
  refine ⟨fun a => rfl, fun a e s ha henc hdec => ?_, fun a s ha herr => ?_,
    fun a s ha herr hopen => ?_⟩
  · obtain ⟨hentry, hothers⟩ := s.withFreq_set e s.pendArg
    exact ⟨_, exec_freqWrite ha (noneOpen_iff.2 ⟨henc, hdec⟩), hentry, hothers, rfl⟩
  · exact exec_raise herr (checkedSym_out_of_range ha)
  · exact exec_out_of_phase (decide_eq_true ha) herr (noneOpen_eq_false_iff.2 hopen)

/-- Settles O19: FREQ_READ has no phase condition, only the range of SYM. -/
theorem freqReadGivesCount : Obligations.FreqReadGivesCount := by
  unfold Obligations.FreqReadGivesCount
  exact ⟨fun a => rfl, fun a e s ha => exec_freqRead ha,
    fun a s ha herr => exec_raise herr (checkedSym_out_of_range ha)⟩
end

section
/-! SUPPORT. The document's analyze over a byte sequence (41_frequency.md R196): what a run of ANA_BYTE
commands adds to the table. -/

namespace Sys2Proof.Machine

theorem runCommands_cons {i : Instr} {rest : List Instr} {s t : State} (h : exec i s = .next t) :
    runCommands (i :: rest) s = runCommands rest t := by
  rw [runCommands, h]

theorem runCommands_append {first rest : List Instr} {s t : State}
    (h : runCommands first s = .next t) : runCommands (first ++ rest) s = runCommands rest t := by
  induction first generalizing s with
  | nil => cases h; rfl
  | cons i first ih =>
    rw [runCommands] at h
    match hi : exec i s with
    | .next u =>
      rw [hi] at h
      exact (runCommands_cons hi).trans (ih h)
    | .fault f => rw [hi] at h; cases h
    | .refused r => rw [hi] at h; cases h

/-- A table to whose byte counts the occurrences in a byte sequence are added, its EOF count kept. -/
def CountsAdded (bytes : List Byte) (freq freq' : Vector Word 257) : Prop :=
  (∀ v : Byte, freq'[byteIndex v].toNat = freq[byteIndex v].toNat + bytes.count v) ∧
    freq'[eofIndex] = freq[eofIndex]

/-- One ANA_BYTE adds the sequence of that one byte. -/
theorem countsAdded_set {b : Byte} {freq : Vector Word 257}
    (hroom : freq[byteIndex b] ≠ 0xFFFFFFFF) :
    CountsAdded [b] freq (freq.set (byteIndex b).val (freq[byteIndex b] + 1)) := by
  refine ⟨fun v => ?_, ?_⟩
  · by_cases hv : v = b
    · subst hv
      rw [freq_set_get, if_pos rfl, toNat_count_succ hroom, List.count_singleton_self]
    · have hindex : byteIndex v ≠ byteIndex b := fun h => hv (byteIndex_inj h)
      rw [freq_set_get, if_neg hindex, List.count_singleton, if_neg (by simpa using Ne.symm hv)]
      rfl
  · rw [freq_set_get, if_neg (byteIndex_ne_eof b).symm]

theorem CountsAdded.cons {b : Byte} {bytes : List Byte} {freq mid freq' : Vector Word 257}
    (h : CountsAdded [b] freq mid) (h' : CountsAdded bytes mid freq') :
    CountsAdded (b :: bytes) freq freq' := by
  obtain ⟨hbyte, heof⟩ := h
  obtain ⟨hbytes, heof'⟩ := h'
  refine ⟨fun v => ?_, heof'.trans heof⟩
  rw [hbytes, hbyte, Nat.add_assoc, ← List.count_append, List.singleton_append]

/-- While no count comes to 2^32, every ANA_BYTE of a sequence completes, and together they add its
occurrences to the table (R192, R196). -/
theorem runCommands_anaBytes {bytes : List Byte} {s : State} {freq : Vector Word 257}
    (hopen : noneOpen s = true)
    (hfit : ∀ v : Byte, freq[byteIndex v].toNat + bytes.count v < 2 ^ 32) :
    ∃ freq', runCommands (bytes.map .anaByte) (s.withFreq freq) = .next (s.withFreq freq') ∧
      CountsAdded bytes freq freq' := by
  induction bytes generalizing freq with
  | nil => exact ⟨freq, rfl, fun v => rfl, rfl⟩
  | cons b bytes ih =>
    have hroom : freq[byteIndex b] ≠ 0xFFFFFFFF := by
      intro hfull
      have hb := hfit b
      rw [hfull, List.count_cons_self] at hb
      have hmax : (0xFFFFFFFF : Word).toNat = 2 ^ 32 - 1 := rfl
      omega
    have hadd := countsAdded_set hroom
    obtain ⟨freq', hrun, hcounts⟩ := ih fun v => by
      have hv := hfit v
      obtain ⟨hbyte, -⟩ := hadd
      rw [List.count_cons] at hv
      rw [hbyte, List.count_singleton]
      omega
    exact ⟨freq', (runCommands_cons (exec_anaByte (s := s.withFreq freq) hopen hroom)).trans hrun,
      hadd.cons hcounts⟩

/-- ANA_END leaves the byte counts, and the EOF count is 1 or stays (R193). -/
theorem exec_anaEnd (f : Bool) {s : State} (hopen : noneOpen s = true) :
    ∃ freq, exec (.anaEnd f) s = .next (s.withFreq freq) ∧
      (∀ v : Byte, freq[byteIndex v] = s.freq[byteIndex v]) ∧
      freq[eofIndex] = if f then 1 else s.freq[eofIndex] := by
  cases f with
  | true =>
    obtain ⟨hentry, hothers⟩ := s.withFreq_set eofIndex 1
    exact ⟨_, exec_anaEnd_eof hopen, fun v => hothers _ (byteIndex_ne_eof v), hentry⟩
  | false => exact ⟨_, exec_anaEnd_noEof hopen, fun v => rfl, rfl⟩

end Sys2Proof.Machine

open Sys2Proof Sys2Proof.Machine

/-- Settles O20: from the empty table the bytes' occurrences are added, then the EOF entry is made. -/
theorem analyzeCountsOccurrences : Obligations.AnalyzeCountsOccurrences := by
  unfold Obligations.AnalyzeCountsOccurrences
  intro bytes f s henc hdec hfit
  have hopen : noneOpen s = true := noneOpen_iff.2 ⟨henc, hdec⟩
  have hzero (j : Fin 257) : (Vector.replicate 257 (0 : Word))[j] = 0 := Vector.getElem_replicate _
  obtain ⟨counts, hrun, hcounts, heof⟩ := runCommands_anaBytes (bytes := bytes)
    (freq := Vector.replicate 257 0) hopen (fun v => by simpa [hzero] using hfit v)
  obtain ⟨freq, hend, hbytes, hlast⟩ := exec_anaEnd f (s := s.withFreq counts) hopen
  refine ⟨s.withFreq freq, ?_, fun v => ?_, ?_, rfl⟩
  · calc runCommands (.freqClear :: bytes.map .anaByte ++ [.anaEnd f]) s
        = runCommands (bytes.map .anaByte ++ [.anaEnd f])
            (s.withFreq (Vector.replicate 257 0)) := runCommands_cons (exec_freqClear hopen)
      _ = runCommands [.anaEnd f] (s.withFreq counts) := runCommands_append hrun
      _ = .next (s.withFreq freq) := runCommands_cons hend
  · calc freq[byteIndex v].toNat
        = counts[byteIndex v].toNat := congrArg BitVec.toNat (hbytes v)
      _ = bytes.count v := by rw [hcounts, hzero]; exact Nat.zero_add _
  · rw [State.withFreq_freq, hlast, State.withFreq_freq, heof, hzero]
end

section
/-! SUPPORT. The core step of NODE_READ (42_tree.md R226). -/

namespace Sys2Proof.Machine

variable {i : Instr} {s : State}

theorem checkedIdx_of_val {x : BitVec 10} {e : Fin 513} {effect : Fin 513 → State → Effect}
    (hx : x.toNat = e.val) : checkedIdx i x effect s = checked i (effect e) s := by
  rw [checkedIdx, nodeIndex_of_val hx]

theorem checkedIdx_out_of_range {x : BitVec 10} {effect : Fin 513 → State → Effect}
    (hx : 512 < x.toNat) : checkedIdx i x effect s = .error (.raise .illegalCmd 0) := by
  rw [checkedIdx, nodeIndex_none hx]

theorem exec_nodeRead {x : BitVec 10} {e : Fin 513} (hx : x.toNat = e.val)
    (htree : s.treeValid = true) (f : BitVec 2) :
    exec (.nodeRead x f) s = .next { s with result := nodeField s.node[e] f, busy := false } :=
  exec_quiet (s' := writeResult (nodeField s.node[e] f) s)
    ((checkedIdx_of_val (i := .nodeRead x f) hx).trans (if_pos htree))

/-- FSEL 1 reads the weight's low word (R226). -/
theorem nodeField_one (e : Node) : nodeField e 1 = BitVec.ofNat 32 e.weight.toNat :=
  BitVec.eq_of_toNat_eq (by simp [nodeField])

/-- FSEL 2 reads the weight's 9 bits above the low word (R226). -/
theorem nodeField_two (e : Node) : nodeField e 2 = BitVec.ofNat 32 (e.weight.toNat / 2 ^ 32) := by
  have hfield : nodeField e 2 = 0#23 ++ e.weight.extractLsb' 32 9 := rfl
  apply BitVec.eq_of_toNat_eq
  rw [hfield, toNat_concat]
  simp only [BitVec.toNat_ofNat, BitVec.extractLsb'_toNat, Nat.shiftRight_eq_div_pow]
  omega

end Sys2Proof.Machine

open Sys2Proof Sys2Proof.Machine

/-- Settles O24: an IDX in range selects its entry, and the range is checked before the phase. -/
theorem nodeReadGivesField : Obligations.NodeReadGivesField := by
  unfold Obligations.NodeReadGivesField
  refine ⟨fun x f => rfl, fun x e s hx htree => ?_, fun x f s hx herr => ?_,
    fun x f s hx herr htree => ?_⟩
  · refine ⟨exec_nodeRead hx htree 0, ?_, ?_, exec_nodeRead hx htree 3⟩
    · rw [exec_nodeRead hx htree, nodeField_one]
    · rw [exec_nodeRead hx htree, nodeField_two]
  · exact exec_raise herr (checkedIdx_out_of_range hx)
  · exact exec_out_of_phase (decide_eq_true hx) herr htree
end

section
/-! SUPPORT. The leaves BUILD_TREE starts from (42_tree.md R221, R222), and its core step (R224). -/

namespace Sys2Proof.Machine

/-! ## The leaves of a table -/

/-- The leaves of a stretch of counts are those of its counts that are not 0 (R221). -/
theorem mem_leavesFrom_iff {sym : Nat} {counts : List Word} {e : Node} :
    e ∈ leavesFrom sym counts ↔
      ∃ j c, counts[j]? = some c ∧ c ≠ 0 ∧ e = leafNode (sym + j) c := by
  induction counts generalizing sym with
  | nil => simp [leavesFrom]
  | cons c counts ih =>
    have hhead : e ∈ leavesFrom sym (c :: counts) ↔
        (c ≠ 0 ∧ e = leafNode sym c) ∨ e ∈ leavesFrom (sym + 1) counts := by
      by_cases hc : c = 0
      · rw [leavesFrom, if_pos hc]
        exact ⟨.inr, fun h => h.resolve_left fun hleaf => hleaf.1 hc⟩
      · rw [leavesFrom, if_neg hc, List.mem_cons]
        exact or_congr_left (and_iff_right hc).symm
    refine hhead.trans (Iff.trans ?_ Nat.or_exists_add_one)
    rw [ih]
    simp [Nat.add_assoc, Nat.add_comm 1]

/-- The leaves of a table are those of its symbols (R221, R222). -/
theorem mem_leaves_iff {freq : Vector Word 257} {e : Node} :
    e ∈ leaves freq ↔ ∃ s : Fin 257, freq[s] ≠ 0 ∧ e = leafNode s.val freq[s] := by
  rw [leaves, mem_leavesFrom_iff]
  constructor
  · rintro ⟨j, c, hj, hc, rfl⟩
    obtain ⟨hlt, rfl⟩ := List.getElem?_eq_some_iff.1 hj
    rw [Vector.length_toList] at hlt
    exact ⟨⟨j, hlt⟩, by simpa using hc, by simp⟩
  · rintro ⟨s, hs, rfl⟩
    exact ⟨s.val, freq[s], by simp, hs, by simp⟩

/-- The leaf of a count holds it whole: 41 bits are more than 32 (R227). -/
theorem toNat_leafNode_weight (sym : Nat) (c : Word) : (leafNode sym c).weight.toNat = c.toNat := by
  have hc : c.toNat < 2 ^ 41 := c.isLt.trans (by decide)
  simpa [leafNode] using hc

theorem toNat_leafNode_sym (s : Fin 257) (c : Word) : (leafNode s.val c).sym.toNat = s.val := by
  simp only [leafNode, BitVec.toNat_ofNat]
  omega

/-- The sum of the weights of some nodes, as a number. -/
def totalWeight (nodes : List Node) : Nat := (nodes.map fun e => e.weight.toNat).sum

/-- The leaves of a stretch of counts weigh what the counts add up to: a count of 0 adds nothing. -/
theorem totalWeight_leavesFrom (sym : Nat) (counts : List Word) :
    totalWeight (leavesFrom sym counts) = (counts.map BitVec.toNat).sum := by
  induction counts generalizing sym with
  | nil => rfl
  | cons c counts ih =>
    by_cases hc : c = 0
    · rw [leavesFrom, if_pos hc, ih]
      simp [hc]
    · rw [leavesFrom, if_neg hc, List.map_cons, List.sum_cons, ← ih (sym + 1),
        ← toNat_leafNode_weight sym c]
      rfl

theorem totalWeight_leaves (freq : Vector Word 257) :
    totalWeight (leaves freq) = (freq.toList.map BitVec.toNat).sum := totalWeight_leavesFrom _ _

/-- All the leaves together weigh less than 2^41, so no weight wraps (R227). -/
theorem totalWeight_leaves_lt (freq : Vector Word 257) : totalWeight (leaves freq) < 2 ^ 41 := by
  have hle : (freq.toList.map BitVec.toNat).sum ≤ (freq.toList.map BitVec.toNat).length • 2 ^ 32 :=
    List.sum_le_card_nsmul _ _ fun x hx => by
      obtain ⟨c, -, rfl⟩ := List.mem_map.1 hx
      exact c.isLt.le
  rw [totalWeight_leaves]
  refine hle.trans_lt ?_
  simp

/-- R221's n is the number of leaves. -/
theorem length_leaves (freq : Vector Word 257) : (leaves freq).length = symbolCount freq :=
  length_leavesFrom _ _

/-! ## When there is a tree, and how large it is -/

/-- Every table but the empty one has a tree (R221). -/
theorem treeOf_eq_none_iff {freq : Vector Word 257} :
    treeOf freq = none ↔ ∀ j : Fin 257, freq[j] = 0 := by
  have htree : treeOf freq = none ↔ treeNodes (leaves freq) = [] := by simp [treeOf]
  have hlen := length_treeNodes (leaves freq)
  have hempty : treeNodes (leaves freq) = [] ↔ leaves freq = [] := by
    rw [← List.length_eq_zero_iff, ← List.length_eq_zero_iff, hlen]
    split
    · simp [*]
    · split <;> omega
  rw [htree, hempty, List.eq_nil_iff_forall_not_mem]
  constructor
  · exact fun hnone j => by_contra fun hj => hnone _ (mem_leaves_iff.2 ⟨j, hj, rfl⟩)
  · rintro hzero e he
    obtain ⟨j, hj, -⟩ := mem_leaves_iff.1 he
    exact hj (hzero j)

/-- The size of a built tree (R222, R223). -/
theorem built_size {freq : Vector Word 257} {t : BuiltTree} (ht : treeOf freq = some t) :
    1 ≤ symbolCount freq ∧
      t.nodeCount.toNat = (if symbolCount freq = 1 then 2 else 2 * symbolCount freq - 1) ∧
      t.root.toNat = t.nodeCount.toNat - 1 := by
  obtain ⟨hne, -, hcount, hroot, -⟩ := treeOf_some ht
  have hpos := List.length_pos_iff.2 hne
  have hlen := length_treeNodes (leaves freq)
  rw [length_leaves] at hpos hlen
  rw [if_neg (by omega)] at hlen
  exact ⟨hpos, hcount.trans hlen, hroot.trans (by rw [hcount])⟩

/-! ## BUILD_TREE -/

variable {s : State}

theorem exec_buildTree {t : BuiltTree} (hopen : noneOpen s = true) (ht : treeOf s.freq = some t) :
    exec .buildTree s = .next { s with node := t.node, nodeCount := t.nodeCount, root := t.root,
                                       treeValid := true, codesValid := false, busy := false } := by
  have heffect : buildTree s =
      .ok ({ s with node := t.node, nodeCount := t.nodeCount, root := t.root,
                    treeValid := true, codesValid := false }, []) := by simp [buildTree, ht]
  exact exec_quiet (i := .buildTree) ((if_pos hopen).trans heffect)

/-- The empty table raises INVALID_INPUT (R221). -/
theorem exec_buildTree_empty (hopen : noneOpen s = true) (herr : s.err = .noFault)
    (ht : treeOf s.freq = none) : exec .buildTree s = .next (faulted .invalidInput 0 s) := by
  have heffect : buildTree s = .error (.raise .invalidInput 0) := by simp [buildTree, ht]
  exact exec_raise (i := .buildTree) herr ((if_pos hopen).trans heffect)

end Sys2Proof.Machine

open Sys2Proof Sys2Proof.Machine

/-- Settles O21: a table has a tree exactly when some count is not 0, and the tree is what is written. -/
theorem buildTreeCompletes : Obligations.BuildTreeCompletes := by
  unfold Obligations.BuildTreeCompletes
  refine ⟨rfl, fun s henc hdec ⟨j, hj⟩ => ?_, fun s henc hdec herr hzero => ?_,
    fun s herr hopen => ?_⟩
  · obtain ⟨t, ht⟩ := Option.ne_none_iff_exists'.1 fun h => hj (treeOf_eq_none_iff.1 h j)
    obtain ⟨-, hcount, hroot⟩ := built_size ht
    exact ⟨_, exec_buildTree (noneOpen_iff.2 ⟨henc, hdec⟩) ht, ht, hcount, hroot, rfl⟩
  · exact exec_buildTree_empty (noneOpen_iff.2 ⟨henc, hdec⟩) herr (treeOf_eq_none_iff.2 hzero)
  · exact exec_out_of_phase rfl herr (noneOpen_eq_false_iff.2 hopen)
end

section
/-! SUPPORT. One combination (42_tree.md R220, R221), with the pool seen as a set. -/

namespace Sys2Proof.Machine

variable {nodes nodes' : List Node} {pool pool' : List Nat}

/-- One turn of the loop takes its two lowest nodes out of the pool, whatever the pool's order, and puts
the node over them in (R221). -/
theorem combine_perm (hn : pool.Nodup) (h : combine nodes pool = some (nodes', pool')) :
    ∃ first second rest, pool.Perm (first :: second :: rest) ∧
      (∀ i ∈ second :: rest, lower nodes first i = true) ∧
      (∀ i ∈ rest, lower nodes second i = true) ∧
      nodes' = nodes ++ [internalNode nodes first second] ∧ pool' = rest ++ [nodes.length] := by
  obtain ⟨first, second, hf, hs, hlow, hlow', rfl, rfl⟩ := combine_some h
  have hperm := List.perm_cons_erase hs
  refine ⟨first, second, _, (List.perm_cons_erase hf).trans (hperm.cons first), fun i hi => ?_,
    fun i hi => ?_, rfl, rfl⟩
  · obtain ⟨hne, hmem⟩ := hn.mem_erase_iff.1 (hperm.mem_iff.2 hi)
    exact (hlow i hmem).resolve_left hne
  · obtain ⟨hne, hmem⟩ := (hn.erase first).mem_erase_iff.1 hi
    exact (hlow' i hmem).resolve_left hne

section
variable {first second : Nat} {rest : List Nat} (hperm : pool.Perm (first :: second :: rest))
include hperm

/-- The pool as a set, from the two nodes a turn removes and those that stay. -/
theorem mem_pool_iff (j : Nat) : j ∈ pool ↔ j = first ∨ j = second ∨ j ∈ rest := by
  simp [hperm.mem_iff]

/-- In a pool without repeats the two nodes removed and those that stay are different nodes. -/
theorem nodup_parts (hn : pool.Nodup) :
    first ≠ second ∧ first ∉ rest ∧ second ∉ rest ∧ rest.Nodup := by
  obtain ⟨hfirst, hsecond, hrest⟩ : first ∉ second :: rest ∧ second ∉ rest ∧ rest.Nodup := by
    simpa only [List.nodup_cons] using hperm.nodup_iff.1 hn
  exact ⟨List.ne_of_not_mem_cons hfirst, List.not_mem_of_not_mem_cons hfirst, hsecond, hrest⟩

end

end Sys2Proof.Machine

open Sys2Proof Sys2Proof.Machine

/-- Settles O22: in a pool without repeats, the nodes left after the two are those other than the two. -/
theorem combineTakesTwoLowest : Obligations.CombineTakesTwoLowest := by
  unfold Obligations.CombineTakesTwoLowest
  intro nodes nodes' pool pool' hn h
  obtain ⟨first, second, rest, hperm, hfirst, hsecond, rfl, rfl⟩ := combine_perm hn h
  obtain ⟨hne, hf, hs, -⟩ := nodup_parts hperm hn
  have hmem := mem_pool_iff hperm
  have stays {i : Nat} (hi : i ∈ pool) (hif : i ≠ first) : i = second ∨ i ∈ rest :=
    ((hmem i).1 hi).resolve_left hif
  refine ⟨first, second, (hmem _).2 (.inl rfl), (hmem _).2 (.inr (.inl rfl)), hne, fun i hi hif => ?_,
    fun i hi hif his => ?_, rfl, fun i => ?_⟩
  · exact (lower_iff _ _ _).1 (hfirst i (List.mem_cons.2 (stays hi hif)))
  · exact (lower_iff _ _ _).1 (hsecond i ((stays hi hif).resolve_left his))
  · rw [List.mem_append, List.mem_singleton]
    constructor
    · rintro (hi | rfl)
      · exact .inr ⟨(hmem i).2 (.inr (.inr hi)), fun heq => hf (heq ▸ hi), fun heq => hs (heq ▸ hi)⟩
      · exact .inl rfl
    · rintro (rfl | ⟨hi, hif, his⟩)
      · exact .inr rfl
      · exact .inl ((stays hi hif).resolve_left his)
end

section
/-! SUPPORT. What the loop of R221 keeps of its collection P (42_tree.md R220 to R223, R227): it holds the
nodes made that are no child of a node made, and together they weigh what the leaves weigh. -/

namespace Sys2Proof.Machine

/-- Index j is a child of one of the nodes. -/
def IsChild (nodes : List Node) (j : Nat) : Prop := ∃ e ∈ nodes, e.zero.toNat = j ∨ e.one.toNat = j

/-- The pool is the collection P of R221 when these nodes have been made from the leaves l. -/
structure IsCollection (l nodes : List Node) (pool : List Nat) : Prop where
  /-- P is a set. -/
  nodup : pool.Nodup
  /-- P holds the nodes made that have not been removed. -/
  mem_iff : ∀ j, j ∈ pool ↔ j < nodes.length ∧ ¬ IsChild nodes j
  /-- Children are nodes made, or NIL. -/
  child_made : ∀ j, IsChild nodes j → j < nodes.length ∨ j = nilIdx.toNat
  /-- A turn adds one node and makes P smaller by one. -/
  count : nodes.length + pool.length = 2 * l.length
  /-- A turn keeps the weight of P. -/
  weight : (pool.map fun i => (weightAt nodes i).toNat).sum = totalWeight l

/-! ## Before the loop -/

theorem isChild_of_leaves {l : List Node} (hnil : ∀ e ∈ l, e.zero = nilIdx ∧ e.one = nilIdx) {j : Nat}
    (h : IsChild l j) : j = nilIdx.toNat := by
  obtain ⟨e, he, hj⟩ := h
  obtain ⟨hz, ho⟩ := hnil e he
  rw [hz, ho, or_self] at hj
  exact hj.symm

/-- The weights of a list of nodes by index are those of its elements. -/
theorem map_range_weightAt (l : List Node) :
    (List.range l.length).map (fun i => (weightAt l i).toNat) = l.map fun e => e.weight.toNat :=
  List.ext_getElem (by simp) fun i h _ => by
    simp only [List.length_map, List.length_range] at h
    simp [weightAt, h]

/-- Before the loop P holds all the leaves (R221). -/
theorem IsCollection.start {l : List Node} (hnil : ∀ e ∈ l, e.zero = nilIdx ∧ e.one = nilIdx)
    (hl : l.length ≤ 257) : IsCollection l l (List.range l.length) where
  nodup := List.nodup_range
  mem_iff := fun j => by
    have hnot : j < l.length → ¬ IsChild l j := fun hj h => by
      have := isChild_of_leaves hnil h
      have : nilIdx.toNat = 1023 := rfl
      omega
    rw [List.mem_range]
    exact ⟨fun hj => ⟨hj, hnot hj⟩, And.left⟩
  child_made := fun j h => .inr (isChild_of_leaves hnil h)
  count := by rw [List.length_range]; omega
  weight := by rw [map_range_weightAt]; rfl

/-! ## One turn -/

theorem isChild_append {nodes : List Node} {e : Node} {j : Nat} :
    IsChild (nodes ++ [e]) j ↔ IsChild nodes j ∨ e.zero.toNat = j ∨ e.one.toNat = j := by
  simp [IsChild, or_and_right, exists_or]

section
variable {l nodes nodes' : List Node} {pool pool' : List Nat}

theorem IsCollection.lt_length (h : IsCollection l nodes pool) {j : Nat} (hj : j ∈ pool) :
    j < nodes.length := ((h.mem_iff j).1 hj).1

/-- No node made has index NIL. -/
theorem IsCollection.length_lt (h : IsCollection l nodes pool) (hl : l.length ≤ 257) :
    nodes.length < nilIdx.toNat := by
  have hcount := h.count
  have : nilIdx.toNat = 1023 := rfl
  omega

/-- The children of a new node, as numbers. -/
theorem IsCollection.toNat_child (h : IsCollection l nodes pool) (hl : l.length ≤ 257) {j : Nat}
    (hj : j ∈ pool) : (BitVec.ofNat 10 j).toNat = j := by
  have hlt := h.lt_length hj
  have hlen := h.length_lt hl
  have : nilIdx.toNat = 1023 := rfl
  rw [BitVec.toNat_ofNat]
  omega

section
variable {first second : Nat} {rest : List Nat} (h : IsCollection l nodes pool)
  (hperm : pool.Perm (first :: second :: rest))
include h hperm

/-- The new node's children are the two removed. -/
theorem IsCollection.isChild_turn (hl : l.length ≤ 257) (j : Nat) :
    IsChild (nodes ++ [internalNode nodes first second]) j ↔
      IsChild nodes j ∨ first = j ∨ second = j := by
  rw [isChild_append, internalNode, h.toNat_child hl ((mem_pool_iff hperm _).2 (.inl rfl)),
    h.toNat_child hl ((mem_pool_iff hperm _).2 (.inr (.inl rfl)))]

/-- After a turn P holds again the nodes made that are no child. -/
theorem IsCollection.mem_turn_iff (hl : l.length ≤ 257) (j : Nat) :
    j ∈ rest ++ [nodes.length] ↔ j < nodes.length + 1 ∧
      ¬ IsChild (nodes ++ [internalNode nodes first second]) j := by
  obtain ⟨-, hfirst, hsecond, -⟩ := nodup_parts hperm h.nodup
  have hmem := mem_pool_iff hperm
  rw [h.isChild_turn hperm hl, not_or, not_or, List.mem_append, List.mem_singleton]
  constructor
  · rintro (hj | rfl)
    · obtain ⟨hlt, hroot⟩ := (h.mem_iff j).1 ((hmem j).2 (.inr (.inr hj)))
      exact ⟨by omega, hroot, fun heq => hfirst (heq ▸ hj), fun heq => hsecond (heq ▸ hj)⟩
    · refine ⟨by omega, fun hchild => ?_, (h.lt_length ((hmem _).2 (.inl rfl))).ne,
        (h.lt_length ((hmem _).2 (.inr (.inl rfl)))).ne⟩
      have := h.child_made _ hchild
      have := h.length_lt hl
      omega
  · rintro ⟨hlt, hroot, hjf, hjs⟩
    by_cases hj : j = nodes.length
    · exact .inr hj
    · have hp : j ∈ pool := (h.mem_iff j).2 ⟨by omega, hroot⟩
      exact .inl ((((hmem j).1 hp).resolve_left (Ne.symm hjf)).resolve_left (Ne.symm hjs))

/-- The weight of P, by the two nodes a turn removes and the others. -/
theorem IsCollection.weight_parts :
    (weightAt nodes first).toNat + ((weightAt nodes second).toNat +
      (rest.map fun i => (weightAt nodes i).toNat).sum) = totalWeight l := by
  rw [← h.weight, (hperm.map _).sum_eq]
  rfl

/-- Two nodes of P weigh no more than all the leaves, so their sum does not wrap (R227). -/
theorem IsCollection.toNat_weight_add (hw : totalWeight l < 2 ^ 41) :
    (weightAt nodes first + weightAt nodes second).toNat =
      (weightAt nodes first).toNat + (weightAt nodes second).toNat := by
  have hsum := h.weight_parts hperm
  rw [BitVec.toNat_add, Nat.mod_eq_of_lt]
  omega

/-- The new node weighs what the two removed do, and the others keep their weights. -/
theorem IsCollection.weight_turn (hw : totalWeight l < 2 ^ 41) :
    ((rest ++ [nodes.length]).map fun i =>
      (weightAt (nodes ++ [internalNode nodes first second]) i).toNat).sum = totalWeight l := by
  have hkept : rest.map (fun i => (weightAt (nodes ++ [internalNode nodes first second]) i).toNat) =
      rest.map fun i => (weightAt nodes i).toNat :=
    List.map_congr_left fun i hi => by
      rw [weightAt_append (h.lt_length ((mem_pool_iff hperm i).2 (.inr (.inr hi))))]
  have hmade : weightAt (nodes ++ [internalNode nodes first second]) nodes.length =
      weightAt nodes first + weightAt nodes second := by simp [weightAt, internalNode]
  rw [List.map_append, List.sum_append, hkept, List.map_singleton, List.sum_singleton, hmade,
    h.toNat_weight_add hperm hw, ← h.weight_parts hperm]
  omega

end

/-- A turn of the loop keeps all this (R221). -/
theorem IsCollection.combine (h : IsCollection l nodes pool) (hl : l.length ≤ 257)
    (hw : totalWeight l < 2 ^ 41) (hc : combine nodes pool = some (nodes', pool')) :
    IsCollection l nodes' pool' := by
  obtain ⟨hlen, hpool⟩ := combine_length hc
  obtain ⟨first, second, rest, hperm, -, -, rfl, rfl⟩ := combine_perm h.nodup hc
  have hmem := mem_pool_iff hperm
  refine ⟨?_, fun j => ?_, fun j hj => ?_, ?_, h.weight_turn hperm hw⟩
  · obtain ⟨-, -, -, hrest⟩ := nodup_parts hperm h.nodup
    have hnew : nodes.length ∉ rest := fun hj =>
      Nat.lt_irrefl _ (h.lt_length ((hmem _).2 (.inr (.inr hj))))
    exact hrest.append (List.nodup_singleton _) (List.disjoint_singleton.2 hnew)
  · rw [hlen]
    exact h.mem_turn_iff hperm hl j
  · have hold (hp : j ∈ pool) : j < nodes.length + 1 := (h.lt_length hp).trans (Nat.lt_succ_self _)
    rw [hlen]
    rcases (h.isChild_turn hperm hl j).1 hj with hchild | heq | heq
    · exact (h.child_made j hchild).imp_left fun hlt => hlt.trans (Nat.lt_succ_self _)
    · exact .inl (hold ((hmem j).2 (.inl heq.symm)))
    · exact .inl (hold ((hmem j).2 (.inr (.inl heq.symm))))
  · have := h.count
    omega

/-- Every node the loop makes is made by a turn on the collection of the nodes before it (R221). -/
theorem IsCollection.combineAll_turn {turns k : Nat} (h : IsCollection l nodes pool)
    (hl : l.length ≤ 257) (hw : totalWeight l < 2 ^ 41) (hk : nodes.length ≤ k)
    (hmade : k < (combineAll turns nodes pool).length) :
    ∃ before after p p', IsCollection l before p ∧ Machine.combine before p = some (after, p') ∧
      before.length = k ∧ after <+: combineAll turns nodes pool := by
  induction turns generalizing nodes pool with
  | zero => exact absurd hmade (Nat.not_lt.2 hk)
  | succ turns ih =>
    unfold combineAll at hmade ⊢
    split at hmade
    · exact absurd hmade (Nat.not_lt.2 hk)
    · rename_i nodes' pool' hc
      by_cases hnow : nodes.length = k
      · exact ⟨nodes, nodes', pool, pool', h, hc, hnow, combineAll_extends _ _ _⟩
      · obtain ⟨hlen, -⟩ := combine_length hc
        exact ih (h.combine hl hw hc) (by omega) hmade

end

end Sys2Proof.Machine
end

section
/-! SUPPORT. The entries of every tree BUILD_TREE builds (42_tree.md R221 to R223, R228): the leaves, the
wrapper of one symbol, and the nodes the turns of the loop make. -/

namespace Sys2Proof.Machine

variable {freq : Vector Word 257} {t : BuiltTree}

/-- The nodes made up to some turn are entries of the tree. -/
theorem built_prefix_entry (ht : treeOf freq = some t) {nodes : List Node}
    (hpre : nodes <+: treeNodes (leaves freq)) {k : Fin 513} (hk : k.val < nodes.length) :
    nodes[k.val] = t.node[k] := by
  obtain ⟨-, -, hcount, -⟩ := treeOf_some ht
  have hlt : k.val < t.nodeCount.toNat := by
    have := hpre.length_le
    omega
  obtain ⟨_, hentry⟩ := List.getElem?_eq_some_iff.1 (built_entry ht hlt)
  rw [hpre.getElem hk, hentry]

theorem built_prefix_weight (ht : treeOf freq = some t) {nodes : List Node}
    (hpre : nodes <+: treeNodes (leaves freq)) {k : Fin 513} (hk : k.val < nodes.length) :
    weightAt nodes k.val = t.node[k].weight := by
  rw [weightAt, List.getD_eq_getElem _ _ hk, built_prefix_entry ht hpre hk]

/-! ## Leaves, and entries above the tree -/

/-- The entries below n are the leaves of the table, in their order (R222). -/
theorem built_leaf (ht : treeOf freq = some t) {i : Fin 513} (hi : i.val < symbolCount freq) :
    (leaves freq)[i.val]? = some t.node[i] := by
  rw [← length_leaves] at hi
  rw [List.getElem?_eq_getElem hi, built_prefix_entry ht (leaves_prefix_treeNodes _) hi]

/-- Each is the leaf of a symbol with a count (R221). -/
theorem built_leaf_eq (ht : treeOf freq = some t) {i : Fin 513} (hi : i.val < symbolCount freq) :
    ∃ s : Fin 257, freq[s] ≠ 0 ∧ t.node[i] = leafNode s.val freq[s] :=
  mem_leaves_iff.1 (List.mem_of_getElem? (built_leaf ht hi))

theorem built_leaf_ascending (ht : treeOf freq = some t) {i j : Fin 513} (hij : i.val < j.val)
    (hj : j.val < symbolCount freq) : t.node[i].sym.toNat < t.node[j].sym.toNat := by
  obtain ⟨hil, hi'⟩ := List.getElem?_eq_some_iff.1 (built_leaf ht (hij.trans hj))
  obtain ⟨hjl, hj'⟩ := List.getElem?_eq_some_iff.1 (built_leaf ht hj)
  rw [← hi', ← hj']
  exact List.pairwise_iff_getElem.1 (leavesFrom_ascending 0 freq.toList (by simp)) _ _ hil hjl hij

/-- Every symbol with a count has its leaf (R228 item 2). -/
theorem built_leaf_of_symbol (ht : treeOf freq = some t) {s : Fin 257} (hs : freq[s] ≠ 0) :
    ∃ i : Fin 513, i.val < symbolCount freq ∧ t.node[i] = leafNode s.val freq[s] := by
  obtain ⟨k, hk, hleaf⟩ := List.getElem_of_mem (mem_leaves_iff.2 ⟨s, hs, rfl⟩)
  have hle := length_leaves_le freq
  refine ⟨⟨k, by omega⟩, length_leaves freq ▸ hk, ?_⟩
  rw [← hleaf, ← built_prefix_entry ht (leaves_prefix_treeNodes _) (k := ⟨k, by omega⟩) hk]

theorem built_unused (ht : treeOf freq = some t) {i : Fin 513} (hi : t.nodeCount.toNat ≤ i.val) :
    t.node[i] = Node.unused := by
  obtain ⟨-, hnode, hcount, -⟩ := treeOf_some ht
  rw [hnode, arenaOf_get, List.getD_eq_default _ _ (hcount ▸ hi)]

/-! ## The wrapper of one symbol -/

/-- Over one leaf the tree is the leaf and its wrapper (R223). -/
theorem built_wrapper (ht : treeOf freq = some t) (h1 : symbolCount freq = 1) {i : Fin 513}
    (hi : 1 ≤ i.val) (hcount : i.val < t.nodeCount.toNat) :
    t.node[i] = wrapperNode t.node[(0 : Fin 513)] ∧
      t.node[(0 : Fin 513)].weight.toNat = totalWeight (leaves freq) := by
  obtain ⟨leaf, hleaf⟩ := List.length_eq_one_iff.1 ((length_leaves freq).trans h1)
  obtain ⟨-, hsize, -⟩ := built_size ht
  rw [if_pos h1] at hsize
  obtain rfl : i = 1 := Fin.ext (by simp; omega)
  obtain ⟨-, hnode, -⟩ := treeOf_some ht
  rw [hnode, arenaOf_get, arenaOf_get, hleaf]
  exact ⟨rfl, (Nat.add_zero _).symm⟩

/-! ## The turns of the loop -/

theorem leaves_children {e : Node} (he : e ∈ leaves freq) : e.zero = nilIdx ∧ e.one = nilIdx := by
  obtain ⟨s, -, rfl⟩ := mem_leaves_iff.1 he
  exact ⟨rfl, rfl⟩

/-- Entry i of the arena as a turn of the loop made it: the nodes then made, the pool, the two nodes
removed and those left. -/
structure TurnMakes (freq : Vector Word 257) (arena : Vector Node 513) (i : Fin 513)
    (nodes : List Node) (pool : List Nat) (first second : Nat) (rest : List Nat) : Prop where
  /-- The pool is the collection P. -/
  collection : IsCollection (leaves freq) nodes pool
  /-- The nodes then made are those with an index below i. -/
  length_eq : nodes.length = i.val
  /-- They stay as they are. -/
  kept : nodes <+: treeNodes (leaves freq)
  /-- The two nodes removed, and the others. -/
  parts : pool.Perm (first :: second :: rest)
  /-- The first is the lowest of P. -/
  first_lowest : ∀ j ∈ second :: rest, lower nodes first j = true
  /-- The second is the lowest of the others. -/
  second_lowest : ∀ j ∈ rest, lower nodes second j = true
  /-- The entry is the node over them. -/
  entry : arena[i] = internalNode nodes first second

/-- With two leaves or more, every entry behind the leaves was made by a turn of the loop (R221). -/
theorem built_turn (ht : treeOf freq = some t) (h2 : 2 ≤ symbolCount freq) {i : Fin 513}
    (hi : symbolCount freq ≤ i.val) (hcount : i.val < t.nodeCount.toNat) :
    ∃ nodes pool first second rest, TurnMakes freq t.node i nodes pool first second rest := by
  obtain ⟨-, -, hsize, -⟩ := treeOf_some ht
  have hstart := IsCollection.start (fun _ => leaves_children) (length_leaves_le freq)
  obtain ⟨turns, hloop⟩ : ∃ turns, treeNodes (leaves freq) =
      combineAll turns (leaves freq) (List.range (leaves freq).length) := by
    rw [← length_leaves] at h2
    match hl : leaves freq with
    | [] | [_] => simp [hl] at h2
    | l0 :: l1 :: rest => exact ⟨_, rfl⟩
  obtain ⟨nodes, nodes', pool, pool', hcoll, hturn, hlen, hpre⟩ :=
    hstart.combineAll_turn (length_leaves_le freq) (totalWeight_leaves_lt freq)
      (length_leaves freq ▸ hi) (hloop ▸ hsize ▸ hcount)
  rw [← hloop] at hpre
  obtain ⟨first, second, rest, hperm, hfirst, hsecond, rfl, -⟩ := combine_perm hcoll.nodup hturn
  refine ⟨nodes, pool, first, second, rest, hcoll, hlen, (List.prefix_append _ _).trans hpre, hperm,
    hfirst, hsecond, ?_⟩
  have hlast : i.val < (nodes ++ [internalNode nodes first second]).length := by simp [hlen]
  rw [← built_prefix_entry ht hpre hlast]
  simp [hlen]

namespace TurnMakes

variable {i : Fin 513} {nodes : List Node} {pool rest : List Nat} {first second : Nat}

theorem mem_first (h : TurnMakes freq t.node i nodes pool first second rest) : first ∈ pool :=
  (mem_pool_iff h.parts _).2 (.inl rfl)

theorem mem_second (h : TurnMakes freq t.node i nodes pool first second rest) : second ∈ pool :=
  (mem_pool_iff h.parts _).2 (.inr (.inl rfl))

theorem lt_of_mem (h : TurnMakes freq t.node i nodes pool first second rest) {j : Nat}
    (hj : j ∈ pool) : j < i.val := h.length_eq ▸ h.collection.lt_length hj

/-- The entry's children are the two nodes removed, as numbers. -/
theorem toNat_children (h : TurnMakes freq t.node i nodes pool first second rest) :
    t.node[i].zero.toNat = first ∧ t.node[i].one.toNat = second := by
  rw [h.entry]
  exact ⟨h.collection.toNat_child (length_leaves_le freq) h.mem_first,
    h.collection.toNat_child (length_leaves_le freq) h.mem_second⟩

theorem weight_entry (h : TurnMakes freq t.node i nodes pool first second rest)
    (ht : treeOf freq = some t) {j : Fin 513} (hj : j.val ∈ pool) :
    weightAt nodes j.val = t.node[j].weight :=
  built_prefix_weight ht h.kept (h.collection.lt_length hj)

theorem toNat_weight (h : TurnMakes freq t.node i nodes pool first second rest) :
    t.node[i].weight.toNat = (weightAt nodes first).toNat + (weightAt nodes second).toNat := by
  rw [h.entry]
  exact h.collection.toNat_weight_add h.parts (totalWeight_leaves_lt freq)

/-- The collection P, read off the arena. -/
theorem inPool_iff (h : TurnMakes freq t.node i nodes pool first second rest)
    (ht : treeOf freq = some t) (j : Fin 513) : InPool t.node i j ↔ j.val ∈ pool := by
  have hchild : IsChild nodes j.val ↔ ∃ k : Fin 513, k.val < i.val ∧
      (t.node[k].zero.toNat = j.val ∨ t.node[k].one.toNat = j.val) := by
    constructor
    · rintro ⟨e, he, hj⟩
      obtain ⟨k, hk, rfl⟩ := List.getElem_of_mem he
      have hki : k < i.val := h.length_eq ▸ hk
      rw [built_prefix_entry ht h.kept (k := ⟨k, hki.trans i.isLt⟩) hk] at hj
      exact ⟨_, hki, hj⟩
    · rintro ⟨k, hk, hj⟩
      have hkl : k.val < nodes.length := h.length_eq.symm ▸ hk
      rw [← built_prefix_entry ht h.kept hkl] at hj
      exact ⟨_, List.getElem_mem hkl, hj⟩
  rw [h.collection.mem_iff, hchild, h.length_eq]
  simp [InPool]

/-- The order of R220, read off the arena. -/
theorem lowerEntry (h : TurnMakes freq t.node i nodes pool first second rest)
    (ht : treeOf freq = some t) {j k : Fin 513} (hj : j.val ∈ pool) (hk : k.val ∈ pool)
    (hlow : lower nodes j.val k.val = true) : LowerEntry t.node j k := by
  rw [lower_iff, h.weight_entry ht hj, h.weight_entry ht hk, BitVec.lt_def,
    ← BitVec.toNat_inj] at hlow
  exact hlow

end TurnMakes

/-- The root's weight is the leaves' (R228 item 3): the last turn has the last two nodes of P. -/
theorem built_root_weight (ht : treeOf freq = some t) {r : Fin 513} (hr : r.val = t.root.toNat) :
    t.node[r].weight.toNat = totalWeight (leaves freq) := by
  obtain ⟨hpos, hcount, hroot⟩ := built_size ht
  by_cases h1 : symbolCount freq = 1
  · rw [if_pos h1] at hcount
    obtain ⟨hwrap, hweight⟩ := built_wrapper ht h1 (i := r) (by omega) (by omega)
    rw [hwrap]
    exact hweight
  · rw [if_neg h1] at hcount
    obtain ⟨nodes, pool, first, second, rest, h⟩ :=
      built_turn ht (by omega) (i := r) (by omega) (by omega)
    have hlen := h.collection.count
    rw [h.length_eq, h.parts.length_eq, length_leaves, List.length_cons, List.length_cons] at hlen
    obtain rfl : rest = [] := List.eq_nil_of_length_eq_zero (by omega)
    rw [h.toNat_weight, ← h.collection.weight_parts h.parts]
    rfl

end Sys2Proof.Machine

open Sys2Proof Sys2Proof.Machine

/-- Settles O58: the collection P read off the arena is the pool of the turn that made the entry. -/
theorem treeJoinsTwoLowest : Obligations.TreeJoinsTwoLowest := by
  unfold Obligations.TreeJoinsTwoLowest
  intro freq t ht h2 i hi hint
  have hge := built_internal_ge ht hi hint
  rw [length_leaves] at hge
  obtain ⟨nodes, pool, first, second, rest, h⟩ := built_turn ht h2 hge hi
  obtain ⟨hzero, hone⟩ := h.toNat_children
  obtain ⟨hne, -⟩ := nodup_parts h.parts h.collection.nodup
  have hf := h.mem_first
  have hs := h.mem_second
  have bound {j : Nat} (hj : j ∈ pool) : j < 513 := (h.lt_of_mem hj).trans i.isLt
  refine ⟨⟨first, bound hf⟩, ⟨second, bound hs⟩, hzero, hone, (h.inPool_iff ht _).2 hf,
    (h.inPool_iff ht _).2 hs, fun heq => hne (congrArg Fin.val heq).symm, fun j hj hjz => ?_,
    fun j hj hjz hjo => ?_⟩
  · have hp := (h.inPool_iff ht j).1 hj
    have hothers := ((mem_pool_iff h.parts j.val).1 hp).resolve_left fun heq => hjz (Fin.ext heq)
    exact h.lowerEntry ht hf hp (h.first_lowest _ (List.mem_cons.2 hothers))
  · have hp := (h.inPool_iff ht j).1 hj
    have hothers := ((mem_pool_iff h.parts j.val).1 hp).resolve_left fun heq => hjz (Fin.ext heq)
    exact h.lowerEntry ht hs hp (h.second_lowest _ (hothers.resolve_left fun heq => hjo (Fin.ext heq)))

/-- Settles O23: each stretch of the arena by its own lemma, the internal entries by the turn that made
each, or the wrapper. -/
theorem builtTreeShape : Obligations.BuiltTreeShape := by
  unfold Obligations.BuiltTreeShape
  intro freq t ht n
  refine ⟨built_size ht, fun i hi => ?_, fun i j => built_leaf_ascending ht, fun e he => ?_,
    fun i hi hcount => ?_, fun r hr => ?_, fun i => built_unused ht⟩
  · obtain ⟨e, he, hnode⟩ := built_leaf_eq ht hi
    rw [hnode]
    exact ⟨rfl, rfl, rfl, e, toNat_leafNode_sym _ _, he, toNat_leafNode_weight _ _⟩
  · obtain ⟨i, hi, hnode⟩ := built_leaf_of_symbol ht he
    exact ⟨i, hi, by rw [hnode]; exact toNat_leafNode_sym _ _⟩
  · obtain ⟨hpos, -⟩ := built_size ht
    by_cases h1 : symbolCount freq = 1
    · obtain ⟨hwrap, -⟩ := built_wrapper ht h1 (hpos.trans hi) hcount
      rw [hwrap]
      exact ⟨rfl, rfl, 0, rfl, hpos.trans hi, .inl ⟨h1, rfl, rfl⟩⟩
    · have h2 : 2 ≤ symbolCount freq := by omega
      obtain ⟨nodes, pool, first, second, rest, h⟩ := built_turn ht h2 hi hcount
      obtain ⟨hzero, hone⟩ := h.toNat_children
      obtain ⟨hne, -⟩ := nodup_parts h.parts h.collection.nodup
      have hf := h.lt_of_mem h.mem_first
      have hs := h.lt_of_mem h.mem_second
      refine ⟨by rw [h.entry]; rfl, by rw [h.entry]; rfl, ⟨first, hf.trans i.isLt⟩, hzero, hf,
        .inr ⟨h2, ⟨second, hs.trans i.isLt⟩, hone, hs, fun heq => hne (congrArg Fin.val heq).symm,
          ?_⟩⟩
      rw [h.toNat_weight, ← h.weight_entry ht (j := ⟨first, hf.trans i.isLt⟩) h.mem_first,
        ← h.weight_entry ht (j := ⟨second, hs.trans i.isLt⟩) h.mem_second]
  · rw [built_root_weight ht hr, totalWeight_leaves]
end

section
/-! SUPPORT. The core steps of GEN_CODES, CODE_LEN and CODE_BITS (43_codes.md R251, R253, R254). -/

namespace Sys2Proof.Machine

variable {s : State}

theorem exec_genCodes {c : CodeTable} (hopen : noneOpen s = true) (htree : s.treeValid = true)
    (hc : codesOf s.node s.root = .ok c) :
    exec .genCodes s =
      .next { s with codeLen := c.len, code := c.code, codesValid := true, busy := false } := by
  have hphase : phaseOk .genCodes s = true := by simp [phaseOk, htree, hopen]
  have heffect : genCodes s =
      .ok ({ s with codeLen := c.len, code := c.code, codesValid := true }, []) := by
    simp [genCodes, hc]
  exact exec_quiet (i := .genCodes) ((if_pos hphase).trans heffect)

/-- Zero extension puts a length below 23 zero bits (R11). -/
theorem zeroExtend_length (n : BitVec 9) : n.zeroExtend 32 = 0#23 ++ n := by
  apply BitVec.eq_of_toNat_eq
  have hn : n.toNat < 2 ^ 32 := n.isLt.trans (by decide)
  rw [toNat_concat]
  simpa using hn

theorem exec_codeLen {a : BitVec 9} {e : Fin 257} (ha : a.toNat = e.val)
    (hcodes : s.codesValid = true) :
    exec (.codeLen a) s = .next { s with result := s.codeLen[e].zeroExtend 32, busy := false } :=
  exec_quiet (s' := writeResult (s.codeLen[e].zeroExtend 32) s)
    ((checkedSym_of_val (i := .codeLen a) ha).trans (if_pos hcodes))

theorem exec_codeBits {a : BitVec 9} {e : Fin 257} (ha : a.toNat = e.val)
    (hcodes : s.codesValid = true) (k : BitVec 3) :
    exec (.codeBits a k) s = .next { s with result := codeChunk (codeOf s e) k, busy := false } :=
  exec_quiet (s' := writeResult (codeChunk (codeOf s e) k) s)
    ((checkedSym_of_val (i := .codeBits a k) ha).trans (if_pos hcodes))

/-- A chunk holds 32 code bits from its top bit down, zeros past the code's end (R92, R254). -/
theorem getLsbD_codeChunk (code : Bits) (k : BitVec 3) {j : Nat} (hj : j < 32) :
    (codeChunk code k).getLsbD (31 - j) = code.getD (32 * k.toNat + j) false := by
  have hfit : ((code.drop (32 * k.toNat)).take 32).length ≤ 32 := by simp
  have hbit : (codeChunk code k).getLsbD (31 - j) = (codeChunk code k).getMsbD j := by
    simp [BitVec.getMsbD_eq_getLsbD, hj]
  rw [hbit, codeChunk, getMsbD_packMsb hfit]
  simp [List.getD_eq_getElem?_getD, hj]

/-- The symbols of the leaves of a built tree are those with a count (R228 item 2). -/
theorem built_leaf_symbol_iff {freq : Vector Word 257} {t : BuiltTree} (ht : treeOf freq = some t)
    (e : Fin 257) :
    (∃ i : Fin 513, i.val < t.nodeCount.toNat ∧ t.node[i].leaf = true ∧
      t.node[i].sym.toNat = e.val) ↔ freq[e] ≠ 0 := by
  constructor
  · rintro ⟨i, hi, hleaf, hsym⟩
    have hget := (built_forest ht).leaf_given _ _ (built_entry ht hi) hleaf
    obtain ⟨e', he', hnode⟩ := mem_leaves_iff.1 (List.mem_of_getElem? hget)
    rw [hnode, toNat_leafNode_sym] at hsym
    rwa [← Fin.ext hsym]
  · intro he
    obtain ⟨i, -, hnode⟩ := built_leaf_of_symbol ht he
    have hleaf : t.node[i].leaf = true := by rw [hnode]; rfl
    exact ⟨i, built_leaf_lt ht hleaf, hleaf, by rw [hnode]; exact toNat_leafNode_sym _ _⟩

end Sys2Proof.Machine

open Sys2Proof Sys2Proof.Machine

/-- Settles O25: with TREE_VALID the invariant says BUILD_TREE built the tree, and its walk completes. -/
theorem genCodesCompletes : Obligations.GenCodesCompletes := by
  unfold Obligations.GenCodesCompletes
  refine ⟨rfl, fun s hinv htree henc hdec => ?_, fun s herr hphase => ?_⟩
  · obtain ⟨c, hc⟩ := codesOf_completes (hinv.tree_is_built htree)
    exact ⟨_, exec_genCodes (noneOpen_iff.2 ⟨henc, hdec⟩) htree hc, hc, rfl⟩
  · refine exec_out_of_phase rfl herr ?_
    rw [phaseOk, Bool.and_eq_false_iff, noneOpen_eq_false_iff]
    exact hphase

/-- Settles O26: a code is the path the walk took to its symbol's leaf, and the leaves are those of the
symbols with a count. -/
theorem codesAreLeafPaths : Obligations.CodesAreLeafPaths := by
  unfold Obligations.CodesAreLeafPaths
  intro freq t ht
  obtain ⟨c, hc⟩ := codesOf_completes ht
  have leads {e : Fin 257} (he : c.len[e] ≠ 0) : LeadsToLeaf t.node t.root (c.bits e) e :=
    codesOf_leads hc (mt CodeTable.bits_eq_nil.1 he)
  refine ⟨c, hc, fun e => ⟨?_, (codesOf_padded hc e).1⟩, fun e he => leads he,
    fun e f hne he hf hpre => hne ((leads he).prefix_free (leads hf) hpre)⟩
  rw [built_code_iff ht hc, built_leaf_symbol_iff ht]

/-- Settles O28: a SYM in range selects its entry, and the range is checked before the phase. -/
theorem codeLenGivesLength : Obligations.CodeLenGivesLength := by
  unfold Obligations.CodeLenGivesLength
  refine ⟨fun a => rfl, fun a e s ha hcodes => ?_, fun a s ha herr => ?_,
    fun a s ha herr hcodes => ?_⟩
  · rw [exec_codeLen ha hcodes, zeroExtend_length]
  · exact exec_raise herr (checkedSym_out_of_range ha)
  · exact exec_out_of_phase (decide_eq_true ha) herr hcodes

/-- Settles O29: RESULT is a chunk of the code, first bit highest. -/
theorem codeBitsGivesChunk : Obligations.CodeBitsGivesChunk := by
  unfold Obligations.CodeBitsGivesChunk
  refine ⟨fun a k => rfl, fun a k e s ha hcodes => ?_, fun a k s ha herr => ?_,
    fun a k s ha herr hcodes => ?_⟩
  · exact ⟨_, exec_codeBits ha hcodes k, fun j hj => getLsbD_codeChunk _ k hj, rfl⟩
  · exact exec_raise herr (checkedSym_out_of_range ha)
  · exact exec_out_of_phase (decide_eq_true ha) herr hcodes
end

section
/-! SUPPORT. Why the codes of a built tree fill it (43_codes.md R252 item 4): no entry is the child of two, so
the walk comes to every leaf by one path, and each leaf takes a share of 2^(−length). -/

namespace Sys2Proof.Machine

/-! ## The shares of the codes -/

/-- The share of a code of this length, 2^(−length) scaled by 2^256; length 0 is no code (R252 item 4). -/
def codeShare (l : BitVec 9) : Nat := if l = 0 then 0 else 2 ^ (256 - l.toNat)

/-- The Kraft sum of a table: the shares of its codes together. -/
def CodeTable.kraft (c : CodeTable) : Nat := (c.len.toList.map codeShare).sum

section
variable {c : CodeTable} {s : Fin 257} {path : Bits}

theorem CodeTable.kraft_eq_sum (c : CodeTable) : c.kraft = ∑ s : Fin 257, codeShare c.len[s] := by
  have hlist : c.len.toList = List.ofFn fun s : Fin 257 => c.len[s] := by
    rw [← Vector.toList_ofFn]
    exact congrArg Vector.toList Vector.ofFn_getElem.symm
  rw [CodeTable.kraft, hlist, List.map_ofFn, List.sum_ofFn]
  rfl

theorem kraft_emptyCodes : emptyCodes.kraft = 0 := by
  rw [CodeTable.kraft_eq_sum]
  exact Finset.sum_eq_zero fun s _ => if_pos (CodeTable.bits_eq_nil.1 (emptyCodes_bits s))

theorem codeShare_length (hpath : path ≠ []) (hfit : path.length ≤ 256) :
    codeShare (BitVec.ofNat 9 path.length) = 2 ^ (256 - path.length) := by
  have hlen : (BitVec.ofNat 9 path.length).toNat = path.length := by
    rw [BitVec.toNat_ofNat]; omega
  have hne : BitVec.ofNat 9 path.length ≠ 0 := fun h0 => by
    rw [h0] at hlen
    exact hpath (List.length_eq_zero_iff.1 hlen.symm)
  rw [codeShare, if_neg hne, hlen]

/-- The first code recorded for a symbol adds its share. -/
theorem kraft_recordCode (hpath : path ≠ []) (hfit : path.length ≤ 256) (hs : c.bits s = []) :
    (recordCode s path c).kraft = c.kraft + 2 ^ (256 - path.length) := by
  have hentry (j : Fin 257) : codeShare (recordCode s path c).len[j] =
      codeShare c.len[j] + if j = s then 2 ^ (256 - path.length) else 0 := by
    rw [recordCode_len]
    by_cases hj : j = s
    · have hzero : codeShare c.len[s] = 0 := if_pos (CodeTable.bits_eq_nil.1 hs)
      rw [if_pos hj, if_pos hj, hj, hzero, codeShare_length hpath hfit, Nat.zero_add]
    · rw [if_neg hj, if_neg hj, Nat.add_zero]
  rw [CodeTable.kraft_eq_sum, CodeTable.kraft_eq_sum, Finset.sum_congr rfl fun j _ => hentry j,
    Finset.sum_add_distrib, Finset.sum_ite_eq' Finset.univ s, if_pos (Finset.mem_univ s)]

end

/-! ## One path to each entry -/

section
variable {arena : Vector Node 513} {r x : BitVec 10} {path q : Bits} {b : Bool}

theorem followPath_concat_some (h : followPath arena r (path ++ [b]) = some x) :
    ∃ y e, followPath arena r path = some y ∧ nodeAt arena y = some e ∧ e.leaf = false ∧
      childOf e b = x := by
  rw [followPath_append, Option.bind_eq_some_iff] at h
  obtain ⟨y, hy, hbit⟩ := h
  obtain ⟨e, he, hleaf, -, hx⟩ := followPath_cons_some hbit
  exact ⟨y, e, hy, he, hleaf, Option.some.inj hx⟩

theorem followPath_concat {e : Node} (hp : followPath arena r path = some x)
    (he : nodeAt arena x = some e) (hleaf : e.leaf = false) (hchild : childOf e b ≠ nilIdx) :
    followPath arena r (path ++ [b]) = some (childOf e b) := by
  rw [followPath_append, hp]
  exact followPath_cons he hleaf hchild

/-- A path to an entry goes on to the leaves that entry leads to. -/
theorem LeadsToLeaf.after {s : Fin 257} (h : LeadsToLeaf arena x q s)
    (hp : followPath arena r path = some x) : LeadsToLeaf arena r (path ++ q) s := by
  obtain ⟨y, l, hq, hl⟩ := h
  exact ⟨y, l, by rw [followPath_append, hp]; exact hq, hl⟩

/-- An entry in the collection P is not yet a child (R221). -/
theorem childOf_ne_of_inPool {i k j : Fin 513} (h : InPool arena i j) (hk : k.val < i.val)
    (b : Bool) : (childOf arena[k] b).toNat ≠ j.val := by
  obtain ⟨hzero, hone⟩ := h.2 k hk
  cases b with
  | false => exact hzero
  | true => exact hone

end

section
variable {freq : Vector Word 257} {t : BuiltTree} {p q : Bits} {x : BitVec 10}

/-- Each bit of a path leads to a lower index (R221). -/
theorem built_path_lt (ht : treeOf freq = some t) {i : BitVec 10}
    (hi : i.toNat < t.nodeCount.toNat) (hp : followPath t.node i p = some x) :
    x.toNat + p.length ≤ i.toNat := by
  induction p generalizing i with
  | nil => obtain rfl : i = x := Option.some.inj hp; exact le_rfl
  | cons b p ih =>
    obtain ⟨e, he, hleaf, hchild, hrest⟩ := followPath_cons_some hp
    obtain ⟨k, hk, rfl⟩ := nodeAt_some he
    have hlt := built_child_lt ht (hk ▸ hi) hleaf hchild
    have := ih (by omega) hrest
    rw [List.length_cons]
    omega

/-- A path from the root leads to an entry of the tree. -/
theorem built_path_entry (ht : treeOf freq = some t) (hp : followPath t.node t.root p = some x) :
    x ≠ nilIdx ∧ ∃ k : Fin 513, x.toNat = k.val ∧ k.val < t.nodeCount.toNat ∧
      nodeAt t.node x = some t.node[k] := by
  obtain ⟨hroot, -⟩ := built_root_fits ht
  have hle := built_path_lt ht hroot hp
  have hx : x.toNat < t.nodeCount.toNat := by omega
  obtain ⟨hne, k, hk, he⟩ := built_nodeAt ht hx
  exact ⟨hne, k, hk, hk ▸ hx, he⟩

section
variable {i k : Fin 513} (ht : treeOf freq = some t) (h2 : 2 ≤ symbolCount freq)
  (hi : i.val < t.nodeCount.toNat) (hleaf : t.node[i].leaf = false)
include ht h2 hi hleaf

/-- Over two symbols or more an internal entry has both children, each from the collection P. -/
theorem built_child_inPool (b : Bool) :
    ∃ j : Fin 513, (childOf t.node[i] b).toNat = j.val ∧ InPool t.node i j := by
  obtain ⟨z, o, hz, ho, hpz, hpo, -⟩ := treeJoinsTwoLowest freq t ht h2 i hi hleaf
  cases b with
  | false => exact ⟨z, hz, hpz⟩
  | true => exact ⟨o, ho, hpo⟩

theorem built_child_ne_nil (b : Bool) : childOf t.node[i] b ≠ nilIdx := by
  obtain ⟨j, hj, -⟩ := built_child_inPool ht h2 hi hleaf b
  have hnil : nilIdx.toNat = 1023 := rfl
  intro h
  rw [h] at hj
  omega

theorem built_children_ne : t.node[i].zero ≠ t.node[i].one := by
  obtain ⟨z, o, hz, ho, -, -, hne, -⟩ := treeJoinsTwoLowest freq t ht h2 i hi hleaf
  exact fun h => hne (Fin.ext (ho.symm.trans ((congrArg BitVec.toNat h).symm.trans hz)))

/-- No entry is a child of two others: when the second was made, it had left the collection P. -/
theorem built_child_of_later (hik : k.val < i.val) (a b : Bool) :
    childOf t.node[k] a ≠ childOf t.node[i] b := by
  obtain ⟨j, hj, hpool⟩ := built_child_inPool ht h2 hi hleaf b
  exact fun h => childOf_ne_of_inPool hpool hik a (h ▸ hj)

/-- No entry is a child twice (R221). -/
theorem built_child_inj (hk : k.val < t.nodeCount.toNat) (hkleaf : t.node[k].leaf = false)
    {a b : Bool} (h : childOf t.node[k] a = childOf t.node[i] b) : k = i ∧ a = b := by
  rcases Nat.lt_trichotomy k.val i.val with hlt | heq | hgt
  · exact absurd h (built_child_of_later ht h2 hi hleaf hlt a b)
  · obtain rfl := Fin.ext heq
    have hne := built_children_ne ht h2 hi hleaf
    cases a <;> cases b
    · exact ⟨rfl, rfl⟩
    · exact absurd h hne
    · exact absurd h.symm hne
    · exact ⟨rfl, rfl⟩
  · exact absurd h.symm (built_child_of_later ht h2 hk hkleaf hgt b a)

end

/-- One path leads from the root to an entry. -/
theorem built_path_unique (ht : treeOf freq = some t) (h2 : 2 ≤ symbolCount freq)
    (hp : followPath t.node t.root p = some x) (hq : followPath t.node t.root q = some x) :
    p = q := by
  obtain ⟨hroot, -⟩ := built_root_fits ht
  induction p using List.reverseRecOn generalizing q x with
  | nil =>
    obtain rfl : t.root = x := Option.some.inj hp
    have := built_path_lt ht hroot hq
    exact (List.length_eq_zero_iff.1 (by omega)).symm
  | append_singleton p b ih =>
    obtain rfl | ⟨q, b', rfl⟩ := List.eq_nil_or_concat' q
    · obtain rfl : t.root = x := Option.some.inj hq
      have := built_path_lt ht hroot hp
      rw [List.length_append, List.length_singleton] at this
      omega
    · obtain ⟨y, e, hy, he, hleaf, hchild⟩ := followPath_concat_some hp
      obtain ⟨y', e', hy', he', hleaf', hchild'⟩ := followPath_concat_some hq
      obtain ⟨-, k, hk, hlt, hnode⟩ := built_path_entry ht hy
      obtain ⟨-, k', hk', hlt', hnode'⟩ := built_path_entry ht hy'
      obtain rfl : e = t.node[k] := Option.some.inj (he.symm.trans hnode)
      obtain rfl : e' = t.node[k'] := Option.some.inj (he'.symm.trans hnode')
      obtain ⟨rfl, rfl⟩ := built_child_inj ht h2 hlt' hleaf' hlt hleaf (hchild.trans hchild'.symm)
      obtain rfl : y = y' := BitVec.eq_of_toNat_eq (hk.trans hk'.symm)
      rw [ih hy hy']

/-- One path leads from the root to the leaf of a symbol (R252). -/
theorem built_leaf_path_unique (ht : treeOf freq = some t) (h2 : 2 ≤ symbolCount freq)
    {s : Fin 257} (hp : LeadsToLeaf t.node t.root p s) (hq : LeadsToLeaf t.node t.root q s) :
    p = q := by
  obtain ⟨x, l, hpx, hl, hleaf, hsym⟩ := hp
  obtain ⟨y, m, hqy, hm, hmleaf, hmsym⟩ := hq
  obtain ⟨i, hi, rfl⟩ := nodeAt_some hl
  obtain ⟨j, hj, rfl⟩ := nodeAt_some hm
  obtain rfl := built_leaf_unique ht (built_leaf_lt ht hleaf) (built_leaf_lt ht hmleaf) hleaf hmleaf
    (BitVec.eq_of_toNat_eq (hsym.trans hmsym.symm))
  obtain rfl : x = y := BitVec.eq_of_toNat_eq (hi.trans hj.symm)
  exact built_path_unique ht h2 hpx hqy

end

/-! ## The walk adds the share of its path -/

section
variable {freq : Vector Word 257} {t : BuiltTree} {depth : Nat} {i : BitVec 10} {path : Bits}
  {c c' : CodeTable}

/-- Over two symbols or more, the codes a walk records fill the share of the path it came by, when no
symbol it comes to has a code yet. -/
theorem kraft_walk (ht : treeOf freq = some t) (h2 : 2 ≤ symbolCount freq)
    (hp : followPath t.node t.root path = some i) (h : walk t.node depth i path c = .ok c')
    (hd : path.length + depth ≤ 257)
    (hfresh : ∀ q s, LeadsToLeaf t.node i q s → c.bits s = []) :
    c'.kraft = c.kraft + 2 ^ (256 - path.length) := by
  induction depth generalizing i path c c' with
  | zero => cases h
  | succ depth ih =>
    obtain ⟨hi, k, -, hk, hnode⟩ := built_path_entry ht hp
    obtain ⟨e, he, hcase⟩ := walk_cases h hi
    obtain rfl : e = t.node[k] := Option.some.inj (he.symm.trans hnode)
    obtain ⟨hleaf, s, hs, rfl⟩ | ⟨hleaf, c1, h0, h1⟩ := hcase
    · have hpath : path ≠ [] := by
        rintro rfl
        obtain rfl : t.root = i := Option.some.inj hp
        obtain ⟨r, hr, hint, -⟩ := treeOf_root ht
        obtain rfl : r = t.node[k] := Option.some.inj (hr.symm.trans he)
        rw [hint] at hleaf
        cases hleaf
      exact kraft_recordCode hpath (by omega) (hfresh [] s ⟨i, _, rfl, he, hleaf, hs⟩)
    · have hchild := built_child_ne_nil ht h2 hk hleaf
      have hstep (b : Bool) : followPath t.node t.root (path ++ [b]) = some (childOf t.node[k] b) :=
        followPath_concat hp he hleaf (hchild b)
      have hlen (b : Bool) : (path ++ [b]).length = path.length + 1 := List.length_append
      have hdepth : depth ≠ 0 := by rintro rfl; cases h0
      have hkeep : ∀ q s, LeadsToLeaf t.node (childOf t.node[k] true) q s → c1.bits s = [] := by
        intro q s hq
        obtain hsame | ⟨-, q', -, hq'⟩ := walk_records h0 (by rw [hlen]; omega) s
        · rw [hsame]
          exact hfresh _ s (hq.cons he hleaf (hchild true))
        · have := built_leaf_path_unique ht h2 (hq.after (hstep true)) (hq'.after (hstep false))
          simp at this
      have hzero := ih (hstep false) h0 (by rw [hlen]; omega) fun q s hq =>
        hfresh _ s (hq.cons he hleaf (hchild false))
      have hone := ih (hstep true) h1 (by rw [hlen]; omega) hkeep
      have hhalf : 256 - path.length = 256 - (path.length + 1) + 1 := by omega
      rw [hone, hzero, hlen, hlen, hhalf, Nat.pow_succ]
      omega

/-- Over two symbols or more the codes fill the whole (R252 item 4). -/
theorem kraft_codesOf (ht : treeOf freq = some t) (h2 : 2 ≤ symbolCount freq)
    (hc : codesOf t.node t.root = .ok c) : c.kraft = 2 ^ 256 := by
  rw [kraft_walk ht h2 (path := []) rfl hc (by simp) fun _ s _ => emptyCodes_bits s,
    kraft_emptyCodes, Nat.zero_add]
  rfl

/-- Over one symbol the only code is 0, the path from the wrapper to its zero-child (R223, R252). -/
theorem codesOf_wrapper (ht : treeOf freq = some t) (h1 : symbolCount freq = 1)
    (hc : codesOf t.node t.root = .ok c) : ∃ s : Fin 257, c = recordCode s [false] emptyCodes := by
  obtain ⟨-, hcount, hroot⟩ := built_size ht
  rw [if_pos h1] at hcount
  have hrt : t.root.toNat = (1 : Fin 513).val := by rw [hroot, hcount]; rfl
  obtain ⟨hnil, -⟩ := built_nodeAt ht (i := t.root) (by omega)
  obtain ⟨hwrap, -⟩ := built_wrapper ht h1 (i := 1) le_rfl (by rw [hcount]; decide)
  have hrnode := nodeAt_of_val t.node hrt
  obtain ⟨s, -, hleaf⟩ := built_leaf_eq ht (i := 0) (by rw [h1]; decide)
  have hzero : walk t.node 256 (childOf t.node[(1 : Fin 513)] false) [false] emptyCodes =
      .ok (recordCode s [false] emptyCodes) := by
    rw [hwrap]
    refine walk_leaf (by decide) (nodeAt_of_val t.node (a := 0) (e := 0) rfl) ?_ ?_
    · rw [hleaf]; rfl
    · rw [hleaf]; exact toNat_leafNode_sym _ _
  rw [codesOf, walk_internal hnil hrnode (by rw [hwrap]; rfl) hzero, hwrap] at hc
  exact ⟨s, walk_nil hc⟩

end

end Sys2Proof.Machine

open Sys2Proof Sys2Proof.Machine

/-- Settles O27: over two symbols or more the walk halves the share at each entry, so the leaves share the
whole; over one the code 0 has half. -/
theorem codeLengthsFillTree : Obligations.CodeLengthsFillTree := by
  unfold Obligations.CodeLengthsFillTree
  intro freq t c ht hc
  show c.kraft = _
  obtain ⟨hpos, -⟩ := built_size ht
  by_cases h1 : symbolCount freq = 1
  · obtain ⟨s, rfl⟩ := codesOf_wrapper ht h1 hc
    rw [if_pos h1, kraft_recordCode (by simp) (by simp) (emptyCodes_bits s), kraft_emptyCodes,
      Nat.zero_add]
    rfl
  · rw [if_neg h1, kraft_codesOf ht (by omega) hc]
end

section
/-! SUPPORT. The core steps of ENC_BEGIN, ENC_BYTE and ENC_FINISH (44_encoder.md R281 to R283): the bytes the
packer gives, as R89 packs them, and each command's next state. -/

namespace Sys2Proof.Machine

/-! ## The packer's bytes -/

section
variable {out : List Byte} {p q rest pad : Bits}

/-- Zeros after a bitstring's end read as its absent bits do. -/
theorem getD_append_zeros (hpad : ∀ b ∈ pad, b = false) (i : Nat) :
    (p ++ pad).getD i false = p.getD i false := by
  by_cases hi : i < p.length
  · exact List.getD_append _ _ _ _ hi
  · rw [List.getD_append_right _ _ _ _ (by omega), List.getD_eq_default p _ (by omega)]
    by_cases hi' : i - p.length < pad.length
    · rw [List.getD_eq_getElem _ _ hi']
      exact hpad _ (List.getElem_mem hi')
    · exact List.getD_eq_default _ _ (by omega)

/-- Bytes whose bits run on as the bitstring does, zeros after its end, pack it (R89). -/
theorem packs_of_bits (h : bitsOfBytes out ++ rest = p ++ pad) (hpad : ∀ b ∈ pad, b = false) :
    Packs out p := by
  intro i hi
  calc (out.getD (i / 8) 0).getMsbD (i % 8)
      = (bitsOfBytes out).getD i false := by rw [getD_bitsOfBytes, decide_eq_true hi, Bool.true_and]
    _ = (bitsOfBytes out ++ rest).getD i false := (List.getD_append _ _ _ _ (by simpa using hi)).symm
    _ = (p ++ pad).getD i false := by rw [h]
    _ = p.getD i false := getD_append_zeros hpad i

/-- put_bits pushes the whole bytes of the pending and the new bits, and the rest stays pending (R280). -/
theorem putBits_packs (hq : q.length < 8) (p : Bits) :
    (putBits { pend := q, out := [] } p).out.length = (q ++ p).length / 8 ∧
      Packs (putBits { pend := q, out := [] } p).out (q ++ p) ∧
      (putBits { pend := q, out := [] } p).pend = (q ++ p).drop (8 * ((q ++ p).length / 8)) := by
  obtain ⟨hlen, hbits, hpend⟩ := putBits_from_empty p q hq
  refine ⟨hlen, packs_of_bits (rest := (q ++ p).drop (8 * ((q ++ p).length / 8))) (pad := []) ?_ (by simp),
    hpend⟩
  rw [hbits, List.take_append_drop, List.append_nil]

/-- With the flush every bit is pushed, the last byte padded with zeros (R280). -/
theorem flush_putBits_packs (hq : q.length < 8) (p : Bits) :
    (flush (putBits { pend := q, out := [] } p)).out.length = ((q ++ p).length + 7) / 8 ∧
      Packs (flush (putBits { pend := q, out := [] } p)).out (q ++ p) ∧
      (flush (putBits { pend := q, out := [] } p)).pend = [] := by
  obtain ⟨hlt, o, hout, hbits⟩ := putBits_spec p { pend := q, out := [] } hq
  obtain ⟨hpend, hlen, pad, hpad, hflush⟩ := flush_spec _ hlt
  obtain rfl := (hout.trans (List.nil_append o)).symm
  change _ = q ++ p at hbits
  rw [hbits] at hflush
  refine ⟨?_, packs_of_bits (rest := []) ((List.append_nil _).trans hflush) hpad, hpend⟩
  have hsum := congrArg List.length hbits
  rw [List.length_append, length_bitsOfBytes] at hsum
  rw [hlen]
  split
  next hnone => rw [hnone, List.length_nil] at hsum; omega
  next hsome => have := List.length_pos_of_ne_nil hsome; omega

end

/-! ## The core steps -/

variable {i : Instr} {s s' : State} {b : Byte} {out : List Byte}

/-- A command whose bytes fit completes (R161). -/
theorem exec_commit (h : effectOf i s = .ok (s', out)) (hfit : out.length ≤ room s) :
    exec i s = .next { s' with outFifo := s'.outFifo ++ out, busy := false } := by
  rw [exec_eq_finish, h, finish_commit hfit]

/-- A command whose bytes do not fit is held (R163). -/
theorem exec_hold (h : effectOf i s = .ok (s', out)) (hfull : room s < out.length) :
    exec i s = .next s := by
  rw [exec_eq_finish, h, finish_hold hfull]

/-- ENC_BEGIN's phase condition fails in one of R281's three ways. -/
theorem phaseOk_encBegin_eq_false_iff : phaseOk .encBegin s = false ↔
    s.codesValid = false ∨ s.encActive = true ∨ s.decState ≠ .idle := by
  rw [phaseOk, Bool.and_eq_false_iff, noneOpen_eq_false_iff]

theorem exec_encBegin (hcodes : s.codesValid = true) (hopen : noneOpen s = true) :
    exec .encBegin s =
      .next { setEncPend [] s with bitcnt := 0, encActive := true, busy := false } := by
  have hphase : phaseOk .encBegin s = true := Bool.and_eq_true_iff.2 ⟨hcodes, hopen⟩
  exact exec_quiet (i := .encBegin) (if_pos hphase)

theorem length_codeOf (s : State) (e : Fin 257) : (codeOf s e).length = s.codeLen[e].toNat :=
  length_unpackMsb _ _

/-- The pending bits and a code together, at most 7 bits and the code's (R57). -/
theorem length_encPend_codeOf (s : State) (e : Fin 257) :
    (encPend s ++ codeOf s e).length = (encPend s).length + s.codeLen[e].toNat := by
  rw [List.length_append, length_codeOf]

/-- The packer after the code of a symbol is appended to the pending bits (R280). -/
def State.pack (s : State) (e : Fin 257) : Packer :=
  putBits { pend := encPend s, out := [] } (codeOf s e)

theorem State.pack_pend_lt (s : State) (e : Fin 257) : (s.pack e).pend.length < 8 :=
  (putBits_spec _ _ (length_encPend_lt s)).1

theorem State.pack_packs (s : State) (e : Fin 257) :
    (s.pack e).out.length = (encPend s ++ codeOf s e).length / 8 ∧
      Packs (s.pack e).out (encPend s ++ codeOf s e) ∧
      (s.pack e).pend =
        (encPend s ++ codeOf s e).drop (8 * ((encPend s ++ codeOf s e).length / 8)) :=
  putBits_packs (length_encPend_lt s) (codeOf s e)

theorem State.flush_pack_packs (s : State) (e : Fin 257) :
    (flush (s.pack e)).out.length = ((encPend s ++ codeOf s e).length + 7) / 8 ∧
      Packs (flush (s.pack e)).out (encPend s ++ codeOf s e) ∧ (flush (s.pack e)).pend = [] :=
  flush_putBits_packs (length_encPend_lt s) (codeOf s e)

/-- BITCNT after the code of a symbol is appended (R280). -/
def State.countCode (s : State) (e : Fin 257) : BitVec 64 :=
  s.bitcnt + BitVec.ofNat 64 (codeOf s e).length

theorem effectOf_encByte (henc : s.encActive = true) (hcode : s.codeLen[byteIndex b] ≠ 0) :
    effectOf (.encByte b) s =
      .ok (setEncPend (s.pack (byteIndex b)).pend { s with bitcnt := s.countCode (byteIndex b) },
        (s.pack (byteIndex b)).out) :=
  (if_pos henc).trans (if_neg hcode)

theorem effectOf_encFinish (henc : s.encActive = true) (hcode : s.codeLen[eofIndex] ≠ 0) :
    effectOf .encFinish s =
      .ok (setEncPend (flush (s.pack eofIndex)).pend
          { s with bitcnt := s.countCode eofIndex, encActive := false },
        (flush (s.pack eofIndex)).out) :=
  (if_pos henc).trans (if_neg hcode)

/-- A byte without a code raises PROTOCOL (R282). -/
theorem exec_encByte_without_code (henc : s.encActive = true) (herr : s.err = .noFault)
    (hcode : s.codeLen[byteIndex b] = 0) :
    exec (.encByte b) s = .next (faulted .protocol (b.zeroExtend 32) s) :=
  exec_raise herr ((if_pos henc).trans (if_pos hcode))

/-- Without a code for EOF, ENC_FINISH raises PROTOCOL (R283). -/
theorem exec_encFinish_without_code (henc : s.encActive = true) (herr : s.err = .noFault)
    (hcode : s.codeLen[eofIndex] = 0) :
    exec .encFinish s = .next (faulted .protocol 0x00000100 s) :=
  exec_raise herr ((if_pos henc).trans (if_pos hcode))

end Sys2Proof.Machine

open Sys2Proof Sys2Proof.Machine

/-- Settles O30: ENC_BEGIN's effect pushes nothing, and its phase condition is R281's. -/
theorem encBeginOpensEncode : Obligations.EncBeginOpensEncode := by
  unfold Obligations.EncBeginOpensEncode
  refine ⟨rfl, fun s hcodes henc hdec => ?_, fun s herr hphase => ?_⟩
  · exact ⟨_, exec_encBegin hcodes (noneOpen_iff.2 ⟨henc, hdec⟩), rfl, rfl⟩
  · exact exec_out_of_phase rfl herr (phaseOk_encBegin_eq_false_iff.2 hphase)

/-- Settles O31: the bytes are those of the packer, which fit or do not. -/
theorem encByteAppendsCode : Obligations.EncByteAppendsCode := by
  unfold Obligations.EncByteAppendsCode
  refine ⟨fun b => rfl, fun b s henc hcode hfit => ?_, fun b s henc hcode hfull => ?_,
    fun b s henc herr hcode => ?_, fun b s herr henc => exec_out_of_phase rfl herr henc⟩
  · obtain ⟨hlen, hpacks, hrest⟩ := s.pack_packs (byteIndex b)
    refine ⟨_, _, exec_commit (effectOf_encByte henc hcode) (hlen.trans_le hfit), hlen, hpacks,
      fun hshort => ?_, (encPend_setEncPend s (s.pack_pend_lt _)).trans hrest, ?_⟩
    · have hpend := length_encPend_lt s
      rw [hlen, length_encPend_codeOf]
      omega
    · rw [← length_codeOf]
      rfl
  · refine exec_hold (effectOf_encByte henc hcode) ?_
    rw [(s.pack_packs _).1, length_encPend_codeOf]
    exact hfull
  · rw [exec_encByte_without_code henc herr hcode, zeroExtend_byte]

/-- Settles O32: the bytes are those of the packer and its flush, which fit or do not. -/
theorem encFinishPadsAndCloses : Obligations.EncFinishPadsAndCloses := by
  unfold Obligations.EncFinishPadsAndCloses
  refine ⟨rfl, fun s henc hcode hfit => ?_, fun s henc hcode hfull => ?_,
    fun s henc herr hcode => exec_encFinish_without_code henc herr hcode,
    fun s herr henc => exec_out_of_phase rfl herr henc⟩
  · obtain ⟨hlen, hpacks, hnone⟩ := s.flush_pack_packs eofIndex
    refine ⟨_, _, exec_commit (effectOf_encFinish henc hcode) (hlen.trans_le hfit), hlen, hpacks,
      fun hshort => ?_, ?_, ?_⟩
    · have hpend := length_encPend_lt s
      rw [hlen, length_encPend_codeOf]
      omega
    · rw [hnone]
      rfl
    · rw [← length_codeOf]
      rfl
  · refine exec_hold (effectOf_encFinish henc hcode) ?_
    rw [(s.flush_pack_packs _).1, length_encPend_codeOf]
    exact hfull
end

section
/-! SUPPORT. The document's encode over a byte sequence (44_encoder.md R284): a run of ENC_BYTE commands is one
packer at work, whatever the host drains between them. -/

namespace Sys2Proof.Machine

/-! ## The packer and the bytes already pushed -/

/-- The packer of an encode just opened (R281). -/
def Packer.fresh : Packer := { pend := [], out := [] }

/-- The packer after the host took the bytes pushed before. -/
def Packer.drained (k : Packer) : Packer := { k with out := [] }

/-- The packer with further bytes pushed before its own. -/
def Packer.after (k : Packer) (popped : List Byte) : Packer := { k with out := popped ++ k.out }

theorem putBit_after (k : Packer) (b : Bool) (popped : List Byte) :
    putBit (k.after popped) b = (putBit k b).after popped := by
  by_cases h : k.pend.length + 1 = 8
  · simp [putBit, Packer.after, h]
  · simp [putBit, Packer.after, h]

theorem putBits_after (k : Packer) (p : Bits) (popped : List Byte) :
    putBits (k.after popped) p = (putBits k p).after popped := by
  induction p generalizing k with
  | nil => rfl
  | cons b p ih =>
    calc putBits (k.after popped) (b :: p)
        = putBits ((putBit k b).after popped) p := by rw [← putBit_after]; rfl
      _ = (putBits k (b :: p)).after popped := ih _

theorem flush_after (k : Packer) (popped : List Byte) :
    flush (k.after popped) = (flush k).after popped := by
  by_cases h : 0 < k.pend.length
  · simp [flush, Packer.after, h]
  · simp [flush, Packer.after, h]

theorem Packer.drained_after (k : Packer) : k.drained.after k.out = k := by
  simp [Packer.drained, Packer.after]

/-- What the packer pushes does not depend on what it has pushed. -/
theorem putBits_eq_after (k : Packer) (p : Bits) :
    putBits k p = (putBits k.drained p).after k.out := by
  rw [← putBits_after, k.drained_after]

theorem putBits_append (k : Packer) (p q : Bits) : putBits k (p ++ q) = putBits (putBits k p) q :=
  List.foldl_append

/-! ## The commands of an encode, the FIFO drained after each -/

theorem runDrained_cons {i : Instr} {rest : List Instr} {s t : State} {popped : List Byte}
    (h : exec i s = .next t) :
    runDrained (i :: rest) s popped =
      runDrained rest { t with outFifo := [] } (popped ++ t.outFifo) := by
  rw [runDrained, h]

/-- The state of an encode over s with these bits pending, n bits counted, and the FIFO drained; the encode
is open or just closed. -/
def State.encoding (s : State) (isOpen : Bool) (pend : Bits) (n : Nat) : State :=
  { setEncPend pend s with
    encActive := isOpen, bitcnt := BitVec.ofNat 64 n, outFifo := [], busy := false }

variable {s : State} {rest : List Instr} {popped : List Byte} {k : Packer} {n : Nat}

theorem encPend_encoding {isOpen : Bool} (hk : k.pend.length < 8) :
    encPend (s.encoding isOpen k.pend n) = k.pend := encPend_setEncPend s hk

theorem pack_encoding {isOpen : Bool} (hk : k.pend.length < 8) (e : Fin 257) :
    (s.encoding isOpen k.pend n).pack e = putBits k.drained (codeOf s e) := by
  rw [State.pack, encPend_encoding hk]
  rfl

theorem countCode_encoding (s : State) (isOpen : Bool) (pend : Bits) (n : Nat) (e : Fin 257) :
    (s.encoding isOpen pend n).countCode e = BitVec.ofNat 64 (n + (codeOf s e).length) :=
  (BitVec.ofNat_add _ _).symm

/-- ENC_BEGIN, the bytes left in the FIFO popped after it (R281). -/
theorem runDrained_encBegin (hcodes : s.codesValid = true) (hopen : noneOpen s = true) :
    runDrained (.encBegin :: rest) s [] =
      runDrained rest (s.encoding true Packer.fresh.pend 0) (s.outFifo ++ Packer.fresh.out) :=
  (runDrained_cons (exec_encBegin hcodes hopen)).trans
    (congrArg (runDrained rest _) (List.append_nil _).symm)

/-- The drained FIFO has room for the 33 bytes of the longest code (R8, R164). -/
theorem room_encoding (hinv : s.Inv) (isOpen : Bool) (pend : Bits) (n : Nat) :
    33 ≤ room (s.encoding isOpen pend n) := by
  have hdepth : 33 ≤ s.config.ofifoDepth.toNat := by simpa [Config.legal] using hinv.depth_legal
  exact hdepth

theorem length_codeOf_le (hinv : s.Inv) (e : Fin 257) : (codeOf s e).length ≤ 256 := by
  rw [length_codeOf]
  exact hinv.code_len_bound e

/-- A command that fits leaves an encode's state and its bytes, which the host pops. -/
theorem runDrained_encoding {i : Instr} {u : State} {isOpen : Bool} {k' : Packer} {n' : Nat}
    (h : exec i u = .next { s.encoding isOpen k'.pend n' with outFifo := k'.out }) :
    runDrained (i :: rest) u (popped ++ k.out) =
      runDrained rest (s.encoding isOpen (k'.after k.out).pend n')
        (popped ++ (k'.after k.out).out) := by
  rw [runDrained_cons h, List.append_assoc]
  rfl

/-- ENC_BYTE of a byte with a code appends the code (R282). -/
theorem exec_encByte_encoding (hinv : s.Inv) (hk : k.pend.length < 8) {b : Byte}
    (hcode : s.codeLen[byteIndex b] ≠ 0) :
    exec (.encByte b) (s.encoding true k.pend n) =
      .next { s.encoding true (putBits k.drained (codeOf s (byteIndex b))).pend
                (n + (codeOf s (byteIndex b)).length) with
              outFifo := (putBits k.drained (codeOf s (byteIndex b))).out } := by
  have heffect := effectOf_encByte (s := s.encoding true k.pend n) rfl hcode
  rw [pack_encoding hk, countCode_encoding] at heffect
  refine exec_commit heffect ?_
  have hroom := room_encoding hinv true k.pend n
  have hlen := length_codeOf_le hinv (byteIndex b)
  rw [Packer.drained, (putBits_packs hk _).1, List.length_append]
  omega

/-- ENC_FINISH appends EOF's code, flushes and closes the encode (R283). -/
theorem exec_encFinish_encoding (hinv : s.Inv) (hk : k.pend.length < 8)
    (hcode : s.codeLen[eofIndex] ≠ 0) :
    exec .encFinish (s.encoding true k.pend n) =
      .next { s.encoding false (flush (putBits k.drained (codeOf s eofIndex))).pend
                (n + (codeOf s eofIndex).length) with
              outFifo := (flush (putBits k.drained (codeOf s eofIndex))).out } := by
  have heffect := effectOf_encFinish (s := s.encoding true k.pend n) rfl hcode
  rw [pack_encoding hk, countCode_encoding] at heffect
  refine exec_commit heffect ?_
  have hroom := room_encoding hinv true k.pend n
  have hlen := length_codeOf_le hinv eofIndex
  rw [Packer.drained, (flush_putBits_packs hk _).1, List.length_append]
  omega

/-- ENC_BYTE moves the packer on over the byte's code (R282). -/
theorem runDrained_encByte (hinv : s.Inv) (hk : k.pend.length < 8) {b : Byte}
    (hcode : s.codeLen[byteIndex b] ≠ 0) :
    runDrained (.encByte b :: rest) (s.encoding true k.pend n) (popped ++ k.out) =
      runDrained rest
        (s.encoding true (putBits k (codeOf s (byteIndex b))).pend
          (n + (codeOf s (byteIndex b)).length))
        (popped ++ (putBits k (codeOf s (byteIndex b))).out) := by
  rw [putBits_eq_after k, runDrained_encoding (exec_encByte_encoding hinv hk hcode)]

/-- ENC_FINISH moves the packer on over EOF's code and flushes it (R283). -/
theorem runDrained_encFinish (hinv : s.Inv) (hk : k.pend.length < 8)
    (hcode : s.codeLen[eofIndex] ≠ 0) :
    runDrained [.encFinish] (s.encoding true k.pend n) (popped ++ k.out) =
      .next (s.encoding false (flush (putBits k (codeOf s eofIndex))).pend
          (n + (codeOf s eofIndex).length),
        popped ++ (flush (putBits k (codeOf s eofIndex))).out) := by
  rw [putBits_eq_after k, flush_after,
    runDrained_encoding (exec_encFinish_encoding hinv hk hcode), runDrained]

/-- A run of ENC_BYTE commands moves the packer on over the bytes' codes (R284). -/
theorem runDrained_encBytes (hinv : s.Inv) {bytes : List Byte} (hk : k.pend.length < 8)
    (hcodes : ∀ b ∈ bytes, s.codeLen[byteIndex b] ≠ 0) :
    runDrained (bytes.map .encByte ++ rest) (s.encoding true k.pend n) (popped ++ k.out) =
      runDrained rest
        (s.encoding true (putBits k (bytes.flatMap fun b => codeOf s (byteIndex b))).pend
          (n + (bytes.flatMap fun b => codeOf s (byteIndex b)).length))
        (popped ++ (putBits k (bytes.flatMap fun b => codeOf s (byteIndex b))).out) := by
  induction bytes generalizing k n with
  | nil => rfl
  | cons b bytes ih =>
    obtain ⟨hcode, hrest⟩ := List.forall_mem_cons.1 hcodes
    rw [List.map_cons, List.cons_append, runDrained_encByte hinv hk hcode,
      ih (putBits_spec _ k hk).1 hrest, List.flatMap_cons, putBits_append, List.length_append,
      Nat.add_assoc]

end Sys2Proof.Machine

open Sys2Proof Sys2Proof.Machine

/-- Settles O33: the sequence is one packer at work on the payload bits, from nothing pending to the flush. -/
theorem encodeSequencePacksCodes : Obligations.EncodeSequencePacksCodes := by
  unfold Obligations.EncodeSequencePacksCodes
  intro bytes s hinv hvalid henc hdec hcodes heof
  have hopen : noneOpen s = true := noneOpen_iff.2 ⟨henc, hdec⟩
  have hfresh : Packer.fresh.pend.length < 8 := by decide
  obtain ⟨hlen, hpacks, hnone⟩ := flush_putBits_packs hfresh (payloadBits s bytes)
  refine ⟨s.encoding false [] (payloadBits s bytes).length,
    (flush (putBits Packer.fresh (payloadBits s bytes))).out, ?_, hlen, hpacks, rfl,
    congrArg (s.encoding · [] (payloadBits s bytes).length) henc.symm⟩
  rw [List.cons_append, runDrained_encBegin hvalid hopen, runDrained_encBytes hinv hfresh hcodes,
    runDrained_encFinish hinv (putBits_spec _ _ hfresh).1 heof, ← putBits_append, Nat.zero_add,
    ← List.length_append]
  exact congrArg (fun p => Host.Outcome.next (s.encoding false p _, _)) hnone
end

section
/-! SUPPORT. The core steps of DEC_BEGIN, DEC_BYTE and DEC_END (45_decoder.md R310 to R315): what one bit does,
what the bits of a byte do, and each command's next state. -/

namespace Sys2Proof.Machine

/-! ## One bit (R310) -/

section
variable {arena : Vector Node 513} {root nxt : BitVec 10} {n : BitVec 3} {x : Bool} {w : TreeWalk}
  {here e : Node}

theorem takeBit_bad_path (hhere : nodeAt arena w.cur = some here) (hnil : childOf here x = nilIdx) :
    takeBit arena root n x w = .error (.raise .badPath (badPathInfo n w.cur)) := by
  simp [takeBit, hhere, hnil]

theorem takeBit_arrive (hhere : nodeAt arena w.cur = some here) (hchild : childOf here x ≠ nilIdx)
    (he : nodeAt arena (childOf here x) = some e) :
    takeBit arena root n x w = .ok (arrive root (childOf here x) e w) := by
  simp [takeBit, hhere, hchild, he]

theorem arrive_eof (hleaf : e.leaf = true) (hsym : e.sym = eofSym) :
    arrive root nxt e w = { w with bitcnt := w.bitcnt + 1, state := .eos, cur := root } := by
  rw [arrive, if_pos hleaf, if_pos hsym]

theorem arrive_byte (hleaf : e.leaf = true) (hsym : e.sym ≠ eofSym) :
    arrive root nxt e w =
      { w with bitcnt := w.bitcnt + 1, out := w.out ++ [BitVec.ofNat 8 e.sym.toNat], cur := root } := by
  have hbyte : e.sym.extractLsb' 0 8 = BitVec.ofNat 8 e.sym.toNat :=
    BitVec.eq_of_toNat_eq (by simp)
  rw [arrive, if_pos hleaf, if_neg hsym, hbyte]

theorem arrive_internal (hleaf : e.leaf = false) :
    arrive root nxt e w = { w with bitcnt := w.bitcnt + 1, cur := nxt } := by
  rw [arrive, if_neg (by simp [hleaf])]

end

/-! ## The bits of a byte (R312) -/

section
variable {arena : Vector Node 513} {root : BitVec 10} {n : BitVec 3} {x : Bool}
  {bits rest : List (BitVec 3 × Bool)} {w : TreeWalk}

/-- Once DEC_STATE is EOS no bit is taken (R313). -/
theorem takeBits_eos (h : w.state = .eos) : takeBits arena root bits w = .ok w := by
  cases bits with
  | nil => rfl
  | cons b rest => rw [takeBits, if_pos h]

/-- Before EOS the first bit is taken, and then the others. -/
theorem takeBits_cons (h : w.state ≠ .eos) :
    takeBits arena root ((n, x) :: rest) w =
      (takeBit arena root n x w).bind (takeBits arena root rest) := by
  rw [takeBits, if_neg h]
  cases takeBit arena root n x w <;> rfl

end

section
variable {freq : Vector Word 257} {t : BuiltTree} {w : TreeWalk}

/-- Over two symbols or more every bit leads from an internal entry to an entry (R310). -/
theorem takeBit_completes (ht : treeOf freq = some t) (h2 : 2 ≤ symbolCount freq)
    (hw : InternalAt t.node t.nodeCount w.cur) (n : BitVec 3) (x : Bool) :
    ∃ w', takeBit t.node t.root n x w = .ok w' := by
  obtain ⟨e, he, hleaf, hlt⟩ := hw
  obtain ⟨k, hk, rfl⟩ := nodeAt_some he
  rw [hk] at hlt
  have hchild := built_child_ne_nil ht h2 hlt hleaf x
  obtain ⟨-, j, -, hentry⟩ := built_nodeAt ht ((built_child_lt ht hlt hleaf hchild).trans hlt)
  exact ⟨_, takeBit_arrive he hchild hentry⟩

theorem takeBits_completes (ht : treeOf freq = some t) (h2 : 2 ≤ symbolCount freq)
    (hw : InternalAt t.node t.nodeCount w.cur) (bits : List (BitVec 3 × Bool)) :
    ∃ w', takeBits t.node t.root bits w = .ok w' := by
  induction bits generalizing w with
  | nil => exact ⟨w, rfl⟩
  | cons b rest ih =>
    by_cases heos : w.state = .eos
    · exact ⟨w, takeBits_eos heos⟩
    · obtain ⟨w1, h1⟩ := takeBit_completes ht h2 hw b.1 b.2
      rw [takeBits_cons heos, h1]
      exact ih (takeBit_internal ht hw h1)

end

/-! ## The core steps -/

variable {s : State} {y : Byte} {w : TreeWalk}

/-- DEC_BEGIN's phase condition fails in one of R311's three ways. -/
theorem phaseOk_decBegin_eq_false_iff : phaseOk .decBegin s = false ↔
    s.treeValid = false ∨ s.encActive = true ∨ s.decState ≠ .idle := by
  rw [phaseOk, Bool.and_eq_false_iff, noneOpen_eq_false_iff]

theorem exec_decBegin (htree : s.treeValid = true) (hopen : noneOpen s = true) :
    exec .decBegin s =
      .next { s with decCur := s.root, bitcnt := 0, decState := .run, busy := false } := by
  have hphase : phaseOk .decBegin s = true := Bool.and_eq_true_iff.2 ⟨htree, hopen⟩
  exact exec_quiet (i := .decBegin) (if_pos hphase)

/-- The state a DEC_BYTE writes from its walk (R312). -/
def State.withWalk (s : State) (w : TreeWalk) : State :=
  { s with decCur := w.cur, bitcnt := w.bitcnt, decState := w.state }

theorem walkStart_run (hrun : s.decState = .run) :
    walkStart s = { cur := s.decCur, bitcnt := s.bitcnt, state := .run, out := [] } := by
  rw [walkStart, hrun]

theorem effectOf_decByte (hopen : s.decState ≠ .idle)
    (hw : takeBits s.node s.root (operandBits y) (walkStart s) = .ok w) :
    effectOf (.decByte y) s = .ok (s.withWalk w, w.out) := by
  have heffect : decodeByte y s = .ok (s.withWalk w, w.out) := by
    simp only [decodeByte, hw, State.withWalk]
  exact (if_pos (decide_eq_true hopen)).trans heffect

theorem effectOf_decByte_error {a : Abort} (hopen : s.decState ≠ .idle)
    (hw : takeBits s.node s.root (operandBits y) (walkStart s) = .error a) :
    effectOf (.decByte y) s = .error a := by
  have heffect : decodeByte y s = .error a := by simp only [decodeByte, hw]
  exact (if_pos (decide_eq_true hopen)).trans heffect

/-- In EOS DEC_BYTE only ends (R313). -/
theorem exec_decByte_eos (heos : s.decState = .eos) (y : Byte) :
    exec (.decByte y) s = .next { s with busy := false } := by
  have hopen : s.decState ≠ .idle := by simp [heos]
  exact exec_quiet (effectOf_decByte hopen (takeBits_eos (w := walkStart s) heos))

theorem exec_decEnd_eos (heos : s.decState = .eos) :
    exec .decEnd s = .next { s with decState := .idle, busy := false } := by
  have hopen : s.decState ≠ .idle := by simp [heos]
  have hrun : s.decState ≠ .run := by simp [heos]
  exact exec_quiet (i := .decEnd) ((if_pos (decide_eq_true hopen)).trans (if_neg hrun))

/-- A decode that has not come to EOF's leaf is truncated (R315). -/
theorem exec_decEnd_run (hrun : s.decState = .run) (herr : s.err = .noFault) :
    exec .decEnd s = .next (faulted .truncatedStream (s.decCur.zeroExtend 32) s) := by
  have hopen : s.decState ≠ .idle := by simp [hrun]
  exact exec_raise (i := .decEnd) herr ((if_pos (decide_eq_true hopen)).trans (if_pos hrun))

/-- Zero extension puts an arena index below 22 zero bits (R11). -/
theorem zeroExtend_index (i : BitVec 10) : i.zeroExtend 32 = 0#22 ++ i := by
  apply BitVec.eq_of_toNat_eq
  have hi : i.toNat < 2 ^ 32 := i.isLt.trans (by decide)
  rw [toNat_concat]
  simpa using hi

/-- With room for 8 bytes DEC_BYTE completes in RUN on a tree of two or more symbols: its cursor stands on an
internal entry, and no bit from one is BAD_PATH (R310, R312). -/
theorem exec_decByte_completes (hinv : s.Inv) (hrun : s.decState = .run)
    (hcount : 2 < s.nodeCount.toNat) (hroom : 8 ≤ room s) (y : Byte) :
    ∃ w, takeBits s.node s.root (operandBits y) (walkStart s) = .ok w ∧
      exec (.decByte y) s =
        .next { s.withWalk w with outFifo := s.outFifo ++ w.out, busy := false } := by
  have hopen : s.decState ≠ .idle := by simp [hrun]
  have ht := hinv.tree_is_built (hinv.dec_needs_tree hopen).1
  have h2 : 2 ≤ symbolCount s.freq := by
    obtain ⟨hpos, hsize, -⟩ := built_size ht
    by_contra hlt
    rw [if_pos (by omega)] at hsize
    exact absurd hsize hcount.ne'
  obtain ⟨w, hw⟩ := takeBits_completes (w := walkStart s) ht h2
    ((cursorOnInternal_iff s).1 (hinv.cursor_on_internal hopen)) (operandBits y)
  have heffect := effectOf_decByte hopen hw
  exact ⟨w, hw, exec_commit heffect ((effectOf_pushes hinv heffect).trans hroom)⟩

end Sys2Proof.Machine

open Sys2Proof Sys2Proof.Machine

/-- Settles O34: DEC_BEGIN's effect pushes nothing, and its phase condition is R311's. -/
theorem decBeginOpensDecode : Obligations.DecBeginOpensDecode := by
  unfold Obligations.DecBeginOpensDecode
  refine ⟨rfl, fun s htree henc hdec => ?_, fun s herr hphase => ?_⟩
  · exact exec_decBegin htree (noneOpen_iff.2 ⟨henc, hdec⟩)
  · exact exec_out_of_phase rfl herr (phaseOk_decBegin_eq_false_iff.2 hphase)

/-- Settles O35: the child is absent, or the cursor arrives at EOF's leaf, another leaf or an internal entry. -/
theorem takeBitWalksTree : Obligations.TakeBitWalksTree := by
  unfold Obligations.TakeBitWalksTree
  intro arena root n x w here hhere nxt
  refine ⟨takeBit_bad_path hhere, fun e hchild he hleaf hsym => ?_, fun e hchild he hleaf hsym => ?_,
    fun e hchild he hleaf => ?_⟩
  · rw [takeBit_arrive hhere hchild he, arrive_eof hleaf hsym]
  · rw [takeBit_arrive hhere hchild he, arrive_byte hleaf hsym]
  · rw [takeBit_arrive hhere hchild he, arrive_internal hleaf]
    rfl

/-- Settles O36: the command's effect is the walk over its operand's bits, whose bytes fit or do not. -/
theorem decByteTakesBitsInOrder : Obligations.DecByteTakesBitsInOrder := by
  unfold Obligations.DecByteTakesBitsInOrder
  have hopen {s : State} (hrun : s.decState = .run) : s.decState ≠ .idle := by simp [hrun]
  refine ⟨fun y => rfl, fun y s w hrun hw hfit => ?_, fun y s w hrun hw hfull => ?_,
    fun y s info hrun herr hw => ?_, fun y s herr hidle => ?_⟩
  · rw [← walkStart_run hrun] at hw
    exact exec_commit (effectOf_decByte (hopen hrun) hw) hfit
  · rw [← walkStart_run hrun] at hw
    exact exec_hold (effectOf_decByte (hopen hrun) hw) hfull
  · rw [← walkStart_run hrun] at hw
    exact exec_raise herr (effectOf_decByte_error (hopen hrun) hw)
  · exact exec_out_of_phase rfl herr (by simp [phaseOk, hidle])

/-- Settles O37: in EOS the walk takes no bit, and in RUN it meets no absent child. -/
theorem decByteCompletes : Obligations.DecByteCompletes := by
  unfold Obligations.DecByteCompletes
  refine ⟨fun y s heos => exec_decByte_eos heos y, fun y s hinv hrun hcount hroom => ?_⟩
  obtain ⟨w, hw, hexec⟩ := exec_decByte_completes hinv hrun hcount hroom y
  obtain ⟨taken, out, htaken, hbitcnt, hout, hlen, hstate, hall⟩ := takeBits_ok hw
  obtain rfl : w.out = out := hout
  have hopen : w.state = .run ∨ w.state = .eos := hstate.imp_left fun h => h.trans hrun
  refine ⟨_, w.out, taken, hexec, hlen, htaken, decOpen_iff.2 hopen, fun hr => hall ?_, ?_⟩
  · exact fun heos => DecState.noConfusion (hr.symm.trans heos)
  · have hbits : w.bitcnt = s.bitcnt + BitVec.ofNat 64 taken := hbitcnt
    rw [← hbits]
    rfl

/-- Settles O38: DEC_END looks only at DEC_STATE. -/
theorem decEndClosesOrTruncates : Obligations.DecEndClosesOrTruncates := by
  unfold Obligations.DecEndClosesOrTruncates
  refine ⟨rfl, fun s => exec_decEnd_eos, fun s hrun herr => ?_, fun s herr hidle => ?_⟩
  · rw [exec_decEnd_run hrun herr, zeroExtend_index]
  · exact exec_out_of_phase rfl herr (by simp [phaseOk, hidle])
end

section
/-! SUPPORT. Decoding a payload (45_decoder.md R313, R317): a code of the table takes the cursor from the root to
the leaf of its symbol, and a run of DEC_BYTE commands is one walk over the bits of the bytes fed, whatever the
host drains between them. -/

namespace Sys2Proof.Machine

/-! ## The walk over a code -/

section
variable {arena : Vector Node 513} {root : BitVec 10} {w : TreeWalk} {p : Bits} {e : Fin 257}
  {bits more : List (BitVec 3 × Bool)}

/-- The bits of two stretches are taken one stretch after the other. -/
theorem takeBits_append :
    takeBits arena root (bits ++ more) w =
      (takeBits arena root bits w).bind (takeBits arena root more) := by
  induction bits generalizing w with
  | nil => rfl
  | cons b bits ih =>
    by_cases heos : w.state = .eos
    · rw [takeBits_eos heos, takeBits_eos heos]
      exact (takeBits_eos heos).symm
    · rw [List.cons_append, takeBits_cons heos, takeBits_cons heos]
      cases takeBit arena root b.1 b.2 w with
      | error a => rfl
      | ok w1 => exact ih

/-- The walk after n bits that lead from its cursor to the leaf of a symbol (R310): EOF's sets EOS, a byte's
pushes the byte. -/
def TreeWalk.decoded (w : TreeWalk) (root : BitVec 10) (n : Nat) (e : Fin 257) : TreeWalk :=
  if e = eofIndex then
    { w with bitcnt := w.bitcnt + BitVec.ofNat 64 n, state := .eos, cur := root }
  else
    { w with bitcnt := w.bitcnt + BitVec.ofNat 64 n, out := w.out ++ [BitVec.ofNat 8 e.val], cur := root }

/-- The last bit of a code arrives at the leaf of its symbol. -/
theorem arrive_leaf {nxt : BitVec 10} {l : Node} (hleaf : l.leaf = true) (hsym : l.sym.toNat = e.val) :
    arrive root nxt l w = w.decoded root 1 e := by
  have heof : l.sym = eofSym ↔ e = eofIndex := by
    rw [← BitVec.toNat_inj, hsym, Fin.ext_iff]
    rfl
  by_cases he : e = eofIndex
  · rw [arrive_eof hleaf (heof.2 he), TreeWalk.decoded, if_pos he]
    rfl
  · rw [arrive_byte hleaf (mt heof.1 he), TreeWalk.decoded, if_neg he, hsym]
    rfl

/-- An internal entry on the way counts one bit more. -/
theorem TreeWalk.decoded_succ (nxt : BitVec 10) (n : Nat) :
    TreeWalk.decoded { w with bitcnt := w.bitcnt + 1, cur := nxt } root n e = w.decoded root (n + 1) e := by
  have hsum : w.bitcnt + 1 + BitVec.ofNat 64 n = w.bitcnt + BitVec.ofNat 64 (n + 1) := by
    rw [Nat.add_comm n, BitVec.ofNat_add, BitVec.add_assoc]
    rfl
  simp only [TreeWalk.decoded, hsum]

/-- Bits that lead from the cursor to a leaf decode its symbol (R310, R313). -/
theorem takeBits_leaf (hlead : LeadsToLeaf arena w.cur p e) (hne : p ≠ []) (hrun : w.state ≠ .eos)
    (hbits : bits.map Prod.snd = p) :
    takeBits arena root bits w = .ok (w.decoded root p.length e) := by
  induction p generalizing w bits with
  | nil => exact absurd rfl hne
  | cons x p ih =>
    obtain ⟨⟨n, x⟩, bits, rfl, rfl, hrest⟩ := List.map_eq_cons_iff.1 hbits
    obtain ⟨y, l, hpath, hl, hleaf, hsym⟩ := hlead
    obtain ⟨here, hhere, -, hchild, hpath⟩ := followPath_cons_some hpath
    rw [takeBits_cons hrun]
    cases p with
    | nil =>
      obtain rfl := List.map_eq_nil_iff.1 hrest
      obtain rfl := Option.some.inj hpath
      rw [takeBit_arrive hhere hchild hl, arrive_leaf hleaf hsym]
      rfl
    | cons x' p =>
      obtain ⟨e', he', hint, -⟩ := followPath_cons_some hpath
      rw [takeBit_arrive hhere hchild he', arrive_internal hint, List.length_cons,
        ← TreeWalk.decoded_succ (childOf here x)]
      exact ih ⟨y, l, hpath, hl, hleaf, hsym⟩ (by simp) hrun hrest

end

/-! ## The walk over a payload -/

/-- The walk at the root with n bits counted and these bytes pushed: between two symbols in RUN, behind EOF's code
in EOS (R310). -/
def TreeWalk.atRoot (root : BitVec 10) (state : DecState) (n : Nat) (out : List Byte) : TreeWalk :=
  { cur := root, bitcnt := BitVec.ofNat 64 n, state := state, out := out }

section
variable {arena : Vector Node 513} {root : BitVec 10} {u : State} {bits : List (BitVec 3 × Bool)}
  {n : Nat} {out : List Byte}

theorem TreeWalk.decoded_eof (len : Nat) :
    (TreeWalk.atRoot root .run n out).decoded root len eofIndex =
      TreeWalk.atRoot root .eos (n + len) out := by
  rw [TreeWalk.decoded, if_pos rfl, TreeWalk.atRoot, TreeWalk.atRoot, BitVec.ofNat_add]

theorem TreeWalk.decoded_byte (len : Nat) (b : Byte) :
    (TreeWalk.atRoot root .run n out).decoded root len (byteIndex b) =
      TreeWalk.atRoot root .run (n + len) (out ++ [b]) := by
  rw [TreeWalk.decoded, if_neg (byteIndex_ne_eof b), byteIndex, BitVec.ofNat_toNat, BitVec.setWidth_eq,
    TreeWalk.atRoot, TreeWalk.atRoot, BitVec.ofNat_add]

/-- From the root, the bits of a symbol's code decode the symbol. -/
theorem takeBits_code (hc : codesOf arena root = .ok { len := u.codeLen, code := u.code })
    {e : Fin 257} (he : u.codeLen[e] ≠ 0) (hbits : bits.map Prod.snd = codeOf u e) :
    takeBits arena root bits (.atRoot root .run n out) =
      .ok ((TreeWalk.atRoot root .run n out).decoded root (codeOf u e).length e) := by
  have hne : CodeTable.bits { len := u.codeLen, code := u.code } e ≠ [] := mt CodeTable.bits_eq_nil.1 he
  exact takeBits_leaf (codesOf_leads hc hne) hne (by simp [TreeWalk.atRoot]) hbits

/-- From the root, bits that begin with the codes of a byte sequence and EOF's decode the sequence and come to
EOS; what follows is not taken (R313, R317). -/
theorem takeBits_payload (hc : codesOf arena root = .ok { len := u.codeLen, code := u.code })
    {bytes : List Byte} (hcodes : ∀ b ∈ bytes, u.codeLen[byteIndex b] ≠ 0)
    (heof : u.codeLen[eofIndex] ≠ 0) (hbits : payloadBits u bytes <+: bits.map Prod.snd) :
    takeBits arena root bits (.atRoot root .run n out) =
      .ok (.atRoot root .eos (n + (payloadBits u bytes).length) (out ++ bytes)) := by
  obtain ⟨more, hmore⟩ := hbits
  induction bytes generalizing n out bits with
  | nil =>
    obtain ⟨bits, rest, rfl, hcode, -⟩ := List.map_eq_append_iff.1 hmore.symm
    have hcode : bits.map Prod.snd = codeOf u eofIndex := hcode
    rw [takeBits_append, takeBits_code hc heof hcode, TreeWalk.decoded_eof, List.append_nil]
    exact takeBits_eos rfl
  | cons b bytes ih =>
    obtain ⟨hb, hbytes⟩ := List.forall_mem_cons.1 hcodes
    have hsplit : payloadBits u (b :: bytes) = codeOf u (byteIndex b) ++ payloadBits u bytes := by
      rw [payloadBits, List.flatMap_cons, List.append_assoc]
      rfl
    rw [hsplit, List.append_assoc] at hmore
    obtain ⟨bits, rest, rfl, hcode, hrest⟩ := List.map_eq_append_iff.1 hmore.symm
    rw [takeBits_append, takeBits_code hc hb hcode, TreeWalk.decoded_byte, hsplit,
      List.length_append, ← Nat.add_assoc, List.append_cons out b bytes]
    exact ih hbytes hrest.symm

end

/-! ## The walk and the bytes already pushed -/

section
variable {arena : Vector Node 513} {root nxt : BitVec 10} {e : Node} {w w' : TreeWalk}
  {bits : List (BitVec 3 × Bool)}

/-- The walk after the host took the bytes pushed before. -/
def TreeWalk.drained (w : TreeWalk) : TreeWalk := { w with out := [] }

/-- The walk with further bytes pushed before its own. -/
def TreeWalk.after (w : TreeWalk) (popped : List Byte) : TreeWalk := { w with out := popped ++ w.out }

theorem TreeWalk.drained_after (w : TreeWalk) : w.drained.after w.out = w := by
  simp [TreeWalk.drained, TreeWalk.after]

theorem arrive_after (popped : List Byte) :
    arrive root nxt e (w.after popped) = (arrive root nxt e w).after popped := by
  cases hleaf : e.leaf with
  | false => rw [arrive_internal hleaf, arrive_internal hleaf]; rfl
  | true =>
    by_cases hsym : e.sym = eofSym
    · rw [arrive_eof hleaf hsym, arrive_eof hleaf hsym]; rfl
    · rw [arrive_byte hleaf hsym, arrive_byte hleaf hsym]
      simp [TreeWalk.after]

theorem takeBit_after {n : BitVec 3} {x : Bool} (popped : List Byte) :
    takeBit arena root n x (w.after popped) =
      (takeBit arena root n x w).map fun w' => w'.after popped := by
  have hcur : (w.after popped).cur = w.cur := rfl
  simp only [takeBit, hcur]
  cases nodeAt arena w.cur with
  | none => rfl
  | some here =>
    by_cases hnil : childOf here x = nilIdx
    · simp only [if_pos hnil]; rfl
    · simp only [if_neg hnil]
      cases nodeAt arena (childOf here x) with
      | none => rfl
      | some e => exact congrArg Except.ok (arrive_after popped)

theorem takeBits_after (popped : List Byte) :
    takeBits arena root bits (w.after popped) =
      (takeBits arena root bits w).map fun w' => w'.after popped := by
  induction bits generalizing w with
  | nil => rfl
  | cons b bits ih =>
    by_cases heos : w.state = .eos
    · rw [takeBits_eos heos]
      exact takeBits_eos heos
    · have heos' : (w.after popped).state ≠ .eos := heos
      rw [takeBits_cons heos, takeBits_cons heos', takeBit_after]
      cases takeBit arena root b.1 b.2 w with
      | error a => rfl
      | ok w1 => exact ih

/-- A walk that completes does so over the drained FIFO, and pushes what it pushed before and then that. -/
theorem takeBits_drained (h : takeBits arena root bits w = .ok w') :
    ∃ v, takeBits arena root bits w.drained = .ok v ∧ w' = v.after w.out := by
  rw [← w.drained_after, takeBits_after] at h
  cases hv : takeBits arena root bits w.drained with
  | error a => rw [hv] at h; cases h
  | ok v => rw [hv] at h; cases h; exact ⟨v, rfl, rfl⟩

end

/-! ## The commands of a decode, the FIFO drained after each -/

/-- The state of a decode over s at this walk, the FIFO drained. -/
def State.decoding (s : State) (w : TreeWalk) : State :=
  { s.withWalk w with outFifo := [], busy := false }

section
variable {s : State} {w w' : TreeWalk} {rest : List Instr} {popped : List Byte} {y : Byte}

/-- DEC_BEGIN, the bytes left in the FIFO popped after it (R311). -/
theorem runDrained_decBegin (htree : s.treeValid = true) (hopen : noneOpen s = true) :
    runDrained (.decBegin :: rest) s popped =
      runDrained rest (s.decoding (.atRoot s.root .run 0 []))
        (popped ++ s.outFifo) := runDrained_cons (exec_decBegin htree hopen)

/-- DEC_BYTE moves the walk on over its operand's bits: at most 8 bytes, for which the drained FIFO has room
(R8, R312). -/
theorem runDrained_decByte (hlegal : s.config.legal = true) (hopen : w.state ≠ .idle)
    (h : takeBits s.node s.root (operandBits y) w = .ok w') :
    runDrained (.decByte y :: rest) (s.decoding w) (popped ++ w.out) =
      runDrained rest (s.decoding w') (popped ++ w'.out) := by
  obtain ⟨v, hv, rfl⟩ := takeBits_drained h
  obtain ⟨taken, out, htaken, -, hout, hlen, -⟩ := takeBits_ok hv
  obtain rfl : v.out = out := hout
  have hroom : v.out.length ≤ room (s.decoding w) := by
    have hdepth : 33 ≤ s.config.ofifoDepth.toNat := by simpa [Config.legal] using hlegal
    exact (hlen.trans htaken).trans (le_trans (Nat.le_add_right 8 25) hdepth)
  rw [runDrained_cons (exec_commit (effectOf_decByte hopen hv) hroom), List.append_assoc]
  rfl

/-- A run of DEC_BYTE commands is one walk over the bits of the bytes fed (R312). -/
theorem runDrained_decBytes (hlegal : s.config.legal = true) (hopen : w.state ≠ .idle) {fed : List Byte}
    (h : takeBits s.node s.root (fed.flatMap operandBits) w = .ok w') :
    runDrained (fed.map .decByte ++ rest) (s.decoding w) (popped ++ w.out) =
      runDrained rest (s.decoding w') (popped ++ w'.out) := by
  induction fed generalizing w with
  | nil => cases h; rfl
  | cons y fed ih =>
    rw [List.flatMap_cons, takeBits_append] at h
    cases hy : takeBits s.node s.root (operandBits y) w with
    | error a => rw [hy] at h; cases h
    | ok v =>
      rw [hy] at h
      obtain ⟨-, -, -, -, -, -, hstate, -⟩ := takeBits_ok hy
      have hv : v.state ≠ .idle := by
        rcases hstate with hstate | hstate
        · rwa [hstate]
        · simp [hstate]
      rw [List.map_cons, List.cons_append, runDrained_decByte hlegal hopen hy]
      exact ih hv h

/-- DEC_END closes the decode in EOS (R315). -/
theorem runDrained_decEnd (heos : w.state = .eos) :
    runDrained [.decEnd] (s.decoding w) popped =
      .next ({ s.decoding w with decState := .idle }, popped) := by
  rw [runDrained_cons (exec_decEnd_eos (s := s.decoding w) heos), runDrained]
  exact congrArg (fun out => Host.Outcome.next (_, out)) (List.append_nil popped)

/-- The bits of DEC_BYTE's operand are those of the byte, first bit first (R89). -/
theorem operandBits_bits (fed : List Byte) :
    (fed.flatMap operandBits).map Prod.snd = bitsOfBytes fed := by
  rw [List.map_flatMap]
  rfl

/-- Bytes whose bits hold those of a bitstring from the first on begin with it. -/
theorem bitsOfBytes_begins {fed : List Byte} {p : Bits} (hlen : p.length ≤ 8 * fed.length)
    (hbits : ∀ i < p.length, (fed.getD (i / 8) 0).getMsbD (i % 8) = p.getD i false) :
    p <+: bitsOfBytes fed := by
  rw [List.prefix_iff_getElem]
  refine ⟨by simpa using hlen, fun i hi => ?_⟩
  have hi' : i < (bitsOfBytes fed).length := by simpa using hi.trans_le hlen
  rw [← List.getD_eq_getElem p false hi, ← List.getD_eq_getElem _ false hi', getD_bitsOfBytes,
    decide_eq_true (hi.trans_le hlen), Bool.true_and, hbits i hi]

/-- Decoding a payload made with the codes of the present tree (R317): u is a state that holds those codes. -/
theorem runDrained_decode {u : State} {bytes fed : List Byte} (hlegal : s.config.legal = true)
    (htree : s.treeValid = true) (hopen : noneOpen s = true)
    (hc : codesOf s.node s.root = .ok { len := u.codeLen, code := u.code })
    (hcodes : ∀ b ∈ bytes, u.codeLen[byteIndex b] ≠ 0) (heof : u.codeLen[eofIndex] ≠ 0)
    (hfed : payloadBits u bytes <+: bitsOfBytes fed) :
    runDrained (.decBegin :: fed.map .decByte ++ [.decEnd]) s [] =
      .next ({ s with decCur := s.root, bitcnt := BitVec.ofNat 64 (payloadBits u bytes).length,
                      outFifo := [], busy := false }, s.outFifo ++ bytes) := by
  obtain ⟨-, hidle⟩ := noneOpen_iff.1 hopen
  have hwalk : takeBits s.node s.root (fed.flatMap operandBits) (.atRoot s.root .run 0 []) =
      .ok (.atRoot s.root .eos (payloadBits u bytes).length bytes) := by
    rw [takeBits_payload hc hcodes heof (by rwa [operandBits_bits]), Nat.zero_add, List.nil_append]
  calc runDrained (.decBegin :: fed.map .decByte ++ [.decEnd]) s []
      = runDrained (fed.map .decByte ++ [.decEnd]) (s.decoding (.atRoot s.root .run 0 []))
          (s.outFifo ++ []) := by
        rw [List.cons_append, runDrained_decBegin htree hopen, List.append_nil, List.nil_append]
    _ = runDrained [.decEnd] (s.decoding (.atRoot s.root .eos (payloadBits u bytes).length bytes))
          (s.outFifo ++ bytes) := runDrained_decBytes hlegal (by simp [TreeWalk.atRoot]) hwalk
    _ = _ := by
        rw [runDrained_decEnd rfl, ← hidle]
        rfl

end

end Sys2Proof.Machine

open Sys2Proof Sys2Proof.Machine

/-- Settles O39: the walk over the bits fed decodes code after code and stops at EOF's. -/
theorem decodePayloadGivesBytes : Obligations.DecodePayloadGivesBytes := by
  unfold Obligations.DecodePayloadGivesBytes
  intro bytes fed s hinv hvalid henc hdec hcodes heof hlen hbits
  exact runDrained_decode hinv.depth_legal (hinv.codes_need_tree hvalid) (noneOpen_iff.2 ⟨henc, hdec⟩)
    (hinv.codes_are_generated hvalid) hcodes heof (bitsOfBytes_begins hlen hbits)
end

section
/-! SUPPORT. The round trip (44_encoder.md R288; 45_decoder.md R318): the commands up to GEN_CODES push nothing,
and the state they leave holds the tree and the codes of the bytes' own table. -/

namespace Sys2Proof.Machine

variable {i : Instr} {s t : State} {rest : List Instr} {popped : List Byte}

/-! ## Commands that push nothing, the FIFO drained after each -/

/-- The command pushes no byte when it completes (R164). -/
def NeverPushes (i : Instr) : Prop := ∀ s s' out, effectOf i s = .ok (s', out) → out = []

theorem neverPushes_freqClear : NeverPushes .freqClear := fun _ _ _ h => by
  obtain ⟨-, -, hout⟩ := effectOf_ok h
  exact hout

theorem neverPushes_anaByte (b : Byte) : NeverPushes (.anaByte b) := fun _ _ _ h => by
  obtain ⟨-, -, -, hout⟩ := effectOf_ok h
  exact hout

theorem neverPushes_anaEnd (f : Bool) : NeverPushes (.anaEnd f) := fun _ _ _ h => by
  obtain ⟨-, -, hout⟩ := effectOf_ok h
  exact hout

/-- Such a command leaves an empty FIFO empty. -/
theorem NeverPushes.exec_fifo (hi : NeverPushes i) (hfifo : s.outFifo = []) (h : exec i s = .next t) :
    t.outFifo = [] := by
  rcases exec_next h with ⟨code, info, -, rfl⟩ | ⟨s', out, he, -, rfl⟩ | ⟨-, -, -, -, rfl⟩
  · rw [commandFault, takeFault_eq]
  · have hle := effectOf_fifo_le he
    rw [hfifo] at hle
    rw [hi _ _ _ he, List.append_nil]
    exact List.length_eq_zero_iff.1 (Nat.le_zero.1 hle)
  · exact hfifo

/-- With the FIFO empty behind the command there is nothing to pop. -/
theorem runDrained_cons_quiet (h : exec i s = .next t) (hfifo : t.outFifo = []) :
    runDrained (i :: rest) s popped = runDrained rest t popped := by
  have ht : ({ t with outFifo := [] } : State) = t := by rw [← hfifo]
  rw [runDrained_cons h, ht, hfifo, List.append_nil]

/-- From an empty FIFO a run of such commands is the same whether the host drains or not. -/
theorem runDrained_of_runCommands {first : List Instr} (hquiet : ∀ i ∈ first, NeverPushes i)
    (hfifo : s.outFifo = []) (h : runCommands first s = .next t) :
    runDrained (first ++ rest) s popped = runDrained rest t popped := by
  induction first generalizing s with
  | nil => cases h; rfl
  | cons i first ih =>
    obtain ⟨hi, hfirst⟩ := List.forall_mem_cons.1 hquiet
    rw [runCommands] at h
    match hexec : exec i s with
    | .next u =>
      rw [hexec] at h
      have hu := hi.exec_fifo hfifo hexec
      rw [List.cons_append, runDrained_cons_quiet hexec hu]
      exact ih hfirst hu h
    | .fault f => rw [hexec] at h; cases h
    | .refused r => rw [hexec] at h; cases h

/-! ## The compression path up to GEN_CODES -/

/-- The state BUILD_TREE leaves when it completes (R224). -/
def State.withTree (s : State) (t : BuiltTree) : State :=
  { s with node := t.node, nodeCount := t.nodeCount, root := t.root, treeValid := true,
           codesValid := false, busy := false }

/-- The state GEN_CODES leaves when it completes (R251). -/
def State.withCodes (s : State) (c : CodeTable) : State :=
  { s with codeLen := c.len, code := c.code, codesValid := true, busy := false }

/-- From an empty FIFO BUILD_TREE gives the host nothing to pop. -/
theorem runDrained_buildTree {b : BuiltTree} (hopen : noneOpen s = true) (hfifo : s.outFifo = [])
    (hb : treeOf s.freq = some b) :
    runDrained (.buildTree :: rest) s popped = runDrained rest (s.withTree b) popped :=
  runDrained_cons_quiet (exec_buildTree hopen hb) hfifo

/-- Nor does GEN_CODES on the tree just built. -/
theorem runDrained_genCodes {b : BuiltTree} {c : CodeTable} (hopen : noneOpen s = true)
    (hfifo : s.outFifo = []) (hc : codesOf b.node b.root = .ok c) :
    runDrained (.genCodes :: rest) (s.withTree b) popped =
      runDrained rest ((s.withTree b).withCodes c) popped :=
  runDrained_cons_quiet (exec_genCodes (s := s.withTree b) hopen rfl hc) hfifo

/-- The state in which the encode begins: the tree, its codes, and no bit pending. -/
def State.ready (s : State) (b : BuiltTree) (c : CodeTable) : State :=
  setEncPend [] ((s.withTree b).withCodes c)

/-- BUILD_TREE and GEN_CODES come to that state; bits pending before are discarded by ENC_BEGIN (R281). -/
theorem runDrained_tables {b : BuiltTree} {c : CodeTable} (hopen : noneOpen s = true)
    (hfifo : s.outFifo = []) (hb : treeOf s.freq = some b) (hc : codesOf b.node b.root = .ok c) :
    runDrained (.buildTree :: .genCodes :: .encBegin :: rest) s [] =
      runDrained (.encBegin :: rest) (s.ready b c) [] := by
  rw [runDrained_buildTree hopen hfifo hb, runDrained_genCodes hopen hfifo hc,
    runDrained_encBegin (s := (s.withTree b).withCodes c) rfl hopen,
    runDrained_encBegin (s := s.ready b c) rfl hopen]
  rfl

/-- Whatever an idle state without a fault held before, with the tree and the codes of its table it meets the
invariant. -/
theorem ready_inv {b : BuiltTree} {c : CodeTable} (hlegal : s.config.legal = true)
    (herr : s.err = .noFault) (hopen : noneOpen s = true) (hfifo : s.outFifo = [])
    (hb : treeOf s.freq = some b) (hc : codesOf b.node b.root = .ok c) : (s.ready b c).Inv := by
  obtain ⟨henc, hdec⟩ := noneOpen_iff.1 hopen
  exact
    { depth_legal := hlegal
      fifo_fits := (congrArg List.length hfifo).trans_le (Nat.zero_le _)
      err_raised := fun h => ErrCode.noConfusion (herr.symm.trans h)
      codes_need_tree := fun _ => rfl
      enc_needs_codes := fun _ => ⟨rfl, hdec⟩
      dec_needs_tree := fun _ => ⟨rfl, henc⟩
      tree_is_built := fun _ => hb
      codes_are_generated := fun _ => hc
      cursor_on_internal := fun hd => absurd hdec hd
      arena_built := .inr ⟨s.freq, hb⟩
      code_len_bound := fun j => (codesOf_padded hc j).1
      code_padded := fun j => (codesOf_padded hc j).2
      acc_padded := rfl
      fault_pending := fun h => absurd herr h
      reset_idle := fun _ => rfl }

/-- Exactly the symbols with a count get a code (R252 item 1). -/
theorem built_code_iff_count {freq : Vector Word 257} {b : BuiltTree} {c : CodeTable}
    (hb : treeOf freq = some b) (hc : codesOf b.node b.root = .ok c) (e : Fin 257) :
    c.len[e] ≠ 0 ↔ freq[e] ≠ 0 :=
  (built_code_iff hb hc e).trans (built_leaf_symbol_iff hb e)

/-- Analysis in file mode (R196). -/
def analyzeCommands (bytes : List Byte) : List Instr := .freqClear :: bytes.map .anaByte ++ [.anaEnd true]

/-- The document's encode (R284). -/
def encodeCommands (bytes : List Byte) : List Instr := .encBegin :: bytes.map .encByte ++ [.encFinish]

/-- The compression path analyzes, builds the tables and encodes (R288). -/
theorem compressCommands_eq (bytes : List Byte) :
    compressCommands bytes =
      analyzeCommands bytes ++ Instr.buildTree :: Instr.genCodes :: encodeCommands bytes := by
  simp [compressCommands, analyzeCommands, encodeCommands]

theorem analyzeCommands_quiet {bytes : List Byte} : ∀ i ∈ analyzeCommands bytes, NeverPushes i := by
  intro i hi
  simp only [analyzeCommands, List.cons_append, List.mem_cons, List.mem_append, List.mem_map,
    List.not_mem_nil, or_false] at hi
  obtain rfl | ⟨b, -, rfl⟩ | rfl := hi
  · exact neverPushes_freqClear
  · exact neverPushes_anaByte b
  · exact neverPushes_anaEnd true

/-- From an empty FIFO the analysis leaves a count for every byte of the sequence and for EOF. -/
theorem runDrained_analyze {bytes : List Byte} (hopen : noneOpen s = true) (hfifo : s.outFifo = [])
    (hfit : ∀ v : Byte, bytes.count v < 2 ^ 32) :
    ∃ freq : Vector Word 257, (∀ v ∈ bytes, freq[byteIndex v] ≠ 0) ∧ freq[eofIndex] ≠ 0 ∧
      ∀ rest, runDrained (analyzeCommands bytes ++ rest) s popped =
        runDrained rest (s.withFreq freq) popped := by
  obtain ⟨henc, hdec⟩ := noneOpen_iff.1 hopen
  obtain ⟨t, hrun, hcounts, heof, ht⟩ := analyzeCountsOccurrences bytes true s henc hdec hfit
  refine ⟨t.freq, fun v hv hzero => ?_, ?_, fun rest => ?_⟩
  · have hcount := hcounts v
    rw [hzero] at hcount
    exact (List.count_pos_iff.2 hv).ne hcount
  · rw [heof]
    decide
  · rw [runDrained_of_runCommands analyzeCommands_quiet hfifo hrun]
    exact congrArg (runDrained rest · popped) ht

/-- The compression path (R288): u is the state in which its encode begins, b the tree of the bytes' table, and
the payload is that of u. -/
theorem runDrained_compress {bytes : List Byte} (hlegal : s.config.legal = true) (herr : s.err = .noFault)
    (hopen : noneOpen s = true) (hfifo : s.outFifo = []) (hfit : ∀ v : Byte, bytes.count v < 2 ^ 32) :
    ∃ t payload b u, runDrained (compressCommands bytes) s [] = .next (t, payload) ∧
      t.err = .noFault ∧ t.encActive = false ∧
      t.bitcnt = BitVec.ofNat 64 (payloadBits u bytes).length ∧
      treeOf t.freq = some b ∧ codesOf b.node b.root = .ok { len := u.codeLen, code := u.code } ∧
      (∀ v ∈ bytes, u.codeLen[byteIndex v] ≠ 0) ∧ u.codeLen[eofIndex] ≠ 0 ∧
      payloadBits u bytes <+: bitsOfBytes payload := by
  obtain ⟨henc, hdec⟩ := noneOpen_iff.1 hopen
  obtain ⟨freq, hbytes, heof, hanalyze⟩ := runDrained_analyze (popped := []) hopen hfifo hfit
  obtain ⟨b, hb⟩ := Option.ne_none_iff_exists'.1 fun h => heof (treeOf_eq_none_iff.1 h eofIndex)
  obtain ⟨c, hc⟩ := codesOf_completes hb
  have hcode (e : Fin 257) (he : freq[e] ≠ 0) : c.len[e] ≠ 0 := (built_code_iff_count hb hc e).2 he
  obtain ⟨t, out, hencode, hlen, hpacks, -, ht⟩ := encodeSequencePacksCodes bytes
    ((s.withFreq freq).ready b c) (ready_inv hlegal herr hopen hfifo hb hc) rfl henc hdec
    (fun v hv => hcode _ (hbytes v hv)) (hcode _ heof)
  refine ⟨t, out, b, (s.withFreq freq).ready b c, ?_, (congrArg State.err ht).trans herr,
    (congrArg State.encActive ht).trans henc, congrArg State.bitcnt ht, ?_, hc,
    fun v hv => hcode _ (hbytes v hv), hcode _ heof, ?_⟩
  · have hpopped : ((s.withFreq freq).ready b c).outFifo = [] := hfifo
    rw [compressCommands_eq, hanalyze, encodeCommands, List.cons_append,
      runDrained_tables (s := s.withFreq freq) hopen hfifo hb hc]
    rw [hpopped] at hencode
    exact hencode
  · rw [congrArg State.freq ht]
    exact hb
  · exact bitsOfBytes_begins (by omega) fun i hi => hpacks i (by omega)

end Sys2Proof.Machine

open Sys2Proof Sys2Proof.Machine

/-- Settles O40: the table builds the same tree and so the same codes, and the payload begins with the codes of the
sequence and EOF's. -/
theorem roundTripRestoresBytes : Obligations.RoundTripRestoresBytes := by
  unfold Obligations.RoundTripRestoresBytes
  intro bytes s hlegal herr henc hdec hfifo hfit
  obtain ⟨t, payload, b, u, hcompress, hterr, htenc, hbitcnt, hb, hc, hcodes, heof, hfed⟩ :=
    runDrained_compress hlegal herr (noneOpen_iff.2 ⟨henc, hdec⟩) hfifo hfit
  refine ⟨t, payload, hcompress, hterr, htenc, fun r hrlegal hrerr hrenc hrdec hrfifo hfreq => ?_⟩
  have hopen : noneOpen r = true := noneOpen_iff.2 ⟨hrenc, hrdec⟩
  have hdecode := runDrained_decode (s := r.withTree b) hrlegal rfl hopen hc hcodes heof hfed
  have hpopped : (r.withTree b).outFifo = [] := hrfifo
  rw [hpopped] at hdecode
  exact ⟨_, (runDrained_buildTree hopen hrfifo (hfreq ▸ hb)).trans hdecode, hrerr, hrdec, hbitcnt.symm⟩
end

section
/-! SUPPORT. The faults a command can raise (60_exceptions.md R343, R345, R346), the interrupt line (R360) and
the idle core (R368). -/

namespace Sys2Proof.Machine

variable {i : Instr} {s t : State} {code : ErrCode} {info : Word}

/-! ## The faults of a core step -/

/-- A core step before any fault takes the first one, on the state before the command, or leaves the record
empty. -/
theorem exec_first_fault (herr : s.err = .noFault) (h : exec i s = .next t) :
    (∃ code info, effectOf i s = .error (.raise code info) ∧ t = faulted code info s) ∨
      t.err = .noFault := by
  rcases exec_next h with ⟨code, info, he, rfl⟩ | ⟨s', out, he, -, rfl⟩ | ⟨-, -, -, -, rfl⟩
  · exact .inl ⟨code, info, he, commandFault_first herr⟩
  · have herr' : s'.err = .noFault := effectOf_err he herr
    exact .inr herr'
  · exact .inr herr

/-- The fault that R343 gives to a command's own pseudocode. -/
def OwnFault (code : ErrCode) (i : Instr) : Prop :=
  (code = .countOverflow ∧ ∃ b, i = .anaByte b) ∨ (code = .invalidInput ∧ i = .buildTree) ∨
    (code = .protocol ∧ (i = .encFinish ∨ ∃ b, i = .encByte b)) ∨
    (code = .badPath ∧ ∃ b, i = .decByte b) ∨ (code = .truncatedStream ∧ i = .decEnd)

/-- A well-formed command raises SEQUENCE out of phase, and in phase its own fault. -/
theorem fault_of_effectOf (hwf : i.wellFormed = true)
    (h : effectOf i s = .error (.raise code info)) :
    (code = .sequence ∧ phaseOk i s = false) ∨ OwnFault code i := by
  rcases effectOf_error h with ⟨hill, -⟩ | ⟨hp, hcode⟩ | ⟨-, hown⟩
  · exact absurd hwf (by simp [hill])
  · cases hcode
    exact .inl ⟨rfl, hp⟩
  · right
    cases i
    case anaByte b => cases hown; exact .inl ⟨rfl, b, rfl⟩
    case buildTree => cases hown; exact .inr (.inl ⟨rfl, rfl⟩)
    case encByte b => cases hown; exact .inr (.inr (.inl ⟨rfl, .inr ⟨b, rfl⟩⟩))
    case encFinish => cases hown; exact .inr (.inr (.inl ⟨rfl, .inl rfl⟩))
    case decByte y =>
      obtain ⟨-, hstop | ⟨info', hbad⟩⟩ := hown
      · cases hstop
      · cases hbad
        exact .inr (.inr (.inr (.inl ⟨rfl, y, rfl⟩)))
    case decEnd => cases hown; exact .inr (.inr (.inr (.inr ⟨rfl, rfl⟩)))
    case genCodes =>
      obtain ⟨f, -, hstop⟩ := hown
      cases hstop
    all_goals exact hown.elim

/-- NOP, SOFT_RESET and FREQ_READ are never out of phase (R130). -/
theorem ne_of_out_of_phase (hp : phaseOk i s = false) :
    i ≠ .nop ∧ i ≠ .softReset ∧ ∀ a, i ≠ .freqRead a := by
  refine ⟨?_, ?_, fun a => ?_⟩ <;> rintro rfl <;> exact Bool.noConfusion hp

/-! ## The idle core and the interrupt line -/

/-- Without a pending command the core does nothing in its turn (R368). -/
theorem coreTurn_of_quiescent (h : Quiescent s) : coreTurn s = .next s := by
  rw [coreTurn, h]
  rfl

/-- INT_EN read back: ERR_IE in bit 0, EOS_IE in bit 1 (R50). -/
theorem windowWord_intEn (s : State) :
    (windowWord s 0x28).getLsbD 0 = s.errIe ∧ (windowWord s 0x28).getLsbD 1 = s.eosIe := by
  have hword : windowWord s 0x28 = 0#30 ++ BitVec.ofBool s.eosIe ++ BitVec.ofBool s.errIe := rfl
  rw [hword]
  cases s.errIe <;> cases s.eosIe <;> decide

/-- DEC_STATE reads 2 exactly in EOS (R34, R39). -/
theorem decNumber_eq_two_iff (d : DecState) : decNumber d = 2 ↔ d = .eos := by
  cases d <;> decide

end Sys2Proof.Machine

open Sys2Proof Sys2Proof.Machine

/-- Settles O9: the only next state with a fault is that of the fault rule, on the state before the command. -/
theorem faultsArePrecise : Obligations.FaultsArePrecise := by
  unfold Obligations.FaultsArePrecise
  intro i s t herr h hfault
  rcases exec_first_fault herr h with ⟨code, info, -, rfl⟩ | hnone
  · rfl
  · exact absurd hnone hfault

/-- Settles O11: a fault is SEQUENCE from the phase check, or the command's own. -/
theorem commandsRaiseOnlyTheirFaults : Obligations.CommandsRaiseOnlyTheirFaults := by
  unfold Obligations.CommandsRaiseOnlyTheirFaults
  intro i s t hwf herr h
  rcases exec_first_fault herr h with ⟨code, info, he, rfl⟩ | hnone
  · rcases fault_of_effectOf hwf he with ⟨hcode, hp⟩ | hown
    · exact .inr (.inl ⟨hcode, ne_of_out_of_phase hp⟩)
    · exact .inr (.inr hown)
  · exact .inl hnone

/-- Settles O52: the bits the host reads are the fields the line is computed from. -/
theorem irqFollowsStatus : Obligations.IrqFollowsStatus := by
  unfold Obligations.IrqFollowsStatus
  intro s
  obtain ⟨herrIe, heosIe⟩ := windowWord_intEn s
  obtain ⟨-, -, -, -, hdec, hfault, -⟩ := statusWord_fields s
  have hstatus : windowWord s 0x04 = statusWord s := rfl
  rw [herrIe, heosIe, hstatus, hdec, hfault, irq]
  simp only [decNumber_eq_two_iff]

/-- Settles O7: the core's turn does nothing, whichever way it got it. -/
theorem quiescentBlockIdles : Obligations.QuiescentBlockIdles := by
  unfold Obligations.QuiescentBlockIdles
  exact ⟨fun s hq hs => (step_idle hs).trans (coreTurn_of_quiescent hq),
    fun s rest hq hs => (step_core hs).trans
      (coreTurn_of_quiescent (s := { s with schedule := rest }) hq)⟩
end
